-- ==== Sys2Proof/Word.lean ====
section
/-! DEFINITION. The machine's words and the records its tables hold (00_scope.md R8, R11, R12; 10_state.md R41 to R43). -/

namespace Sys2Proof

/-- One byte of a frame buffer (00_scope.md R9). -/
abbrev Byte := BitVec 8

/-- A 16-bit quantity: a length, an interface id, a checksum (10_state.md R27, R29). -/
abbrev Half := BitVec 16

/-- A 32-bit register or command word; addresses, prefixes and masks are such numbers (00_scope.md R11). -/
abbrev Word := BitVec 32

/-- A MAC address, `m0` first on the wire (00_scope.md R12). -/
structure Mac where
  m0 : Byte
  m1 : Byte
  m2 : Byte
  m3 : Byte
  m4 : Byte
  m5 : Byte
deriving DecidableEq, Repr, Inhabited

/-- The six bytes in wire order. -/
def Mac.bytes (m : Mac) : List Byte := [m.m0, m.m1, m.m2, m.m3, m.m4, m.m5]

/-- `HI = {mac[0], mac[1], mac[2], mac[3]}` (00_scope.md R12). -/
def Mac.hi (m : Mac) : Word := m.m0 ++ m.m1 ++ m.m2 ++ m.m3

/-- The two bytes of `LO[31:16]`, `{mac[4], mac[5]}` (00_scope.md R12). -/
def Mac.lo (m : Mac) : Half := m.m4 ++ m.m5

/-- A routing table entry; `pfx` is the rule's `prefix` (10_state.md R41). -/
structure RouteEntry where
  pfx : Word
  mask : Word
  nextHop : Word
  egressIf : Half
deriving DecidableEq, Repr, Inhabited

/-- An ARP table entry (10_state.md R42). -/
structure ArpEntry where
  ip : Word
  mac : Mac
deriving DecidableEq, Repr, Inhabited

/-- An interface address table entry (10_state.md R43). -/
structure IfEntry where
  addr : Word
  valid : Bool
deriving DecidableEq, Repr, Inhabited

end Sys2Proof
end

