-- ==== Sys2Proof/Syntax.lean ====
section
/-! DEFINITION. The nineteen commands of PFE command set 1.0 as syntax (30_encoding.md R82, R83). -/

namespace Sys2Proof

/-- The buffer a command's `s` bit selects: 0 is RXB, 1 is TXB (30_encoding.md R83). -/
inductive Buf where
  | rx
  | tx
deriving DecidableEq, Repr, Inhabited

/-- One constructor per row of the opcode table. Immediates are the unsigned numbers of R83; the widths that
make an instruction encodable are checked by `Instr.wellFormed`. -/
inductive Instr where
  /-- `NOP` (44_system.md R200). -/
  | nop
  /-- `SRST` (44_system.md R201). -/
  | srst
  /-- `RTLOAD` (41_lpm.md R121). -/
  | rtload
  /-- `ATLOAD` (41_lpm.md R122). -/
  | atload
  /-- `IFLOAD id` (41_lpm.md R123). -/
  | ifload (id : Nat)
  /-- `BUILD` (41_lpm.md R127). -/
  | build
  /-- `RTREAD` (41_lpm.md R124). -/
  | rtread
  /-- `ATREAD` (41_lpm.md R125). -/
  | atread
  /-- `IFREAD id` (41_lpm.md R126). -/
  | ifread (id : Nat)
  /-- `RTLOOKUP` (41_lpm.md R130). -/
  | rtlookup
  /-- `ARPLOOKUP` (41_lpm.md R134). -/
  | arplookup
  /-- `CSUM s, off, len` (40_checksum.md R110). -/
  | csum (b : Buf) (off len : Nat)
  /-- `RDF s, f` (42_codec.md R153). -/
  | rdf (b : Buf) (f : Nat)
  /-- `WRF s, f` (42_codec.md R154). -/
  | wrf (b : Buf) (f : Nat)
  /-- `BUFCLR s` (42_codec.md R158). -/
  | bufclr (b : Buf)
  /-- `IPCS s` (42_codec.md R160). -/
  | ipcs (b : Buf)
  /-- `ICMPCS s` (42_codec.md R161). -/
  | icmpcs (b : Buf)
  /-- `MKREPLY t` (42_codec.md R166). -/
  | mkreply (t : Byte)
  /-- `FWD` (43_forward.md R180). -/
  | fwd
deriving DecidableEq, Repr, Inhabited

end Sys2Proof
end

