-- ==== Sys2Proof/WellFormed.lean ====
section
/-! DEFINITION. Which instructions a command word can carry (30_encoding.md R81, R83). -/

namespace Sys2Proof

/-- `id`, `off` and `len` fit 12 bits and `f` fits 5 (R83: ids 0 to 4095, byte counts 0 to 4095, field ids 0 to 31).
Checks that depend on state or parameters are the command's own (R84). -/
def Instr.wellFormed : Instr → Bool
  | .nop => true
  | .srst => true
  | .rtload => true
  | .atload => true
  | .ifload id => decide (id < 4096)
  | .build => true
  | .rtread => true
  | .atread => true
  | .ifread id => decide (id < 4096)
  | .rtlookup => true
  | .arplookup => true
  | .csum _ off len => decide (off < 4096) && decide (len < 4096)
  | .rdf _ f => decide (f < 32)
  | .wrf _ f => decide (f < 32)
  | .bufclr _ => true
  | .ipcs _ => true
  | .icmpcs _ => true
  | .mkreply _ => true
  | .fwd => true

end Sys2Proof
end

