-- ==== Sys2Proof/Decode.lean ====
section
/-! DEFINITION. The command encoding: decoder and encoder, both written from 30_encoding.md R80 to R86. -/

namespace Sys2Proof

/-- Why a word is not one of the nineteen encodings (30_encoding.md R84 steps 1 and 2). -/
inductive Reject where
  /-- Step 1: the opcode is unassigned. Raised by `decode`; the command is refused with `ERR_ILLEGAL`. Safe. -/
  | unassignedOpcode (op : Nat)
  /-- Step 2: a bit the format says must be zero is 1. Raised by `decode`; refused with `ERR_ILLEGAL`. Safe. -/
  | mustBeZero (op : Nat)
deriving DecidableEq, Repr

/-- The opcode field, bits 31:26 (R80). -/
def opField (w : Word) : Nat := (w.extractLsb' 26 6).toNat

/-- The buffer select, bit 25 (R80, R83). -/
def bufField (w : Word) : Buf := if w.extractLsb' 25 1 = 0#1 then .rx else .tx

/-- The 12-bit operand A, bits 23:12 (R80). -/
def aField (w : Word) : Nat := (w.extractLsb' 12 12).toNat

/-- The 12-bit operand B, bits 11:0 (R80). -/
def bField (w : Word) : Nat := (w.extractLsb' 0 12).toNat

/-- Bits `hi` down to `lo` are all zero. -/
def zeroBits (w : Word) (hi lo : Nat) : Bool := w.extractLsb' lo (hi + 1 - lo) = 0

/-- R84 step 2: the word is the command `i` when the format's must-be-zero bits are zero. -/
def legalWhen (ok : Bool) (w : Word) (i : Instr) : Except Reject Instr :=
  if ok then .ok i else .error (.mustBeZero (opField w))

/-- Format Z: `s`, `z`, `A`, `B` must be zero (R81). -/
def formatZ (w : Word) (i : Instr) : Except Reject Instr := legalWhen (zeroBits w 25 0) w i

/-- Format I: `s`, `z`, `A` must be zero; the immediate is `B` (R81). -/
def formatI (w : Word) (mk : Nat → Instr) : Except Reject Instr :=
  legalWhen (zeroBits w 25 12) w (mk (bField w))

/-- Format I8: `s`, `z`, `A`, `B[11:8]` must be zero; the immediate is `B[7:0]` (R81). -/
def formatI8 (w : Word) (mk : Byte → Instr) : Except Reject Instr :=
  legalWhen (zeroBits w 25 8) w (mk (w.extractLsb' 0 8))

/-- Format S: `z`, `A`, `B` must be zero; the operand is `s` (R81). -/
def formatS (w : Word) (mk : Buf → Instr) : Except Reject Instr :=
  legalWhen (zeroBits w 24 0) w (mk (bufField w))

/-- Format F: `z`, `A`, `B[11:5]` must be zero; the operands are `s` and the field id `B[4:0]` (R81). -/
def formatF (w : Word) (mk : Buf → Nat → Instr) : Except Reject Instr :=
  legalWhen (zeroBits w 24 5) w (mk (bufField w) (w.extractLsb' 0 5).toNat)

/-- Format R: `z` must be zero; the operands are `s`, `A` and `B` (R81). -/
def formatR (w : Word) (mk : Buf → Nat → Nat → Instr) : Except Reject Instr :=
  legalWhen (zeroBits w 24 24) w (mk (bufField w) (aField w) (bField w))

/-- Decoding, a total function of the 32-bit word and of nothing else (R84), by the opcode map of R82. -/
def decode (w : Word) : Except Reject Instr :=
  match opField w with
  | 0x00 => formatZ w .nop
  | 0x01 => formatZ w .srst
  | 0x08 => formatZ w .rtload
  | 0x09 => formatZ w .atload
  | 0x0A => formatI w .ifload
  | 0x0B => formatZ w .build
  | 0x0C => formatZ w .rtread
  | 0x0D => formatZ w .atread
  | 0x0E => formatI w .ifread
  | 0x10 => formatZ w .rtlookup
  | 0x11 => formatZ w .arplookup
  | 0x18 => formatR w .csum
  | 0x20 => formatF w .rdf
  | 0x21 => formatF w .wrf
  | 0x22 => formatS w .bufclr
  | 0x23 => formatS w .ipcs
  | 0x24 => formatS w .icmpcs
  | 0x25 => formatI8 w .mkreply
  | 0x30 => formatZ w .fwd
  | op => .error (.unassignedOpcode op)

/-- The `s` bit that selects a buffer (R83). -/
def Buf.sBit : Buf → Nat
  | .rx => 0
  | .tx => 1

/-- `word = (op << 26) | (s << 25) | (z << 24) | (A << 12) | B` with `z = 0` (R80); the fields do not overlap, so
the sum is the bitwise or. -/
def pack (op s a b : Nat) : Word := BitVec.ofNat 32 (op * 2 ^ 26 + s * 2 ^ 25 + a * 2 ^ 12 + b)

/-- The word of an instruction (R81, R82). -/
def encode : Instr → Word
  | .nop => pack 0x00 0 0 0
  | .srst => pack 0x01 0 0 0
  | .rtload => pack 0x08 0 0 0
  | .atload => pack 0x09 0 0 0
  | .ifload id => pack 0x0A 0 0 id
  | .build => pack 0x0B 0 0 0
  | .rtread => pack 0x0C 0 0 0
  | .atread => pack 0x0D 0 0 0
  | .ifread id => pack 0x0E 0 0 id
  | .rtlookup => pack 0x10 0 0 0
  | .arplookup => pack 0x11 0 0 0
  | .csum b off len => pack 0x18 b.sBit off len
  | .rdf b f => pack 0x20 b.sBit 0 f
  | .wrf b f => pack 0x21 b.sBit 0 f
  | .bufclr b => pack 0x22 b.sBit 0 0
  | .ipcs b => pack 0x23 b.sBit 0 0
  | .icmpcs b => pack 0x24 b.sBit 0 0
  | .mkreply t => pack 0x25 0 0 t.toNat
  | .fwd => pack 0x30 0 0 0

/-- The instruction the decoder reads from the `nbits` bits of `w`, the bits above them zero. -/
def decodeTableWord (nbits w : Nat) : Option Instr :=
  (decode (BitVec.ofNat 32 (w % 2 ^ nbits))).toOption

end Sys2Proof
end

