-- ==== Sys2Proof/Config.lean ====
section
/-! DEFINITION. What an implementation fixes (00_scope.md R6, R7) and the values the spec leaves open, as constants
with no body (70_reset_and_hazards.md R231; 41_lpm.md R129). -/

namespace Sys2Proof

/-- The implementation parameters (00_scope.md R6), with the rule's default values.
DESIGN CHOICE (log entry 4): they stand in State so that a statement can hold for every legal value; no step
changes them. Safe. -/
structure Params where
  /-- `FB_SIZE`, bytes of each frame buffer. -/
  fbSize : Nat := 2048
  /-- `RT_CAP`, entries of the routing table. -/
  rtCap : Nat := 1024
  /-- `AT_CAP`, entries of the ARP table. -/
  atCap : Nat := 256
  /-- `N_IF`, entries of the interface address table. -/
  nIf : Nat := 4
  /-- `REPLY_TTL`, the TTL of every built frame. -/
  replyTtl : Byte := 32
  /-- `CSUM_SEED`, the initial value of the checksum accumulator. -/
  csumSeed : Half := 0
deriving DecidableEq, Repr, Inhabited

/-- The constraints of 00_scope.md R6 on the parameters. -/
abbrev Params.Legal (p : Params) : Prop :=
  p.fbSize % 4 = 0 ∧ 42 ≤ p.fbSize ∧ p.fbSize ≤ 4092 ∧
  1 ≤ p.rtCap ∧ p.rtCap ≤ 2 ^ 31 - 1 ∧
  1 ≤ p.atCap ∧ p.atCap ≤ 2 ^ 31 - 1 ∧
  1 ≤ p.nIf ∧ p.nIf ≤ 4096 ∧
  (p.csumSeed = 0x0000 ∨ p.csumSeed = 0xFFFF)

namespace Config

/-- `ETH_HLEN` (00_scope.md R6). -/
def ethHlen : Nat := 14

/-- `IP_HLEN` (00_scope.md R6). -/
def ipHlen : Nat := 20

/-- `ICMP_HLEN` (00_scope.md R6). -/
def icmpHlen : Nat := 8

/-- `ETHERTYPE_IPV4` (00_scope.md R7). -/
def ethertypeIpv4 : Word := 0x0800

/-- `IPPROTO_ICMP` (00_scope.md R7). -/
def ipprotoIcmp : Byte := 1

/-- `ICMP_ECHO_REPLY` (00_scope.md R7). -/
def icmpEchoReply : Byte := 0

/-- `ICMP_DEST_UNREACH` (00_scope.md R7). -/
def icmpDestUnreach : Byte := 3

/-- `ICMP_TIME_EXCEEDED` (00_scope.md R7). -/
def icmpTimeExceeded : Byte := 11

/-- FREE VALUE (log entry 5): what byte `i` of buffer `b` holds after the `n`-th hardware reset, until it is
written (70_reset_and_hazards.md R231: any value, not zero). -/
opaque powerUpByte (n : Nat) (b : Buf) (i : Nat) : Byte

/-- FREE VALUE (log entry 6): what the storage of `RT[i]` holds after the `n`-th hardware reset, until it is
written (70_reset_and_hazards.md R231). -/
opaque powerUpRoute (n : Nat) (i : Nat) : RouteEntry

/-- FREE VALUE (log entry 6): what the storage of `AT[i]` holds after the `n`-th hardware reset, until it is
written (70_reset_and_hazards.md R231). -/
opaque powerUpArp (n : Nat) (i : Nat) : ArpEntry

/-- FREE VALUE (log entry 7): the rank by which the `n`-th `BUILD` orders the entry loaded at index `i` among
entries of equal (prefix, mask) (41_lpm.md R129: any permutation sorted by the key is a correct outcome). -/
opaque tieRank (n : Nat) (i : Nat) : Nat

end Config

end Sys2Proof
end

