-- ==== Sys2Proof/Machine/State.lean ====
section
/-! DEFINITION. The state of the block (10_state.md R20 to R49), the host accesses it answers (20_memory.md R60 to
R64), and its state after reset (70_reset_and_hazards.md R230, R231). -/

namespace Sys2Proof.Machine

/-- An array kept as (index, value) pairs in canonical form: indices strictly rising, each index listed once.
An index that is not listed has not been written since the array last got its reset contents. -/
abbrev Store (α : Type) := List (Nat × α)

/-- A frame buffer's written bytes (10_state.md R40). -/
abbrev Memory := List Host.Cell

/-- The width of a host access (20_memory.md R61 to R64). -/
inductive Width where
  | byte
  | half
  | word
deriving DecidableEq, Repr, Inhabited

/-- One action of the host (30_encoding.md R96; 20_memory.md R62 to R64; 70_reset_and_hazards.md R232). Offsets are
byte offsets in the block's region (R61). -/
inductive HostAction where
  /-- A read of the given width. -/
  | read (w : Width) (off : Nat)
  /-- A write of the given width; a write to offset 0 of a word is a command. -/
  | write (w : Width) (off : Nat) (v : Word)
  /-- Hardware reset, an event of the host interface like an access (R232). -/
  | reset
deriving DecidableEq, Repr, Inhabited

/-- What the bus answers to a host access. -/
inductive Response where
  /-- No access has been answered since hardware reset. -/
  | idle
  /-- A write was taken (20_memory.md R62, R63, R66). -/
  | ack
  /-- The value of a register (20_memory.md R62). -/
  | word (v : Word)
  /-- A byte of a buffer (20_memory.md R63). -/
  | byte (v : Byte)
  /-- A bus error: the access is outside the map or of the wrong width (20_memory.md R64). -/
  | busError
deriving DecidableEq, Repr, Inhabited

/-- Why the machine stops with a fault. It has NO constructor: the spec's only exception is the refusal of a
command, which is a next state, and the block "is never stuck and has no fatal state" (60_exceptions.md R210, R211).
Raised by nothing; safe. -/
inductive Fault
deriving DecidableEq, Repr

/-- Why the model has no meaning for an instruction. A REFUSAL OF A COMMAND BY THE BLOCK (60_exceptions.md R211) is
not one of these: it is a next state. -/
inductive Refusal where
  /-- Raised only by an arm of `exec` whose instruction has no meaning yet; safe. -/
  | notModelled (mnemonic : String)
deriving DecidableEq, Repr

/-- The complete state of the block (10_state.md R20), then the model's own fields. -/
structure State where
  /-- `DR0` (R21). -/
  dr0 : Word := 0
  /-- `DR1` (R21). -/
  dr1 : Word := 0
  /-- `DR2` (R21). -/
  dr2 : Word := 0
  /-- `DR3` (R21). -/
  dr3 : Word := 0
  /-- `STATUS.BUILT`: false is the CONFIG phase, true the RUN phase (R24). -/
  built : Bool := false
  /-- `STATUS.ERRS` (R24). -/
  errs : Bool := false
  /-- `STATUS.CS_ZERO` (R24). -/
  csZero : Bool := false
  /-- `STATUS.CS_ODD` (R24). -/
  csOdd : Bool := false
  /-- `STATUS.LPM_HIT` (R24). -/
  lpmHit : Bool := false
  /-- `STATUS.ARP_HIT` (R24). -/
  arpHit : Bool := false
  /-- `STATUS.IF_HIT` (R24). -/
  ifHit : Bool := false
  /-- `STATUS.OUT_VALID` (R24). -/
  outValid : Bool := false
  /-- `STATUS.OUT_SEL`: false is RXB, true TXB (R24). -/
  outSel : Bool := false
  /-- `ERR.ERR_CODE` (R26). -/
  errCode : Byte := 0
  /-- `ERRCMD` (R26). -/
  errCmd : Word := 0
  /-- `RX_LEN` (R27). -/
  rxLen : Half := 0
  /-- `RX_IF` (R27). -/
  rxIf : Half := 0
  /-- `TX_LEN` (R27). -/
  txLen : Half := 0
  /-- `TX_IF` (R27). -/
  txIf : Half := 0
  /-- `RT_LEN` (R41). -/
  rtLen : Word := 0
  /-- `AT_LEN` (R42). -/
  atLen : Word := 0
  /-- `CS_RES` (R29, R30). -/
  csRes : Half := 0
  /-- `CS_FOLD` (R29). -/
  csFold : Half := 0
  /-- `CS_ACC`, read as `CS_ACC_HI:CS_ACC_LO` (R29). -/
  csAcc : BitVec 64 := 0
  /-- `LPM_IDX` (R31). -/
  lpmIdx : Word := 0
  /-- `LPM_PREFIX` (R31). -/
  lpmPfx : Word := 0
  /-- `LPM_MASK` (R31). -/
  lpmMask : Word := 0
  /-- `LPM_NHOP` (R31). -/
  lpmNhop : Word := 0
  /-- `LPM_EIF` (R31). -/
  lpmEif : Half := 0
  /-- `ARP_IDX` (R32). -/
  arpIdx : Word := 0
  /-- `ARP_IP` (R32). -/
  arpIp : Word := 0
  /-- `ARP_MAC_HI` (R32). -/
  arpMacHi : Word := 0
  /-- Bits 31:16 of `ARP_MAC_LO`; its bits 15:0 read as 0 (R25, R32). -/
  arpMacLo : Half := 0
  /-- `DISP` (R46). -/
  disp : BitVec 4 := 0
  /-- `OUT_LEN` (R47). -/
  outLen : Half := 0
  /-- `OUT_IF` (R47). -/
  outIf : Half := 0
  /-- The written bytes of `RXB` (R40). -/
  rxb : Memory := []
  /-- The written bytes of `TXB` (R40). -/
  txb : Memory := []
  /-- The written entries of `RT` (R41). -/
  rt : Store RouteEntry := []
  /-- The written entries of `AT` (R42). -/
  arpt : Store ArpEntry := []
  /-- The written entries of `IFA`; an index not listed holds its reset value, invalid and address 0 (R43). -/
  ifa : Store IfEntry := []
  /-- MODEL'S OWN: the implementation parameters, constant over every step (R39; log entry 4). -/
  params : Params := {}
  /-- MODEL'S OWN: how many hardware resets there were, the argument of the free values of R231 (log entry 5). -/
  powerUps : Nat := 0
  /-- MODEL'S OWN: how many `BUILD`s completed, the argument of the free order of equal keys (log entry 7). -/
  builds : Nat := 0
  /-- MODEL'S OWN: the host's actions still to come (R23; log entry 1). -/
  script : List HostAction := []
  /-- MODEL'S OWN: the bus's answer to the latest host access (log entry 2). -/
  resp : Response := .idle
deriving DecidableEq, Repr, Inhabited

/-- The block right after hardware reset (70_reset_and_hazards.md R230): every register 0, CONFIG phase, empty tables,
no interface valid; no byte of RXB or TXB and no table storage written (R231). The parameters are R6's defaults. -/
def State.reset : State := {}

end Sys2Proof.Machine
end

