-- ==== Sys2Proof/Machine/Ops.lean ====
section
/-! DEFINITION. Operations over the block's arrays and registers that several commands share: reads and writes of
bytes and table entries (00_scope.md R10), the refusal of a command (60_exceptions.md R211) and its
acknowledgement (R216), and the two resets (70_reset_and_hazards.md R230, R231; 44_system.md R201). -/

namespace Sys2Proof.Machine

/-- The value listed for index `a`. -/
def Store.get? {α : Type} (m : Store α) (a : Nat) : Option α :=
  match m with
  | [] => none
  | (k, v) :: t => if a = k then some v else Store.get? t a

/-- Write index `a`, keeping the canonical form. -/
def Store.put {α : Type} (m : Store α) (a : Nat) (v : α) : Store α :=
  match m with
  | [] => [(a, v)]
  | (k, w) :: t =>
    if a < k then (a, v) :: (k, w) :: t
    else if a = k then (a, v) :: t
    else (k, w) :: Store.put t a v

/-- Write the values `l` to the indices `a`, `a+1`, … in order. -/
def Store.putMany {α : Type} (m : Store α) (a : Nat) (l : List α) : Store α :=
  match l with
  | [] => m
  | v :: t => Store.putMany (Store.put m a v) (a + 1) t

/-- The values `l` at the indices from `a` upward. -/
def Store.fromIndex {α : Type} (a : Nat) : List α → Store α
  | [] => []
  | v :: t => (a, v) :: Store.fromIndex (a + 1) t

/-- Write `l` over the indices 0 to `l.length - 1` and keep the rest. -/
def Store.replaceFront {α : Type} (m : Store α) (l : List α) : Store α :=
  Store.fromIndex 0 l ++ m.filter (fun c => decide (l.length ≤ c.1))

/-- The canonical form: indices strictly rising. -/
def Store.wf {α : Type} : Store α → Bool
  | [] => true
  | [_] => true
  | (a, _) :: (b, v) :: t => decide (a < b) && Store.wf ((b, v) :: t)

/-- The canonical form of a frame buffer. What an index that is not listed reads as is no listed value (log entry 5), so no
listed byte can equal it and the form asks for strictly rising indices alone. -/
abbrev Memory.wf (m : Memory) : Bool := Store.wf m

/-- The buffer that `b` selects. -/
def State.buf (s : State) : Buf → Memory
  | .rx => s.rxb
  | .tx => s.txb

/-- Replace the contents of buffer `b`. -/
def State.setBuf (s : State) (b : Buf) (m : Memory) : State :=
  match b with
  | .rx => { s with rxb := m }
  | .tx => { s with txb := m }

/-- `B[i]`, read (00_scope.md R10). A byte not written since hardware reset is any value
(70_reset_and_hazards.md R231). -/
def State.byte (s : State) (b : Buf) (i : Nat) : Byte :=
  (Store.get? (s.buf b) i).getD (Config.powerUpByte s.powerUps b i)

/-- `B[i] <- v` (00_scope.md R10). -/
def State.writeByte (s : State) (b : Buf) (i : Nat) (v : Byte) : State :=
  s.setBuf b (Store.put (s.buf b) i v)

/-- Write the bytes `l` to `B[a]`, `B[a+1]`, … in order. -/
def State.writeBytes (s : State) (b : Buf) (a : Nat) (l : List Byte) : State :=
  s.setBuf b (Store.putMany (s.buf b) a l)

/-- `B[i] <- 0` for every `i` below `FB_SIZE` (42_codec.md R158, R167). -/
def State.clearBuf (s : State) (b : Buf) : State :=
  s.setBuf b (Store.replaceFront (s.buf b) (List.replicate s.params.fbSize 0))

/-- The bytes `B[a]` to `B[a+n-1]`. -/
def State.bytes (s : State) (b : Buf) (a n : Nat) : List Byte :=
  (List.range n).map (fun k => s.byte b (a + k))

/-- The big-endian number of a list of bytes, the first byte the most significant (00_scope.md R9). -/
def bigEndian (l : List Byte) : Nat := l.foldl (fun acc v => acc * 256 + v.toNat) 0

/-- `MemRead(B:a, n)`, the `n`-byte big-endian value (00_scope.md R10), for the `n` of at most 4 that fit a register. -/
def State.memRead (s : State) (b : Buf) (a n : Nat) : Word := BitVec.ofNat 32 (bigEndian (s.bytes b a n))

/-- Byte `k` of the `n`-byte big-endian form of `v`: `v[8*(n-1-k)+7 : 8*(n-1-k)]` (00_scope.md R10). -/
def beBytes (n : Nat) (v : Word) : List Byte :=
  (List.range n).map (fun k => v.extractLsb' (8 * (n - 1 - k)) 8)

/-- `MemWrite(B:a, n, v)` (00_scope.md R10). -/
def State.memWrite (s : State) (b : Buf) (a n : Nat) (v : Word) : State := s.writeBytes b a (beBytes n v)

/-- `RT[i]`, read (10_state.md R41); storage not written since hardware reset is any value
(70_reset_and_hazards.md R231). -/
def State.route (s : State) (i : Nat) : RouteEntry := (Store.get? s.rt i).getD (Config.powerUpRoute s.powerUps i)

/-- `AT[i]`, read (10_state.md R42); storage not written since hardware reset is any value
(70_reset_and_hazards.md R231). -/
def State.arp (s : State) (i : Nat) : ArpEntry := (Store.get? s.arpt i).getD (Config.powerUpArp s.powerUps i)

/-- The reset value of an interface entry (10_state.md R43). -/
def ifReset : IfEntry := { addr := 0, valid := false }

/-- `IFA[i]`, read (10_state.md R43). -/
def State.iface (s : State) (i : Nat) : IfEntry := (Store.get? s.ifa i).getD ifReset

/-- The entries `RT[0]` to `RT[RT_LEN - 1]` (10_state.md R41). -/
def State.routes (s : State) : List RouteEntry := (List.range s.rtLen.toNat).map s.route

/-- The refusal codes (60_exceptions.md R212). -/
inductive RefuseCode where
  | illegal
  | range
  | phase
  | full
deriving DecidableEq, Repr

/-- `ERR_CODE` of a refusal (60_exceptions.md R212). -/
def refuseNumber : RefuseCode → Byte
  | .illegal => 1
  | .range => 2
  | .phase => 3
  | .full => 4

/-- `raise Refuse(code)` for the command word `w`: TAKING THE EXCEPTION (60_exceptions.md R211). Nothing else changes;
no context is saved and no control moves, since the block executes no program (R210). -/
def refuse (w : Word) (code : RefuseCode) (s : State) : State :=
  { s with errs := true, errCode := refuseNumber code, errCmd := w }

/-- THE RETURN FROM IT: the host writes 1 to `STATUS` bit 1 (60_exceptions.md R216). -/
def acknowledge (s : State) : State := { s with errs := false, errCode := 0, errCmd := 0 }

/-- The register part of reset: every register of 10_state.md R25 and every IFA entry as after hardware reset; the arrays
RXB, TXB, RT and AT and the model's own fields keep their values (44_system.md R201). -/
def clearRegisters (s : State) : State :=
  { State.reset with
    rxb := s.rxb, txb := s.txb, rt := s.rt, arpt := s.arpt,
    params := s.params, powerUps := s.powerUps, builds := s.builds, script := s.script, resp := s.resp }

/-- Hardware reset in any state (70_reset_and_hazards.md R230 to R232): registers and IFA cleared, and the contents of
RXB, TXB, RT and AT any value again, namely the free values of the next power-up. -/
def hardwareReset (s : State) : State :=
  { clearRegisters s with
    rxb := [], txb := [], rt := [], arpt := [], powerUps := s.powerUps + 1, resp := .idle }

end Sys2Proof.Machine
end

