-- ==== Sys2Proof/Machine/Flags.lean ====
section
/-! DEFINITION. The flags (10_state.md R24): how they are computed and the word `STATUS` they make. -/

namespace Sys2Proof.Machine

/-- `CS_ZERO`: the result is `0x0000` (40_checksum.md R106). -/
def zeroFlag (r : Half) : Bool := decide (r = 0)

/-- `CS_ODD`: bit 0 of the start offset (40_checksum.md R106). -/
def oddFlag (off : Nat) : Bool := decide (off % 2 = 1)

/-- `IF_HIT`'s condition: some valid interface entry has address `d` (43_forward.md R180 step 5, R187). -/
def localFlag (s : State) (d : Word) : Bool :=
  (List.range s.params.nIf).any (fun i => (s.iface i).valid && decide ((s.iface i).addr = d))

/-- The weight of flag bit `n` in `STATUS`. -/
def flagBit (f : Bool) (n : Nat) : Nat := if f then 2 ^ n else 0

/-- `STATUS` as the host reads it; bits 31:9 are 0 (10_state.md R24). -/
def statusWord (s : State) : Word :=
  BitVec.ofNat 32
    (flagBit s.built 0 + flagBit s.errs 1 + flagBit s.csZero 2 + flagBit s.csOdd 3 + flagBit s.lpmHit 4 +
      flagBit s.arpHit 5 + flagBit s.ifHit 6 + flagBit s.outValid 7 + flagBit s.outSel 8)

end Sys2Proof.Machine
end

