-- ==== Sys2Proof/Machine/Operands.lean ====
section
/-! DEFINITION. Operand forms: the header fields of `RDF` and `WRF` (42_codec.md R150, R153, R154) and the register map of
the host (10_state.md R25). -/

namespace Sys2Proof.Machine

/-- The fields of the Ethernet, IPv4 and ICMP headers (42_codec.md R150). -/
inductive Field where
  | ethDst | ethSrc | ethType
  | ipVer | ipIhl | ipTos | ipLen | ipId | ipFrag | ipTtl | ipProto | ipCsum | ipSrc | ipDst
  | icmpType | icmpCode | icmpCsum | icmpId | icmpSeq
deriving DecidableEq, Repr

/-- The field with id `f`; ids 19 to 31 are no field (42_codec.md R150). -/
def fieldOfId : Nat → Option Field
  | 0 => some .ethDst
  | 1 => some .ethSrc
  | 2 => some .ethType
  | 3 => some .ipVer
  | 4 => some .ipIhl
  | 5 => some .ipTos
  | 6 => some .ipLen
  | 7 => some .ipId
  | 8 => some .ipFrag
  | 9 => some .ipTtl
  | 10 => some .ipProto
  | 11 => some .ipCsum
  | 12 => some .ipSrc
  | 13 => some .ipDst
  | 14 => some .icmpType
  | 15 => some .icmpCode
  | 16 => some .icmpCsum
  | 17 => some .icmpId
  | 18 => some .icmpSeq
  | _ => none

/-- Byte offset of a field (42_codec.md R150). -/
def fieldOffset : Field → Nat
  | .ethDst => 0
  | .ethSrc => 6
  | .ethType => 12
  | .ipVer => 14
  | .ipIhl => 14
  | .ipTos => 15
  | .ipLen => 16
  | .ipId => 18
  | .ipFrag => 20
  | .ipTtl => 22
  | .ipProto => 23
  | .ipCsum => 24
  | .ipSrc => 26
  | .ipDst => 30
  | .icmpType => 34
  | .icmpCode => 35
  | .icmpCsum => 36
  | .icmpId => 38
  | .icmpSeq => 40

/-- Number of bytes a field lies in: its width, and 1 for the two 4-bit fields (42_codec.md R150). -/
def fieldBytes : Field → Nat
  | .ethDst => 6
  | .ethSrc => 6
  | .ethType => 2
  | .ipVer => 1
  | .ipIhl => 1
  | .ipTos => 1
  | .ipLen => 2
  | .ipId => 2
  | .ipFrag => 2
  | .ipTtl => 1
  | .ipProto => 1
  | .ipCsum => 2
  | .ipSrc => 4
  | .ipDst => 4
  | .icmpType => 1
  | .icmpCode => 1
  | .icmpCsum => 2
  | .icmpId => 2
  | .icmpSeq => 2

/-- A MAC field: four bytes to `DR0`, two to `DR1[31:16]`, zero to `DR1[15:0]` (42_codec.md R153, fields 0 and 1). -/
def readMac (b : Buf) (off : Nat) (s : State) : State :=
  { s with dr0 := s.memRead b off 4, dr1 := s.memRead b (off + 4) 2 <<< 16 }

/-- The case distinction of `RDF` (42_codec.md R153). -/
def readField (b : Buf) (f : Field) (s : State) : State :=
  match f with
  | .ethDst => readMac b (fieldOffset .ethDst) s
  | .ethSrc => readMac b (fieldOffset .ethSrc) s
  | .ipVer => { s with dr0 := ((s.byte b 14).extractLsb' 4 4).setWidth 32 }
  | .ipIhl => { s with dr0 := ((s.byte b 14).extractLsb' 0 4).setWidth 32 }
  | f => { s with dr0 := s.memRead b (fieldOffset f) (fieldBytes f) }

/-- A MAC field: four bytes from `DR0`, two from `DR1[31:16]` (42_codec.md R154, fields 0 and 1). -/
def writeMac (b : Buf) (off : Nat) (s : State) : State :=
  (s.memWrite b off 4 s.dr0).memWrite b (off + 4) 2 (s.dr1 >>> 16)

/-- The case distinction of `WRF` (42_codec.md R154). -/
def writeField (b : Buf) (f : Field) (s : State) : State :=
  match f with
  | .ethDst => writeMac b (fieldOffset .ethDst) s
  | .ethSrc => writeMac b (fieldOffset .ethSrc) s
  | .ipVer => s.writeByte b 14 (s.dr0.extractLsb' 0 4 ++ (s.byte b 14).extractLsb' 0 4)
  | .ipIhl => s.writeByte b 14 ((s.byte b 14).extractLsb' 4 4 ++ s.dr0.extractLsb' 0 4)
  | f => s.memWrite b (fieldOffset f) (fieldBytes f) s.dr0

/-- The registers of the register space (10_state.md R25). -/
inductive Reg where
  | cmd | status | err | errcmd
  | dr0 | dr1 | dr2 | dr3
  | rxLen | rxIf | txLen | txIf
  | rtLen | atLen
  | csRes | csFold | csAccLo | csAccHi
  | lpmIdx | lpmPrefix | lpmMask | lpmNhop | lpmEif
  | arpIdx | arpIp | arpMacHi | arpMacLo
  | disp | outLen | outIf
deriving DecidableEq, Repr

/-- The register at a byte offset; 0x78 to 0xFC are reserved (10_state.md R25). -/
def regAt : Nat → Option Reg
  | 0x00 => some .cmd
  | 0x04 => some .status
  | 0x08 => some .err
  | 0x0C => some .errcmd
  | 0x10 => some .dr0
  | 0x14 => some .dr1
  | 0x18 => some .dr2
  | 0x1C => some .dr3
  | 0x20 => some .rxLen
  | 0x24 => some .rxIf
  | 0x28 => some .txLen
  | 0x2C => some .txIf
  | 0x30 => some .rtLen
  | 0x34 => some .atLen
  | 0x38 => some .csRes
  | 0x3C => some .csFold
  | 0x40 => some .csAccLo
  | 0x44 => some .csAccHi
  | 0x48 => some .lpmIdx
  | 0x4C => some .lpmPrefix
  | 0x50 => some .lpmMask
  | 0x54 => some .lpmNhop
  | 0x58 => some .lpmEif
  | 0x5C => some .arpIdx
  | 0x60 => some .arpIp
  | 0x64 => some .arpMacHi
  | 0x68 => some .arpMacLo
  | 0x6C => some .disp
  | 0x70 => some .outLen
  | 0x74 => some .outIf
  | _ => none

/-- The value a host read of a register returns; bits a register does not have read as 0 (10_state.md R25;
20_memory.md R62). -/
def readReg (s : State) : Reg → Word
  | .cmd => 0
  | .status => statusWord s
  | .err => s.errCode.setWidth 32
  | .errcmd => s.errCmd
  | .dr0 => s.dr0
  | .dr1 => s.dr1
  | .dr2 => s.dr2
  | .dr3 => s.dr3
  | .rxLen => s.rxLen.setWidth 32
  | .rxIf => s.rxIf.setWidth 32
  | .txLen => s.txLen.setWidth 32
  | .txIf => s.txIf.setWidth 32
  | .rtLen => s.rtLen
  | .atLen => s.atLen
  | .csRes => s.csRes.setWidth 32
  | .csFold => s.csFold.setWidth 32
  | .csAccLo => s.csAcc.extractLsb' 0 32
  | .csAccHi => s.csAcc.extractLsb' 32 32
  | .lpmIdx => s.lpmIdx
  | .lpmPrefix => s.lpmPfx
  | .lpmMask => s.lpmMask
  | .lpmNhop => s.lpmNhop
  | .lpmEif => s.lpmEif.setWidth 32
  | .arpIdx => s.arpIdx
  | .arpIp => s.arpIp
  | .arpMacHi => s.arpMacHi
  | .arpMacLo => s.arpMacLo ++ 0#16
  | .disp => s.disp.setWidth 32
  | .outLen => s.outLen.setWidth 32
  | .outIf => s.outIf.setWidth 32

/-- A host write to a register other than `CMD`: RW registers store the bits they have, `STATUS` is write-1-to-clear on
bit 1, every other register ignores it (10_state.md R25, R27; 20_memory.md R62; 60_exceptions.md R216). -/
def writeReg (s : State) (r : Reg) (v : Word) : State :=
  match r with
  | .status => if v.getLsbD 1 then acknowledge s else s
  | .dr0 => { s with dr0 := v }
  | .dr1 => { s with dr1 := v }
  | .dr2 => { s with dr2 := v }
  | .dr3 => { s with dr3 := v }
  | .rxLen => { s with rxLen := v.setWidth 16 }
  | .rxIf => { s with rxIf := v.setWidth 16 }
  | .txLen => { s with txLen := v.setWidth 16 }
  | .txIf => { s with txIf := v.setWidth 16 }
  | .cmd | .err | .errcmd | .rtLen | .atLen | .csRes | .csFold | .csAccLo | .csAccHi => s
  | .lpmIdx | .lpmPrefix | .lpmMask | .lpmNhop | .lpmEif | .arpIdx | .arpIp | .arpMacHi | .arpMacLo => s
  | .disp | .outLen | .outIf => s

end Sys2Proof.Machine
end

