-- ==== Sys2Proof/Machine/Checksum.lean ====
section
/-! DEFINITION. The checksum engine CSE and the command `CSUM` (40_checksum.md). -/

namespace Sys2Proof.Machine

/-- The 32-bit word that holds the `c` bytes from index `a` in the lanes from `lane` upward, zero elsewhere; lane `l` is
bits `8*(3-l)+7` to `8*(3-l)` (40_checksum.md R101, R103, R105). The lanes are disjoint, so the rule's `|` is a sum. -/
def laneWord (rd : Nat → Byte) (a lane : Nat) : Nat → Nat
  | 0 => 0
  | c + 1 => laneWord rd a lane c + (rd (a + c)).toNat * 2 ^ (8 * (3 - (lane + c)))

/-- The sum of the `n` full words that start at index `a` (40_checksum.md R104). -/
def wordSum (rd : Nat → Byte) (a : Nat) : Nat → Nat
  | 0 => 0
  | n + 1 => wordSum rd a n + laneWord rd (a + 4 * n) 0 4

/-- The number of head bytes: `min(4 - o, len)` when `o = off mod 4` is not 0 (40_checksum.md R101). -/
def headCount (off len : Nat) : Nat := if off % 4 = 0 then 0 else min (4 - off % 4) len

/-- The accumulator after head, body and tail (40_checksum.md R101 to R105), as an unbounded number, which R111
allows since it stays below `2^43`. -/
def accumulate (rd : Nat → Byte) (seed off len : Nat) : Nat :=
  let c := headCount off len
  let n := len - c
  seed + laneWord rd off (off % 4) c + wordSum rd (off + c) (n / 4) + laneWord rd (off + c + 4 * (n / 4)) 0 (n % 4)

/-- `Fold16(x)`: 0 for 0, else `((x - 1) mod 65535) + 1` (40_checksum.md R108). -/
def fold16 (x : Nat) : Nat := if x = 0 then 0 else (x - 1) % 65535 + 1

/-- `bswap16(v) = {v[7:0], v[15:8]}` (00_scope.md R10). -/
def bswap16 (v : Half) : Half := v.extractLsb' 0 8 ++ v.extractLsb' 8 8

/-- Fold, swap at an odd start, complement (40_checksum.md R106 steps 2 to 5). -/
def finish (acc off : Nat) : Half :=
  let f : Half := BitVec.ofNat 16 (fold16 acc)
  ~~~ (if oddFlag off then bswap16 f else f)

/-- What `Checksum(B, off, len)` returns in state `s` (40_checksum.md R101). -/
def checksumOf (s : State) (b : Buf) (off len : Nat) : Half :=
  finish (accumulate (s.byte b) s.params.csumSeed.toNat off len) off

/-- `Checksum(B, off, len)`: latch the six checksum results (40_checksum.md R101, R106); the returned value is the
new `CS_RES`. -/
def runChecksum (b : Buf) (off len : Nat) (s : State) : State :=
  let acc := accumulate (s.byte b) s.params.csumSeed.toNat off len
  { s with
    csAcc := BitVec.ofNat 64 acc
    csFold := BitVec.ofNat 16 (fold16 acc)
    csOdd := oddFlag off
    csRes := checksumOf s b off len
    csZero := zeroFlag (checksumOf s b off len) }

/-- Zero the 2-byte checksum field at `fld`, compute `Checksum(B, off, len)`, store the result in the field: the
zero-then-recompute step of `IPCS`, `ICMPCS`, `MKREPLY` and `FWD` (42_codec.md R160, R161, R167; 43_forward.md R188). -/
def refreshChecksum (b : Buf) (fld off len : Nat) (s : State) : State :=
  let s' := runChecksum b off len (s.memWrite b fld 2 0)
  s'.memWrite b fld 2 (s'.csRes.setWidth 32)

/-- `CSUM s, off, len` (40_checksum.md R110). -/
def execCsum (b : Buf) (off len : Nat) (s : State) : Host.Outcome State Fault Refusal :=
  if s.params.fbSize < off + len then .next (refuse (encode (.csum b off len)) .range s)
  else .next (runChecksum b off len s)

end Sys2Proof.Machine
end

