-- ==== Sys2Proof/Machine/Codec.lean ====
section
/-! DEFINITION. The frame codec and reply builder FCD: `RDF`, `WRF`, `BUFCLR`, `IPCS`, `ICMPCS`, `MKREPLY` (42_codec.md). -/

namespace Sys2Proof.Machine

/-- `RDF s, f` (42_codec.md R153). -/
def execRdf (b : Buf) (f : Nat) (s : State) : Host.Outcome State Fault Refusal :=
  match fieldOfId f with
  | none => .next (refuse (encode (.rdf b f)) .range s)
  | some fld => .next (readField b fld s)

/-- `WRF s, f` (42_codec.md R154). -/
def execWrf (b : Buf) (f : Nat) (s : State) : Host.Outcome State Fault Refusal :=
  match fieldOfId f with
  | none => .next (refuse (encode (.wrf b f)) .range s)
  | some fld => .next (writeField b fld s)

/-- `BUFCLR s` (42_codec.md R158). -/
def execBufclr (b : Buf) (s : State) : Host.Outcome State Fault Refusal := .next (s.clearBuf b)

/-- Recompute the IPv4 header checksum: field at 24, range (14, 20) (42_codec.md R160; 40_checksum.md R114). -/
def refreshIpChecksum (b : Buf) (s : State) : State := refreshChecksum b 24 Config.ethHlen Config.ipHlen s

/-- Recompute the ICMP header checksum: field at 36, range (34, 8) (42_codec.md R161; 40_checksum.md R114). -/
def refreshIcmpChecksum (b : Buf) (s : State) : State :=
  refreshChecksum b 36 (Config.ethHlen + Config.ipHlen) Config.icmpHlen s

/-- `IPCS s` (42_codec.md R160). -/
def execIpcs (b : Buf) (s : State) : Host.Outcome State Fault Refusal := .next (refreshIpChecksum b s)

/-- `ICMPCS s` (42_codec.md R161). -/
def execIcmpcs (b : Buf) (s : State) : Host.Outcome State Fault Refusal := .next (refreshIcmpChecksum b s)

/-- The Ethernet header of the reply: addresses swapped, ethertype IPv4 (42_codec.md R167). -/
def replyEthernet (s : State) : State :=
  ((s.writeBytes .tx 0 (s.bytes .rx 6 6)).writeBytes .tx 6 (s.bytes .rx 0 6)).memWrite .tx 12 2 Config.ethertypeIpv4

/-- Bytes 14 to 23 of the reply, and the swapped IP addresses at 26 and 30 (42_codec.md R167). -/
def replyIpv4 (s : State) : State :=
  let s1 := (s.writeByte .tx 14 0x45).writeByte .tx 15 0x00
  let s2 := s1.memWrite .tx 16 2 (BitVec.ofNat 32 (Config.ipHlen + Config.icmpHlen))
  let s3 := (s2.writeBytes .tx 18 (s.bytes .rx 18 2)).memWrite .tx 20 2 0x0000
  let s4 := (s3.writeByte .tx 22 s.params.replyTtl).writeByte .tx 23 Config.ipprotoIcmp
  (s4.writeBytes .tx 26 (s.bytes .rx 30 4)).writeBytes .tx 30 (s.bytes .rx 26 4)

/-- The ICMP type, code and echo identifier of the reply (42_codec.md R167). -/
def replyIcmp (t : Byte) (s : State) : State :=
  ((s.writeByte .tx 34 t).writeByte .tx 35 0x00).writeBytes .tx 38 (s.bytes .rx 38 2)

/-- `MakeReply(t)` (42_codec.md R167). -/
def makeReply (t : Byte) (s : State) : State :=
  let s1 := replyIpv4 (replyEthernet (s.clearBuf .tx))
  let s2 := refreshIpChecksum .tx s1
  let s3 := refreshIcmpChecksum .tx (replyIcmp t s2)
  { s3 with txLen := BitVec.ofNat 16 (Config.ethHlen + Config.ipHlen + Config.icmpHlen), txIf := s.rxIf }

/-- `MKREPLY t` (42_codec.md R166). -/
def execMkreply (t : Byte) (s : State) : Host.Outcome State Fault Refusal := .next (makeReply t s)

end Sys2Proof.Machine
end

