-- ==== Sys2Proof/Machine/Tables.lean ====
section
/-! DEFINITION. The routing table LPM, the ARP table ARU and the interface address table: their nine commands
(41_lpm.md). -/

namespace Sys2Proof.Machine

/-- `RTLOAD` (41_lpm.md R121). -/
def execRtload (s : State) : Host.Outcome State Fault Refusal :=
  if s.built then .next (refuse (encode .rtload) .phase s)
  else if s.rtLen.toNat = s.params.rtCap then .next (refuse (encode .rtload) .full s)
  else .next
    { s with
      rt := Store.put s.rt s.rtLen.toNat
        { pfx := s.dr0 &&& s.dr1, mask := s.dr1, nextHop := s.dr2, egressIf := s.dr3.extractLsb' 0 16 }
      rtLen := s.rtLen + 1 }

/-- The MAC address in a pair of registers `HI`, `LO` (00_scope.md R12; 41_lpm.md R122). -/
def macOfRegs (hi lo : Word) : Mac :=
  { m0 := hi.extractLsb' 24 8, m1 := hi.extractLsb' 16 8, m2 := hi.extractLsb' 8 8, m3 := hi.extractLsb' 0 8
    m4 := lo.extractLsb' 24 8, m5 := lo.extractLsb' 16 8 }

/-- `ATLOAD` (41_lpm.md R122). -/
def execAtload (s : State) : Host.Outcome State Fault Refusal :=
  if s.built then .next (refuse (encode .atload) .phase s)
  else if s.atLen.toNat = s.params.atCap then .next (refuse (encode .atload) .full s)
  else .next
    { s with
      arpt := Store.put s.arpt s.atLen.toNat { ip := s.dr0, mac := macOfRegs s.dr1 s.dr2 }
      atLen := s.atLen + 1 }

/-- `IFLOAD id` (41_lpm.md R123). -/
def execIfload (id : Nat) (s : State) : Host.Outcome State Fault Refusal :=
  if s.built then .next (refuse (encode (.ifload id)) .phase s)
  else if s.params.nIf ≤ id then .next (refuse (encode (.ifload id)) .range s)
  else .next { s with ifa := Store.put s.ifa id { addr := s.dr0, valid := true } }

/-- `RTREAD` (41_lpm.md R124). -/
def execRtread (s : State) : Host.Outcome State Fault Refusal :=
  if s.rtLen ≤ s.dr0 then .next (refuse (encode .rtread) .range s)
  else
    let e := s.route s.dr0.toNat
    .next { s with dr0 := e.pfx, dr1 := e.mask, dr2 := e.nextHop, dr3 := e.egressIf.setWidth 32 }

/-- `ATREAD` (41_lpm.md R125). -/
def execAtread (s : State) : Host.Outcome State Fault Refusal :=
  if s.atLen ≤ s.dr0 then .next (refuse (encode .atread) .range s)
  else
    let e := s.arp s.dr0.toNat
    .next { s with dr0 := e.ip, dr1 := e.mac.hi, dr2 := e.mac.lo ++ 0#16 }

/-- `IFREAD id` (41_lpm.md R126). -/
def execIfread (id : Nat) (s : State) : Host.Outcome State Fault Refusal :=
  if s.params.nIf ≤ id then .next (refuse (encode (.ifread id)) .range s)
  else
    let e := s.iface id
    .next { s with dr0 := e.addr, dr1 := if e.valid then 1 else 0 }

/-- `Key(x) <= Key(y)` on (prefix, mask), each part compared unsigned (41_lpm.md R128). -/
def keyLe (x y : RouteEntry) : Bool :=
  decide (x.pfx < y.pfx) || (decide (x.pfx = y.pfx) && decide (x.mask ≤ y.mask))

/-- The order `BUILD` sorts ranked entries by: the key of R128 and, between equal keys, the free rank (41_lpm.md R129;
log entry 7). -/
def rankedLe (x y : RouteEntry × Nat) : Bool :=
  if x.1.pfx = y.1.pfx ∧ x.1.mask = y.1.mask then decide (x.2 ≤ y.2) else keyLe x.1 y.1

/-- Insert into a sorted list. -/
def insertRanked (x : RouteEntry × Nat) : List (RouteEntry × Nat) → List (RouteEntry × Nat)
  | [] => [x]
  | y :: t => if rankedLe x y then x :: y :: t else y :: insertRanked x t

/-- Sort by `rankedLe`. -/
def sortRanked : List (RouteEntry × Nat) → List (RouteEntry × Nat)
  | [] => []
  | x :: t => insertRanked x (sortRanked t)

/-- The list is sorted by key. -/
def sortedByKey : List RouteEntry → Bool
  | [] => true
  | [_] => true
  | x :: y :: t => keyLe x y && sortedByKey (y :: t)

/-- `SortByKey` (41_lpm.md R128): the list `l` sorted by key, entries of equal key in the order of their free ranks in the
`n`-th build (R129); an already sorted list is left as it is (R127). -/
def sortByKey (n : Nat) (l : List RouteEntry) : List RouteEntry :=
  if sortedByKey l then l
  else (sortRanked (l.zip ((List.range l.length).map (Config.tieRank n)))).map Prod.fst

/-- `BUILD` (41_lpm.md R127). -/
def execBuild (s : State) : Host.Outcome State Fault Refusal :=
  if s.built then .next (refuse (encode .build) .phase s)
  else .next
    { s with
      rt := Store.replaceFront s.rt (sortByKey s.builds s.routes)
      built := true
      builds := s.builds + 1 }

/-- The binary search of `Lookup` (41_lpm.md R131) in the interval from `lo` to `hi - 1`: `hi` is one more than the
rule's `hi`, so that it stays a natural number, and `fuel` bounds the number of probes (R137). -/
def probe (rt : Nat → RouteEntry) (d : Word) : Nat → Nat → Nat → Option Nat
  | 0, _, _ => none
  | fuel + 1, lo, hi =>
    if hi ≤ lo then none
    else
      let mid := lo + (hi - 1 - lo) / 2
      let k := d &&& (rt mid).mask
      if k = (rt mid).pfx then some mid
      else if k < (rt mid).pfx then probe rt d fuel lo mid
      else probe rt d fuel (mid + 1) hi

/-- The forward scan of `Lookup` (41_lpm.md R131): from index `i`, while the next entry exists below `len` and has the
prefix `p`, move to it and keep it as the best when it matches; `fuel` bounds the number of moves (R137). -/
def scanRun (rt : Nat → RouteEntry) (len : Nat) (d p : Word) : Nat → Nat → Nat → Nat
  | 0, _, best => best
  | fuel + 1, i, best =>
    if i + 1 < len ∧ (rt (i + 1)).pfx = p then
      scanRun rt len d p fuel (i + 1) (if d &&& (rt (i + 1)).mask = (rt (i + 1)).pfx then i + 1 else best)
    else best

/-- `Lookup(d)` in a table of `len` entries (41_lpm.md R131). -/
def lookupIn (rt : Nat → RouteEntry) (len : Nat) (d : Word) : Option Nat :=
  match probe rt d len 0 len with
  | none => none
  | some found => some (scanRun rt len d (rt found).pfx len found found)

/-- `Lookup(d)` in the block's routing table (41_lpm.md R131). -/
def lookup (s : State) (d : Word) : Option Nat := lookupIn s.route s.rtLen.toNat d

/-- `WriteLpmResult(r)` (41_lpm.md R132). -/
def writeLpmResult (r : Option Nat) (s : State) : State :=
  match r with
  | some i =>
    { s with
      lpmHit := true, lpmIdx := BitVec.ofNat 32 i, lpmPfx := (s.route i).pfx, lpmMask := (s.route i).mask
      lpmNhop := (s.route i).nextHop, lpmEif := (s.route i).egressIf }
  | none => { s with lpmHit := false, lpmIdx := 0, lpmPfx := 0, lpmMask := 0, lpmNhop := 0, lpmEif := 0 }

/-- `RTLOOKUP` (41_lpm.md R130). -/
def execRtlookup (s : State) : Host.Outcome State Fault Refusal :=
  if s.built then .next (writeLpmResult (lookup s s.dr0) s)
  else .next (refuse (encode .rtlookup) .phase s)

/-- `ArpLookup(a)`: upward from index 0, the first entry with that address (41_lpm.md R135). -/
def arpLookup (s : State) (a : Word) : Option Nat :=
  (List.range s.atLen.toNat).find? (fun i => decide ((s.arp i).ip = a))

/-- `WriteArpResult(r)` (41_lpm.md R136). -/
def writeArpResult (r : Option Nat) (s : State) : State :=
  match r with
  | some i =>
    { s with
      arpHit := true, arpIdx := BitVec.ofNat 32 i, arpIp := (s.arp i).ip
      arpMacHi := (s.arp i).mac.hi, arpMacLo := (s.arp i).mac.lo }
  | none => { s with arpHit := false, arpIdx := 0, arpIp := 0, arpMacHi := 0, arpMacLo := 0 }

/-- `ARPLOOKUP` (41_lpm.md R134). -/
def execArplookup (s : State) : Host.Outcome State Fault Refusal :=
  if s.built then .next (writeArpResult (arpLookup s s.dr0) s)
  else .next (refuse (encode .arplookup) .phase s)

end Sys2Proof.Machine
end

