-- ==== Sys2Proof/Machine/Forward.lean ====
section
/-! DEFINITION. The forwarding decision sequencer FDE and the command `FWD` (43_forward.md). -/

namespace Sys2Proof.Machine

/-- The dispositions of a frame (10_state.md R46); code 6 is reserved and never produced (90_conflicts.md C2). -/
inductive Disposition where
  | none
  | forwarded
  | echoReplied
  | timeExceededSent
  | destUnreachSent
  | droppedChecksum
  | droppedNoArp
deriving DecidableEq, Repr

/-- The code of a disposition in `DISP` (10_state.md R46). -/
def dispCode : Disposition → BitVec 4
  | .none => 0
  | .forwarded => 1
  | .echoReplied => 2
  | .timeExceededSent => 3
  | .destUnreachSent => 4
  | .droppedChecksum => 5
  | .droppedNoArp => 7

/-- The start of `FWD`: everything it reports is cleared (43_forward.md R181). -/
def fwdStart (s : State) : State :=
  { writeArpResult none (writeLpmResult none s) with
    disp := dispCode .none, outValid := false, outSel := false, outLen := 0, outIf := 0, ifHit := false }

/-- The destination address of the inbound datagram, `MemRead(RXB:30, 4)` (43_forward.md R186). -/
def fwdDest (s : State) : Word := s.memRead .rx 30 4

/-- A reply path: `MakeReply(t)`, `OutReply()`, and the disposition (43_forward.md R180, R185 to R187). -/
def fwdReply (t : Byte) (dsp : Disposition) (s : State) : State :=
  let s1 := makeReply t s
  { s1 with outValid := true, outSel := true, outLen := s1.txLen, outIf := s1.txIf, disp := dispCode dsp }

/-- Step 6, first half: TTL decremented and the IPv4 checksum recomputed in place (43_forward.md R188 (1), (2)). -/
def fwdMutate (s : State) : State :=
  refreshIpChecksum .rx (s.writeByte .rx 22 (s.byte .rx 22 - 1))

/-- Step 6: mutate the frame, resolve the destination's MAC, and describe the outbound frame; `r` is the route's index
(43_forward.md R188). -/
def fwdEgress (r : Nat) (s : State) : State :=
  let d := fwdDest s
  let s1 := fwdMutate s
  let a := arpLookup s1 d
  let s2 := writeArpResult a s1
  match a with
  | none => { s2 with disp := dispCode .droppedNoArp }
  | some j =>
    let s3 := s2.writeBytes .rx 0 (s2.arp j).mac.bytes
    { s3 with
      outValid := true, outSel := false, outLen := s3.rxLen, outIf := (s3.route r).egressIf
      disp := dispCode .forwarded }

/-- Steps 4 to 6, for a valid header with TTL at least 2 (43_forward.md R186 to R188). -/
def fwdRoute (s : State) : State :=
  let d := fwdDest s
  let r := lookup s d
  let s1 := writeLpmResult r s
  match r with
  | none => fwdReply Config.icmpDestUnreach .destUnreachSent s1
  | some i =>
    if localFlag s1 d then fwdReply Config.icmpEchoReply .echoReplied { s1 with ifHit := true }
    else fwdEgress i s1

/-- `FWD` in the RUN phase: validate, then TTL, then route (43_forward.md R180, R183, R185). -/
def forward (s : State) : State :=
  let s1 := runChecksum .rx Config.ethHlen Config.ipHlen (fwdStart s)
  if s1.csRes ≠ 0 then { s1 with disp := dispCode .droppedChecksum }
  else if s1.byte .rx 22 ≤ 1 then fwdReply Config.icmpTimeExceeded .timeExceededSent s1
  else fwdRoute s1

/-- `FWD` (43_forward.md R180). -/
def execFwd (s : State) : Host.Outcome State Fault Refusal :=
  if s.built then .next (forward s) else .next (refuse (encode .fwd) .phase s)

end Sys2Proof.Machine
end

