-- ==== Sys2Proof/Machine/System.lean ====
section
/-! DEFINITION. The system commands `NOP` and `SRST` (44_system.md). -/

namespace Sys2Proof.Machine

/-- `NOP`: nothing (44_system.md R200). -/
def execNop (s : State) : Host.Outcome State Fault Refusal := .next s

/-- `SRST`: every register and IFA entry to 0, the arrays kept (44_system.md R201). -/
def execSrst (s : State) : Host.Outcome State Fault Refusal := .next (clearRegisters s)

end Sys2Proof.Machine
end

