-- ==== Sys2Proof/Machine/Dispatch.lean ====
section
/-! DEFINITION. Which meaning each command has: one arm per constructor of `Instr`. -/

namespace Sys2Proof.Machine

/-- The effect of a command. -/
def exec (i : Instr) (s : State) : Host.Outcome State Fault Refusal :=
  match i with
  | .nop => Sys2Proof.Machine.execNop s
  | .srst => Sys2Proof.Machine.execSrst s
  | .rtload => Sys2Proof.Machine.execRtload s
  | .atload => Sys2Proof.Machine.execAtload s
  | .ifload id => Sys2Proof.Machine.execIfload id s
  | .build => Sys2Proof.Machine.execBuild s
  | .rtread => Sys2Proof.Machine.execRtread s
  | .atread => Sys2Proof.Machine.execAtread s
  | .ifread id => Sys2Proof.Machine.execIfread id s
  | .rtlookup => Sys2Proof.Machine.execRtlookup s
  | .arplookup => Sys2Proof.Machine.execArplookup s
  | .csum b off len => Sys2Proof.Machine.execCsum b off len s
  | .rdf b f => Sys2Proof.Machine.execRdf b f s
  | .wrf b f => Sys2Proof.Machine.execWrf b f s
  | .bufclr b => Sys2Proof.Machine.execBufclr b s
  | .ipcs b => Sys2Proof.Machine.execIpcs b s
  | .icmpcs b => Sys2Proof.Machine.execIcmpcs b s
  | .mkreply t => Sys2Proof.Machine.execMkreply t s
  | .fwd => Sys2Proof.Machine.execFwd s

end Sys2Proof.Machine
end

