-- ==== Sys2Proof/Machine/HostBus.lean ====
section
/-! DEFINITION. The host interface: the address map, the accesses and the command register (20_memory.md R61 to R66). -/

namespace Sys2Proof.Machine

/-- What a host access reaches. -/
inductive Target where
  /-- A mapped register. -/
  | reg (r : Reg)
  /-- A reserved register offset, 0x78 to 0xFC: reads 0, ignores writes (10_state.md R25). -/
  | reserved
  /-- Byte `i` of a buffer window. -/
  | window (b : Buf) (i : Nat)
deriving DecidableEq, Repr

/-- The host address map by width and offset; `none` is a bus error (20_memory.md R61 to R64). -/
def target (p : Params) (w : Width) (off : Nat) : Option Target :=
  if off < 0x100 then
    if w = .word ∧ off % 4 = 0 then
      match regAt off with
      | some r => some (.reg r)
      | none => some .reserved
    else none
  else if 0x1000 ≤ off ∧ off < 0x1000 + p.fbSize then
    if w = .byte then some (.window .rx (off - 0x1000)) else none
  else if 0x2000 ≤ off ∧ off < 0x2000 + p.fbSize then
    if w = .byte then some (.window .tx (off - 0x2000)) else none
  else none

/-- The command word `w` reaches the sequencer: an illegal word is refused with `ERR_ILLEGAL` (30_encoding.md R85),
every other is executed as a whole (20_memory.md R66). -/
def issue (w : Word) (s : State) : Host.Outcome State Fault Refusal :=
  match decode w with
  | .ok i => exec i s
  | .error _ => .next (refuse w .illegal s)

/-- Set the bus's answer in the next state of an outcome. -/
def answer (r : Response) : Host.Outcome State Fault Refusal → Host.Outcome State Fault Refusal
  | .next s => .next { s with resp := r }
  | .fault f => .fault f
  | .refused e => .refused e

/-- A host read: returns a value and changes no state of the block (20_memory.md R62, R63). -/
def hostRead (w : Width) (off : Nat) (s : State) : Response :=
  match target s.params w off with
  | none => .busError
  | some (.reg r) => .word (readReg s r)
  | some .reserved => .word 0
  | some (.window b i) => .byte (s.byte b i)

/-- A host write: a command, a register write, an ignored write, a buffer byte, or a bus error
(20_memory.md R62 to R64, R66). A byte write carries its byte in bits 7:0 of `v`. -/
def hostWrite (w : Width) (off : Nat) (v : Word) (s : State) : Host.Outcome State Fault Refusal :=
  match target s.params w off with
  | none => .next { s with resp := .busError }
  | some (.reg .cmd) => answer .ack (issue v s)
  | some (.reg r) => .next { writeReg s r v with resp := .ack }
  | some .reserved => .next { s with resp := .ack }
  | some (.window b i) => .next { s.writeByte b i (v.extractLsb' 0 8) with resp := .ack }

/-- One host action, complete before the next begins (20_memory.md R66; 70_reset_and_hazards.md R232). -/
def perform (a : HostAction) (s : State) : Host.Outcome State Fault Refusal :=
  match a with
  | .read w off => .next { s with resp := hostRead w off s }
  | .write w off v => hostWrite w off v s
  | .reset => .next (hardwareReset s)

end Sys2Proof.Machine
end

