-- ==== Sys2Proof/Machine/Step.lean ====
section
/-! DEFINITION. One step of the machine: the host's next action, or nothing when it has none
(10_state.md R23; 60_exceptions.md R220). -/

namespace Sys2Proof.Machine

/-- Serve the host's next action (log entry 1). Between accesses the state is constant (60_exceptions.md R220), so a
step with no action left changes nothing (log entry 3). -/
def step (s : State) : Host.Outcome State Fault Refusal :=
  match s.script with
  | [] => .next s
  | a :: rest => perform a { s with script := rest }

/-- The host's next action becomes the write of the command word whose low `nbits` bits are `w` to `CMD`, ahead of the
actions it already had: where `step` takes its next instruction from (log entry 1). -/
def State.withFetchWord (s : State) (nbits w : Nat) : State :=
  { s with script := .write .word 0x00 (BitVec.ofNat 32 (w % 2 ^ nbits)) :: s.script }

end Sys2Proof.Machine
end

