-- ==== Sys2Proof/Safety.lean ====
section
/-! DEFINITION. What counts as a safe run, in the terms claims use: the invariants of the block's state. -/

namespace Sys2Proof.Machine

/-- Every index listed in a store is below `n`. -/
abbrev Store.Below {α : Type} (m : Store α) (n : Nat) : Prop := ∀ c ∈ m, c.1 < n

/-- The parameters are legal and both frame buffers are in canonical form inside `FB_SIZE` bytes (00_scope.md R6;
10_state.md R40; 20_memory.md R77). -/
structure MemoryInv (s : State) : Prop where
  legal : s.params.Legal
  rxbWf : Memory.wf s.rxb = true
  txbWf : Memory.wf s.txb = true
  rxbBelow : Store.Below s.rxb s.params.fbSize
  txbBelow : Store.Below s.txb s.params.fbSize

/-- The stored prefix is masked (10_state.md R41: `prefix == prefix & mask`). -/
abbrev Premasked (e : RouteEntry) : Prop := e.pfx &&& e.mask = e.pfx

/-- The tables: canonical storage inside the capacities; lengths within the capacities; the loaded entries stored and
pre-masked; in the RUN phase sorted by key (10_state.md R41 to R43; 41_lpm.md R128; 60_exceptions.md R218). -/
structure TableInv (s : State) : Prop where
  legal : s.params.Legal
  rtWf : Store.wf s.rt = true
  atWf : Store.wf s.arpt = true
  ifaWf : Store.wf s.ifa = true
  rtBelow : Store.Below s.rt s.params.rtCap
  atBelow : Store.Below s.arpt s.params.atCap
  ifaBelow : Store.Below s.ifa s.params.nIf
  rtLen : s.rtLen.toNat ≤ s.params.rtCap
  atLen : s.atLen.toNat ≤ s.params.atCap
  rtStored : ∀ i < s.rtLen.toNat, (Store.get? s.rt i).isSome
  atStored : ∀ i < s.atLen.toNat, (Store.get? s.arpt i).isSome
  premasked : ∀ i < s.rtLen.toNat, Premasked (s.route i)
  sorted : s.built = true → ∀ i j, i < j → j < s.rtLen.toNat → keyLe (s.route i) (s.route j) = true

/-- The error registers: cleared together, and a latched refusal has one of the four codes (10_state.md R26;
60_exceptions.md R211, R212). -/
structure ErrorInv (s : State) : Prop where
  clear : s.errs = false → s.errCode = 0 ∧ s.errCmd = 0
  latched : s.errs = true → ∃ c, s.errCode = refuseNumber c

/-- The result registers: `DISP` is one of the produced codes, and the values of a miss or of an invalid output
descriptor are 0 (10_state.md R46, R47; 41_lpm.md R132, R136). -/
structure ResultInv (s : State) : Prop where
  disp : ∃ d, s.disp = dispCode d
  lpmMiss : s.lpmHit = false →
    s.lpmIdx = 0 ∧ s.lpmPfx = 0 ∧ s.lpmMask = 0 ∧ s.lpmNhop = 0 ∧ s.lpmEif = 0
  arpMiss : s.arpHit = false → s.arpIdx = 0 ∧ s.arpIp = 0 ∧ s.arpMacHi = 0 ∧ s.arpMacLo = 0
  noFrame : s.outValid = false → s.outSel = false ∧ s.outLen = 0 ∧ s.outIf = 0

/-- A step that neither faults nor meets an instruction without a meaning. -/
abbrev Completes (s : State) : Prop := ∃ s', step s = .next s'

end Sys2Proof.Machine
end

