-- ==== Sys2Proof/Certificates/Slice0/Obligations.lean ====
section
/-! DEFINITION. The statements for the provers, each with the words of the rules they are stated in. -/

namespace Sys2Proof.Claims

open Sys2Proof Sys2Proof.Machine

/-- The outcome of a refused command: the three error registers written, nothing else (60_exceptions.md R211). -/
def refusedAs (i : Instr) (code : Nat) (s : State) : Host.Outcome State Fault Refusal :=
  .next { s with errs := true, errCode := BitVec.ofNat 8 code, errCmd := encode i }

/-- Every byte of both buffers reads as before. -/
def SameBytes (s t : State) : Prop := ∀ b k, t.byte b k = s.byte b k

/-- Every byte reads as before, except the `n` bytes of buffer `b` from offset `a`. -/
def KeepsBytesOutside (b : Buf) (a n : Nat) (s t : State) : Prop :=
  ∀ b' k, ¬(b' = b ∧ a ≤ k ∧ k < a + n) → t.byte b' k = s.byte b' k

/-- Nothing but the two buffers' bytes differs. -/
def OnlyBuffers (s t : State) : Prop := t = { s with rxb := t.rxb, txb := t.txb }

/-- Nothing but the checksum registers and the two buffers' bytes differs. -/
def OnlyBuffersAndChecksum (s t : State) : Prop :=
  t = { s with
    rxb := t.rxb, txb := t.txb, csAcc := t.csAcc, csFold := t.csFold, csOdd := t.csOdd, csRes := t.csRes
    csZero := t.csZero }

/-- Nothing but what `FWD` may write differs: buffers, checksum, lookup and output registers, `TX_LEN`, `TX_IF`
(43_forward.md R189). -/
def OnlyForwardState (s t : State) : Prop :=
  t = { s with
    rxb := t.rxb, txb := t.txb, txLen := t.txLen, txIf := t.txIf
    csAcc := t.csAcc, csFold := t.csFold, csOdd := t.csOdd, csRes := t.csRes, csZero := t.csZero
    lpmHit := t.lpmHit, lpmIdx := t.lpmIdx, lpmPfx := t.lpmPfx, lpmMask := t.lpmMask, lpmNhop := t.lpmNhop
    lpmEif := t.lpmEif
    arpHit := t.arpHit, arpIdx := t.arpIdx, arpIp := t.arpIp, arpMacHi := t.arpMacHi, arpMacLo := t.arpMacLo
    ifHit := t.ifHit, outValid := t.outValid, outSel := t.outSel, outLen := t.outLen, outIf := t.outIf
    disp := t.disp }

/-- The two legal values of `CSUM_SEED` (00_scope.md R6). -/
def SeedLegal (s : State) : Prop := s.params.csumSeed = 0x0000 ∨ s.params.csumSeed = 0xFFFF

/-- The match and mask of a command's row (30_encoding.md R82). -/
def opcodeRow : Instr → Word × Word
  | .nop => (0x00000000, 0xFFFFFFFF)
  | .srst => (0x04000000, 0xFFFFFFFF)
  | .rtload => (0x20000000, 0xFFFFFFFF)
  | .atload => (0x24000000, 0xFFFFFFFF)
  | .ifload _ => (0x28000000, 0xFFFFF000)
  | .build => (0x2C000000, 0xFFFFFFFF)
  | .rtread => (0x30000000, 0xFFFFFFFF)
  | .atread => (0x34000000, 0xFFFFFFFF)
  | .ifread _ => (0x38000000, 0xFFFFF000)
  | .rtlookup => (0x40000000, 0xFFFFFFFF)
  | .arplookup => (0x44000000, 0xFFFFFFFF)
  | .csum _ _ _ => (0x60000000, 0xFD000000)
  | .rdf _ _ => (0x80000000, 0xFDFFFFE0)
  | .wrf _ _ => (0x84000000, 0xFDFFFFE0)
  | .bufclr _ => (0x88000000, 0xFDFFFFFF)
  | .ipcs _ => (0x8C000000, 0xFDFFFFFF)
  | .icmpcs _ => (0x90000000, 0xFDFFFFFF)
  | .mkreply _ => (0x94000000, 0xFFFFFF00)
  | .fwd => (0xC0000000, 0xFFFFFFFF)

/-- The buffer that bit 25 of a word selects: 0 is RXB, 1 is TXB (30_encoding.md R80, R83). -/
def bufAt (w : Word) : Buf := if w.toNat / 2 ^ 25 % 2 = 0 then .rx else .tx

/-- The instruction's operands are the unsigned numbers at their places in the word: `s` is bit 25, `off` bits 23:12,
`len` and `id` bits 11:0, `f` bits 4:0, `t` bits 7:0 (30_encoding.md R80, R81, R83). -/
def OperandsAt (w : Word) : Instr → Prop
  | .ifload id => id = w.toNat % 2 ^ 12
  | .ifread id => id = w.toNat % 2 ^ 12
  | .csum b off len => b = bufAt w ∧ off = w.toNat / 2 ^ 12 % 2 ^ 12 ∧ len = w.toNat % 2 ^ 12
  | .rdf b f => b = bufAt w ∧ f = w.toNat % 2 ^ 5
  | .wrf b f => b = bufAt w ∧ f = w.toNat % 2 ^ 5
  | .bufclr b => b = bufAt w
  | .ipcs b => b = bufAt w
  | .icmpcs b => b = bufAt w
  | .mkreply t => t.toNat = w.toNat % 2 ^ 8
  | .nop | .srst | .rtload | .atload | .build | .rtread | .atread | .rtlookup | .arplookup | .fwd => True

/-- The commands allowed only in CONFIG (60_exceptions.md R218). -/
def configOnly : Instr → Bool
  | .rtload => true
  | .atload => true
  | .ifload _ => true
  | .build => true
  | _ => false

/-- The commands allowed only in RUN (60_exceptions.md R218). -/
def runOnly : Instr → Bool
  | .rtlookup => true
  | .arplookup => true
  | .fwd => true
  | _ => false

/-- A command's phase requirement is met (60_exceptions.md R218). -/
def PhaseAllows (i : Instr) (s : State) : Prop :=
  (configOnly i = true → s.built = false) ∧ (runOnly i = true → s.built = true)

/-- `Key(x) <= Key(y)` (41_lpm.md R128). -/
def KeyLE (x y : RouteEntry) : Prop := x.pfx < y.pfx ∨ (x.pfx = y.pfx ∧ x.mask ≤ y.mask)

/-- The entry matches the address (00_scope.md, glossary). -/
def Matches (e : RouteEntry) (d : Word) : Prop := d &&& e.mask = e.pfx

/-- The loaded routing entries are sorted by key (41_lpm.md R128). -/
def SortedTable (s : State) : Prop := ∀ i j, i < j → j < s.rtLen.toNat → KeyLE (s.route i) (s.route j)

/-- Two entries with the same prefix and the same mask (41_lpm.md R129). -/
def SameKey (x y : RouteEntry) : Prop := x.pfx = y.pfx ∧ x.mask = y.mask

/-- The binary search of 41_lpm.md R131 on integers `lo` and `hi`, as a relation: `Search rt d lo hi r` when the loop started
at `lo` and `hi` ends with `found = r`. -/
inductive Search (rt : Nat → RouteEntry) (d : Word) : Int → Int → Option Nat → Prop
  /-- `lo <= hi` fails. -/
  | exhausted (lo hi : Int) : hi < lo → Search rt d lo hi none
  /-- `k == RT[mid].prefix`. -/
  | hit (lo hi : Int) (mid : Nat) : lo ≤ hi → (mid : Int) = lo + (hi - lo) / 2 →
      d &&& (rt mid).mask = (rt mid).pfx → Search rt d lo hi (some mid)
  /-- `k < RT[mid].prefix`, unsigned. -/
  | down (lo hi : Int) (mid : Nat) (r : Option Nat) : lo ≤ hi → (mid : Int) = lo + (hi - lo) / 2 →
      (d &&& (rt mid).mask).toNat < (rt mid).pfx.toNat → Search rt d lo (mid - 1) r → Search rt d lo hi r
  /-- Otherwise. -/
  | up (lo hi : Int) (mid : Nat) (r : Option Nat) : lo ≤ hi → (mid : Int) = lo + (hi - lo) / 2 →
      (rt mid).pfx.toNat < (d &&& (rt mid).mask).toNat → Search rt d (mid + 1) hi r → Search rt d lo hi r

/-- The forward scan of 41_lpm.md R131 as a relation: `Scan rt len d p i best r` when the loop started at `i` and `best`
ends with `best = r`; `p` is `RT[found].prefix`. -/
inductive Scan (rt : Nat → RouteEntry) (len : Nat) (d p : Word) : Nat → Nat → Nat → Prop
  /-- The loop condition fails. -/
  | done (i best : Nat) : ¬(i + 1 < len ∧ (rt (i + 1)).pfx = p) → Scan rt len d p i best best
  /-- The next entry of the run matches. -/
  | better (i best r : Nat) : i + 1 < len → (rt (i + 1)).pfx = p → Matches (rt (i + 1)) d →
      Scan rt len d p (i + 1) (i + 1) r → Scan rt len d p i best r
  /-- The next entry of the run does not match. -/
  | skip (i best r : Nat) : i + 1 < len → (rt (i + 1)).pfx = p → ¬Matches (rt (i + 1)) d →
      Scan rt len d p (i + 1) best r → Scan rt len d p i best r

/-- A mask is `1...10...0` (41_lpm.md R133 item 4): `n` ones from the top. -/
def ContiguousMask (m : Word) : Prop := ∃ n : Nat, n ≤ 32 ∧ m.toNat = 2 ^ 32 - 2 ^ (32 - n)

/-- The last address of an entry's range, `prefix | ~mask` (41_lpm.md R133 item 4). -/
def lastAddress (e : RouteEntry) : Word := e.pfx ||| ~~~e.mask

/-- The accumulator as its bytes' lanes make it: the seed plus every byte of the range at the weight of lane
`index mod 4`, lane 0 being bits 31:24 (40_checksum.md R103 to R105; 20_memory.md R78). -/
def laneSum (s : State) (b : Buf) (off len : Nat) : Nat :=
  s.params.csumSeed.toNat +
    ((List.range len).map fun j => (s.byte b (off + j)).toNat * 256 ^ (3 - (off + j) % 4)).sum

/-- The logical sum `L` of 40_checksum.md R107: the seed plus the 16-bit words `{x[j], x[j+1]}` for even `j`, a missing
last byte taken as 0. -/
def logicalSum (s : State) (b : Buf) (off len : Nat) : Nat :=
  s.params.csumSeed.toNat +
    ((List.range ((len + 1) / 2)).map fun k =>
      (s.byte b (off + 2 * k)).toNat * 256 +
        (if 2 * k + 1 < len then (s.byte b (off + (2 * k + 1))).toNat else 0)).sum

/-- `(~Fold16(x)) & 0xFFFF` (40_checksum.md R107). -/
def complementOfFold (x : Nat) : Half := BitVec.ofNat 16 (65535 - fold16 x)

/-- One step of the usual carry fold: `x[15:0] + (x >> 16)` (40_checksum.md R108). -/
def carryFold (x : Nat) : Nat := x % 2 ^ 16 + x / 2 ^ 16

/-- The fields of the table of 42_codec.md R150 that are whole bytes and no MAC address: id, offset, width in bytes. -/
def plainFields : List (Nat × Nat × Nat) :=
  [(2, 12, 2), (5, 15, 1), (6, 16, 2), (7, 18, 2), (8, 20, 2), (9, 22, 1), (10, 23, 1), (11, 24, 2), (12, 26, 4),
    (13, 30, 4), (14, 34, 1), (15, 35, 1), (16, 36, 2), (17, 38, 2), (18, 40, 2)]

/-- The big-endian number of the `n` bytes from offset `a`: the byte at the lower offset is the more significant
(20_memory.md R65). -/
def fieldNumber (s : State) (b : Buf) (a n : Nat) : Nat :=
  ((List.range n).map fun k => (s.byte b (a + k)).toNat * 256 ^ (n - 1 - k)).sum

/-- The state in which `MKREPLY t` on `s` has run: what it wrote (42_codec.md R167) as seen in `t'`. -/
def ReplyBuilt (ty : Byte) (s t' : State) : Prop :=
  ∃ u, exec (.mkreply ty) s = .next u ∧ (∀ k, t'.byte .tx k = u.byte .tx k) ∧ t'.txLen = u.txLen ∧ t'.txIf = u.txIf ∧
    t'.csAcc = u.csAcc ∧ t'.csFold = u.csFold ∧ t'.csOdd = u.csOdd ∧ t'.csRes = u.csRes ∧ t'.csZero = u.csZero

/-- The output descriptor of a reply path: TXB, 42 bytes, the ingress interface (43_forward.md R180 `OutReply`, R189). -/
def ReplyOut (s t : State) : Prop :=
  t.outValid = true ∧ t.outSel = true ∧ t.outLen = 42 ∧ t.outIf = s.rxIf ∧ t.txLen = 42 ∧ t.txIf = s.rxIf

/-- The output descriptor of a path that sends nothing (43_forward.md R189). -/
def NothingOut (t : State) : Prop := t.outValid = false ∧ t.outSel = false ∧ t.outLen = 0 ∧ t.outIf = 0

/-- The routing lookup registers stand for none (41_lpm.md R132). -/
def LpmNone (t : State) : Prop :=
  t.lpmHit = false ∧ t.lpmIdx = 0 ∧ t.lpmPfx = 0 ∧ t.lpmMask = 0 ∧ t.lpmNhop = 0 ∧ t.lpmEif = 0

/-- The routing lookup registers stand for index `r` (41_lpm.md R132). -/
def LpmIs (s t : State) (r : Nat) : Prop :=
  t.lpmHit = true ∧ t.lpmIdx = BitVec.ofNat 32 r ∧ t.lpmPfx = (s.route r).pfx ∧ t.lpmMask = (s.route r).mask ∧
    t.lpmNhop = (s.route r).nextHop ∧ t.lpmEif = (s.route r).egressIf

/-- The ARP lookup registers stand for none (41_lpm.md R136). -/
def ArpNone (t : State) : Prop :=
  t.arpHit = false ∧ t.arpIdx = 0 ∧ t.arpIp = 0 ∧ t.arpMacHi = 0 ∧ t.arpMacLo = 0

/-- The ARP lookup registers stand for index `j` (41_lpm.md R136). -/
def ArpIs (s t : State) (j : Nat) : Prop :=
  t.arpHit = true ∧ t.arpIdx = BitVec.ofNat 32 j ∧ t.arpIp = (s.arp j).ip ∧
    t.arpMacHi = (s.arp j).mac.m0 ++ (s.arp j).mac.m1 ++ (s.arp j).mac.m2 ++ (s.arp j).mac.m3 ∧
    t.arpMacLo = (s.arp j).mac.m4 ++ (s.arp j).mac.m5

/-- Index `j` is the lowest loaded ARP entry with address `a` (41_lpm.md R135). -/
def FirstArp (s : State) (a : Word) (j : Nat) : Prop :=
  j < s.atLen.toNat ∧ (s.arp j).ip = a ∧ ∀ i < j, (s.arp i).ip ≠ a

/-- No loaded ARP entry has address `a`. -/
def NoArp (s : State) (a : Word) : Prop := ∀ i < s.atLen.toNat, (s.arp i).ip ≠ a

/-- The destination address of the datagram in RXB (43_forward.md R186). -/
def destination (s : State) : Word := BitVec.ofNat 32 (fieldNumber s .rx 30 4)

/-- Some valid interface entry has address `d` (43_forward.md R187). -/
def IsLocal (s : State) (d : Word) : Prop :=
  ∃ i < s.params.nIf, (s.iface i).valid = true ∧ (s.iface i).addr = d

/-- The IPv4 header in buffer `b` validates (43_forward.md R183). -/
def ValidHeader (s : State) (b : Buf) : Prop := checksumOf s b 14 20 = 0

/-- The result of `Checksum(RXB, 14, 20)` stands in the checksum registers (40_checksum.md R106). -/
def LatchedFrom (s t : State) (b : Buf) (off len : Nat) : Prop :=
  t.csAcc = BitVec.ofNat 64 (laneSum s b off len) ∧ t.csFold = BitVec.ofNat 16 (fold16 (laneSum s b off len)) ∧
    t.csOdd = decide (off % 2 = 1) ∧ t.csRes = checksumOf s b off len ∧
    t.csZero = decide (checksumOf s b off len = 0)

end Sys2Proof.Claims

open Sys2Proof Sys2Proof.Machine Sys2Proof.Claims

/-! ## Encoding -/

/-- Decode of encode is the instruction, for every well-formed instruction (30_encoding.md R80 to R84). -/
def Obligations.DecodeOfEncode : Prop := ∀ i : Instr, i.wellFormed = true → decode (encode i) = .ok i

/-- Encode of decode is the word, for every legal word, and what is decoded is well-formed (30_encoding.md R80 to R84): so
`ERRCMD` holds the word that was written. -/
def Obligations.EncodeOfDecode : Prop :=
  ∀ (w : Word) (i : Instr), decode w = .ok i → encode i = w ∧ i.wellFormed = true

/-- The decoder is the opcode map of 30_encoding.md R82: match and mask of every command, the remaining bits its operands
at the places of R80, R81 and R83, and every other opcode unassigned. -/
def Obligations.DecoderFollowsTheOpcodeMap : Prop :=
  (∀ (w : Word) (i : Instr), decode w = .ok i → w &&& (opcodeRow i).2 = (opcodeRow i).1 ∧ OperandsAt w i) ∧
  (∀ (w : Word) (i : Instr), w &&& (opcodeRow i).2 = (opcodeRow i).1 →
    ∃ j, decode w = .ok j ∧ opcodeRow j = opcodeRow i) ∧
  (∀ w : Word,
    opField w ∉ [0x00, 0x01, 0x08, 0x09, 0x0A, 0x0B, 0x0C, 0x0D, 0x0E, 0x10, 0x11, 0x18, 0x20, 0x21, 0x22, 0x23, 0x24,
      0x25, 0x30] → decode w = .error (.unassignedOpcode (opField w)))

/-- Words written out from 30_encoding.md R90 and 95_test_vectors.md V55 decode to the commands they stand for. -/
def Obligations.SampleWordsDecode : Prop :=
  decode 0x28000002 = .ok (.ifload 2) ∧ decode 0x6000E014 = .ok (.csum .rx 14 20) ∧
  decode 0x62022008 = .ok (.csum .tx 34 8) ∧ decode 0x80000009 = .ok (.rdf .rx 9) ∧
  decode 0x8600000D = .ok (.wrf .tx 13) ∧ decode 0x92000000 = .ok (.icmpcs .tx) ∧
  decode 0x9400000B = .ok (.mkreply 11) ∧ decode 0xC0000000 = .ok .fwd

/-- An illegal word is refused with `ERR_ILLEGAL` and changes nothing but the error registers (30_encoding.md R85);
`script` and `resp` are the model's record of the host access itself (log entries 1 and 2). -/
def Obligations.IllegalWordsAreRefused : Prop :=
  (∀ (s : State) (w : Word) (e : Reject) (rest : List HostAction),
    s.script = .write .word 0x00 w :: rest → decode w = .error e →
    step s = .next { s with script := rest, resp := .ack, errs := true, errCode := 1, errCmd := w }) ∧
  (∀ w : Word, (∃ i, decode w = .ok i) ∨ (∃ e, decode w = .error e)) ∧
  decode 0x00000000 = .ok .nop ∧ (∃ e, decode 0xFFFFFFFF = .error e)

/-! ## Steps -/

/-- A write of a legal command word to `CMD` runs exactly that command; around it the step drops the action from the
host's script and answers `ack`; with no action left a step changes nothing (10_state.md R23; 20_memory.md R66;
60_exceptions.md R220; the script is the model's choice, log entries 1 to 3). -/
def Obligations.StepRunsTheDecodedCommand : Prop :=
  (∀ (s : State) (w : Word) (i : Instr) (rest : List HostAction),
    s.script = .write .word 0x00 w :: rest → decode w = .ok i →
    step s = answer .ack (exec i { s with script := rest })) ∧
  (∀ (r : Response) (t : State), answer r (.next t) = .next { t with resp := r }) ∧
  (∀ s : State, s.script = [] → step s = .next s)

/-- The block is never stuck and has no fatal state: every step answers a next state (60_exceptions.md R211). -/
def Obligations.BlockIsNeverStuck : Prop := ∀ s : State, ∃ t, step s = .next t

/-- A host read of a register returns its value and changes no state of the block; a host write stores the bits an RW
register has, and does nothing to a read-only register or a reserved offset (20_memory.md R62). That the access comes from
`script` and is answered in `resp` is the model's choice (log entries 1 and 2). -/
def Obligations.RegisterAccesses : Prop :=
  (∀ (s : State) (off : Nat) (rest : List HostAction), s.script = .read .word off :: rest → off % 4 = 0 → off ≤ 0xFC →
    step s = .next
      { s with script := rest, resp := .word (match regAt off with | some r => readReg s r | none => 0) }) ∧
  (∀ (s : State) (v : Word) (rest : List HostAction) (off : Nat), s.script = .write .word off v :: rest →
    (off = 0x10 → step s = .next { s with script := rest, resp := .ack, dr0 := v }) ∧
    (off = 0x14 → step s = .next { s with script := rest, resp := .ack, dr1 := v }) ∧
    (off = 0x18 → step s = .next { s with script := rest, resp := .ack, dr2 := v }) ∧
    (off = 0x1C → step s = .next { s with script := rest, resp := .ack, dr3 := v }) ∧
    (off = 0x20 → step s = .next { s with script := rest, resp := .ack, rxLen := v.extractLsb' 0 16 }) ∧
    (off = 0x24 → step s = .next { s with script := rest, resp := .ack, rxIf := v.extractLsb' 0 16 }) ∧
    (off = 0x28 → step s = .next { s with script := rest, resp := .ack, txLen := v.extractLsb' 0 16 }) ∧
    (off = 0x2C → step s = .next { s with script := rest, resp := .ack, txIf := v.extractLsb' 0 16 }) ∧
    (off % 4 = 0 → off = 0x08 ∨ off = 0x0C ∨ (0x30 ≤ off ∧ off ≤ 0xFC) →
      step s = .next { s with script := rest, resp := .ack }))

/-- The register map: what a host read of each offset returns, bits a register does not have reading as 0
(10_state.md R25). -/
def Obligations.RegisterReadsFollowTheMap : Prop :=
  ∀ s : State,
    hostRead .word 0x00 s = .word 0 ∧ hostRead .word 0x04 s = .word (statusWord s) ∧
    hostRead .word 0x08 s = .word (0#24 ++ s.errCode) ∧ hostRead .word 0x0C s = .word s.errCmd ∧
    hostRead .word 0x10 s = .word s.dr0 ∧ hostRead .word 0x14 s = .word s.dr1 ∧
    hostRead .word 0x18 s = .word s.dr2 ∧ hostRead .word 0x1C s = .word s.dr3 ∧
    hostRead .word 0x20 s = .word (0#16 ++ s.rxLen) ∧ hostRead .word 0x24 s = .word (0#16 ++ s.rxIf) ∧
    hostRead .word 0x28 s = .word (0#16 ++ s.txLen) ∧ hostRead .word 0x2C s = .word (0#16 ++ s.txIf) ∧
    hostRead .word 0x30 s = .word s.rtLen ∧ hostRead .word 0x34 s = .word s.atLen ∧
    hostRead .word 0x38 s = .word (0#16 ++ s.csRes) ∧ hostRead .word 0x3C s = .word (0#16 ++ s.csFold) ∧
    (∃ lo hi : Word, s.csAcc = hi ++ lo ∧ hostRead .word 0x40 s = .word lo ∧ hostRead .word 0x44 s = .word hi) ∧
    hostRead .word 0x48 s = .word s.lpmIdx ∧ hostRead .word 0x4C s = .word s.lpmPfx ∧
    hostRead .word 0x50 s = .word s.lpmMask ∧ hostRead .word 0x54 s = .word s.lpmNhop ∧
    hostRead .word 0x58 s = .word (0#16 ++ s.lpmEif) ∧ hostRead .word 0x5C s = .word s.arpIdx ∧
    hostRead .word 0x60 s = .word s.arpIp ∧ hostRead .word 0x64 s = .word s.arpMacHi ∧
    hostRead .word 0x68 s = .word (s.arpMacLo ++ 0#16) ∧ hostRead .word 0x6C s = .word (0#28 ++ s.disp) ∧
    hostRead .word 0x70 s = .word (0#16 ++ s.outLen) ∧ hostRead .word 0x74 s = .word (0#16 ++ s.outIf) ∧
    (∀ off, 0x78 ≤ off → off ≤ 0xFC → off % 4 = 0 → hostRead .word off s = .word 0)

/-- Each flag is its bit of `STATUS`, and bits 31:9 read as 0 (10_state.md R24). -/
def Obligations.StatusWordHoldsTheFlags : Prop :=
  ∀ s : State,
    (statusWord s).getLsbD 0 = s.built ∧ (statusWord s).getLsbD 1 = s.errs ∧ (statusWord s).getLsbD 2 = s.csZero ∧
    (statusWord s).getLsbD 3 = s.csOdd ∧ (statusWord s).getLsbD 4 = s.lpmHit ∧ (statusWord s).getLsbD 5 = s.arpHit ∧
    (statusWord s).getLsbD 6 = s.ifHit ∧ (statusWord s).getLsbD 7 = s.outValid ∧ (statusWord s).getLsbD 8 = s.outSel ∧
    ∀ k, 9 ≤ k → (statusWord s).getLsbD k = false

/-- A host read of a buffer byte returns it and changes no state of the block; a host write sets that byte and no other
(20_memory.md R61, R63). That the access comes from `script` and is answered in `resp` is the model's choice (log entries
1, 2 and 10). -/
def Obligations.BufferAccesses : Prop :=
  ∀ (s : State) (i : Nat) (v : Word) (rest : List HostAction), s.params.Legal → i < s.params.fbSize →
    (s.script = .read .byte (0x1000 + i) :: rest → step s = .next { s with script := rest, resp := .byte (s.byte .rx i) }) ∧
    (s.script = .read .byte (0x2000 + i) :: rest → step s = .next { s with script := rest, resp := .byte (s.byte .tx i) }) ∧
    (s.script = .write .byte (0x1000 + i) v :: rest →
      ∃ t, step s = .next t ∧ t.byte .rx i = v.extractLsb' 0 8 ∧ KeepsBytesOutside .rx i 1 s t ∧
        t = { s with script := rest, resp := .ack, rxb := t.rxb }) ∧
    (s.script = .write .byte (0x2000 + i) v :: rest →
      ∃ t, step s = .next t ∧ t.byte .tx i = v.extractLsb' 0 8 ∧ KeepsBytesOutside .tx i 1 s t ∧
        t = { s with script := rest, resp := .ack, txb := t.txb })

/-- Any other host access gets a bus error and changes no state of the block (20_memory.md R64; 60_exceptions.md R217).
That the access comes from `script` and is answered in `resp` is the model's choice (log entries 1, 2 and 10). -/
def Obligations.OtherAccessesGetABusError : Prop :=
  ∀ (s : State) (wd : Width) (off : Nat) (v : Word) (rest : List HostAction),
    ¬(wd = .word ∧ off % 4 = 0 ∧ off ≤ 0xFC) →
    ¬(wd = .byte ∧ 0x1000 ≤ off ∧ off < 0x1000 + s.params.fbSize) →
    ¬(wd = .byte ∧ 0x2000 ≤ off ∧ off < 0x2000 + s.params.fbSize) →
    (s.script = .read wd off :: rest → step s = .next { s with script := rest, resp := .busError }) ∧
    (s.script = .write wd off v :: rest → step s = .next { s with script := rest, resp := .busError })

/-! ## Refusals and phases -/

/-- The phase rule (60_exceptions.md R218): a command out of its phase is refused with `ERR_PHASE`; a command in its phase
is not; `BUILT` rises only by `BUILD` and falls only by `SRST` or reset; in the RUN phase RT, AT and IFA are constant. That
the host's actions, commands and reset among them, stand in `script` is the model's choice (log entries 1 and 11). -/
def Obligations.PhaseRule : Prop :=
  (∀ (i : Instr) (s : State), ¬PhaseAllows i s → exec i s = refusedAs i 3 s) ∧
  (∀ (i : Instr) (s t : State), PhaseAllows i s → s.errCode ≠ 3 → exec i s = .next t → t.errCode ≠ 3) ∧
  (∀ s t : State, step s = .next t → s.built = false → t.built = true →
    ∃ w rest, s.script = .write .word 0x00 w :: rest ∧ decode w = .ok .build) ∧
  (∀ s t : State, step s = .next t → s.built = true → t.built = false →
    (∃ w rest, s.script = .write .word 0x00 w :: rest ∧ decode w = .ok .srst) ∨ (∃ rest, s.script = .reset :: rest)) ∧
  (∀ s t : State, step s = .next t → s.built = true → t.built = true →
    t.rt = s.rt ∧ t.arpt = s.arpt ∧ t.ifa = s.ifa ∧ t.rtLen = s.rtLen ∧ t.atLen = s.atLen)

/-- Refusals are precise (60_exceptions.md R211, 10_state.md R26): a command either is refused, and then changes only the
three error registers, which hold the code and its word; or leaves the error registers unchanged; or is `SRST`, which
clears them. -/
def Obligations.RefusalsArePrecise : Prop :=
  ∀ (i : Instr) (s t : State), exec i s = .next t →
    (∃ code, (code = 2 ∨ code = 3 ∨ code = 4) ∧ exec i s = refusedAs i code s) ∨
    (t.errs = s.errs ∧ t.errCode = s.errCode ∧ t.errCmd = s.errCmd) ∨
    (i = .srst ∧ t.errs = false ∧ t.errCode = 0 ∧ t.errCmd = 0)

/-- Acknowledging a refusal (60_exceptions.md R216): a write to `STATUS` with bit 1 set clears the three error registers and
nothing else, with bit 1 clear does nothing; a command that completes without refusal does not clear them, `SRST` and
hardware reset do. That the host's actions stand in `script` is the model's choice (log entry 1). -/
def Obligations.AcknowledgeClearsTheRefusal : Prop :=
  (∀ (s : State) (v : Word) (rest : List HostAction), s.script = .write .word 0x04 v :: rest →
    (v.getLsbD 1 = true →
      step s = .next { s with script := rest, resp := .ack, errs := false, errCode := 0, errCmd := 0 }) ∧
    (v.getLsbD 1 = false → step s = .next { s with script := rest, resp := .ack })) ∧
  (∀ (i : Instr) (s t : State), i ≠ .srst → exec i s = .next t → s.errs = true → t.errs = true) ∧
  (∀ s t : State, exec .srst s = .next t → t.errs = false ∧ t.errCode = 0 ∧ t.errCmd = 0) ∧
  (∀ (s t : State) (rest : List HostAction), s.script = .reset :: rest → step s = .next t →
    t.errs = false ∧ t.errCode = 0 ∧ t.errCmd = 0)

/-! ## Reset -/

/-- Hardware reset puts every register to 0, clears the interface table, and reserved offsets read 0
(70_reset_and_hazards.md R230): in `State.reset`, and as an event in any state. That the event stands in `script` is the
model's choice (log entries 1 and 11). -/
def Obligations.HardwareResetClearsEveryRegister : Prop :=
  (∀ r, readReg State.reset r = 0) ∧ (∀ i, State.reset.iface i = { addr := 0, valid := false }) ∧
  (∀ (s : State) (rest : List HostAction), s.script = .reset :: rest →
    ∃ t, step s = .next t ∧ (∀ r, readReg t r = 0) ∧ (∀ i, t.iface i = { addr := 0, valid := false }) ∧
      (∀ off, 0x78 ≤ off → off ≤ 0xFC → off % 4 = 0 → hostRead .word off t = .word 0))

/-- The system commands. `NOP` changes nothing, and every word of its opcode with an operand bit set is illegal
(44_system.md R200). `SRST` zeroes every register and the interface table and keeps the buffers and the table storage, and
every other word of its opcode is illegal (44_system.md R201). -/
def Obligations.SystemCommands : Prop :=
  (∀ s : State, exec .nop s = .next s) ∧
  (∀ w : Word, 0x00000001 ≤ w → w ≤ 0x03FFFFFF → ∃ e, decode w = .error e) ∧
  (∀ s : State, ∃ t, exec .srst s = .next t ∧ (∀ r, readReg t r = 0) ∧
    (∀ i, t.iface i = { addr := 0, valid := false }) ∧ SameBytes s t ∧ (∀ i, t.route i = s.route i) ∧
    (∀ i, t.arp i = s.arp i) ∧ t.params = s.params) ∧
  (∀ w : Word, opField w = 0x01 → w ≠ 0x04000000 → ∃ e, decode w = .error e)

/-! ## Invariants -/

/-- The four invariants hold at reset. The parameters there are the model's choice of R6's defaults (log entry 4). -/
def Obligations.InvariantsHoldAtReset : Prop :=
  MemoryInv State.reset ∧ TableInv State.reset ∧ ErrorInv State.reset ∧ ResultInv State.reset

/-- Every step keeps the buffers canonical and inside `FB_SIZE` (10_state.md R40; 20_memory.md R77). -/
def Obligations.StepKeepsMemoryInvariant : Prop := ∀ s t : State, MemoryInv s → step s = .next t → MemoryInv t

/-- Every step keeps the tables within their capacities, the loaded entries pre-masked, and the routing table sorted in the
RUN phase (10_state.md R41 to R43; 41_lpm.md R128; 60_exceptions.md R218). -/
def Obligations.StepKeepsTableInvariant : Prop := ∀ s t : State, TableInv s → step s = .next t → TableInv t

/-- Every step keeps the error registers consistent: cleared together, latched codes 1 to 4 only (10_state.md R26;
60_exceptions.md R212). -/
def Obligations.StepKeepsErrorInvariant : Prop := ∀ s t : State, ErrorInv s → step s = .next t → ErrorInv t

/-- Every step keeps `DISP` a produced code and the values of a miss and of an empty descriptor 0 (10_state.md R46, R47;
41_lpm.md R132, R136). -/
def Obligations.StepKeepsResultInvariant : Prop := ∀ s t : State, ResultInv s → step s = .next t → ResultInv t

/-- No step changes the implementation parameters (10_state.md R39). -/
def Obligations.ParametersNeverChange : Prop := ∀ s t : State, step s = .next t → t.params = s.params

/-! ## Tables -/

/-- `RTLOAD` (41_lpm.md R121). -/
def Obligations.RtloadAppendsAMaskedRoute : Prop :=
  ∀ s : State,
    (s.built = true → exec .rtload s = refusedAs .rtload 3 s) ∧
    (s.built = false → s.rtLen.toNat = s.params.rtCap → exec .rtload s = refusedAs .rtload 4 s) ∧
    (s.built = false → s.rtLen.toNat ≠ s.params.rtCap →
      ∃ t, exec .rtload s = .next t ∧
        t.route s.rtLen.toNat =
          { pfx := s.dr0 &&& s.dr1, mask := s.dr1, nextHop := s.dr2, egressIf := s.dr3.extractLsb' 0 16 } ∧
        (∀ i, i ≠ s.rtLen.toNat → t.route i = s.route i) ∧ t.rtLen = s.rtLen + 1 ∧ SameBytes s t ∧
        t = { s with rt := t.rt, rtLen := t.rtLen })

/-- `ATLOAD` (41_lpm.md R122). -/
def Obligations.AtloadAppendsAnArpEntry : Prop :=
  ∀ s : State,
    (s.built = true → exec .atload s = refusedAs .atload 3 s) ∧
    (s.built = false → s.atLen.toNat = s.params.atCap → exec .atload s = refusedAs .atload 4 s) ∧
    (s.built = false → s.atLen.toNat ≠ s.params.atCap →
      ∃ t, exec .atload s = .next t ∧ (t.arp s.atLen.toNat).ip = s.dr0 ∧
        (t.arp s.atLen.toNat).mac.bytes =
          [s.dr1.extractLsb' 24 8, s.dr1.extractLsb' 16 8, s.dr1.extractLsb' 8 8, s.dr1.extractLsb' 0 8,
            s.dr2.extractLsb' 24 8, s.dr2.extractLsb' 16 8] ∧
        (∀ i, i ≠ s.atLen.toNat → t.arp i = s.arp i) ∧ t.atLen = s.atLen + 1 ∧ SameBytes s t ∧
        t = { s with arpt := t.arpt, atLen := t.atLen })

/-- `IFLOAD id` (41_lpm.md R123). -/
def Obligations.IfloadSetsAnInterface : Prop :=
  ∀ (s : State) (id : Nat),
    (s.built = true → exec (.ifload id) s = refusedAs (.ifload id) 3 s) ∧
    (s.built = false → s.params.nIf ≤ id → exec (.ifload id) s = refusedAs (.ifload id) 2 s) ∧
    (s.built = false → id < s.params.nIf →
      ∃ t, exec (.ifload id) s = .next t ∧ t.iface id = { addr := s.dr0, valid := true } ∧
        (∀ i, i ≠ id → t.iface i = s.iface i) ∧ SameBytes s t ∧ t = { s with ifa := t.ifa })

/-- `RTREAD` (41_lpm.md R124). -/
def Obligations.RtreadCopiesARoute : Prop :=
  ∀ s : State,
    (s.rtLen.toNat ≤ s.dr0.toNat → exec .rtread s = refusedAs .rtread 2 s) ∧
    (s.dr0.toNat < s.rtLen.toNat →
      ∃ t, exec .rtread s = .next t ∧ t.dr0 = (s.route s.dr0.toNat).pfx ∧ t.dr1 = (s.route s.dr0.toNat).mask ∧
        t.dr2 = (s.route s.dr0.toNat).nextHop ∧ t.dr3 = 0#16 ++ (s.route s.dr0.toNat).egressIf ∧ SameBytes s t ∧
        t = { s with dr0 := t.dr0, dr1 := t.dr1, dr2 := t.dr2, dr3 := t.dr3 })

/-- `ATREAD` (41_lpm.md R125). -/
def Obligations.AtreadCopiesAnArpEntry : Prop :=
  ∀ s : State,
    (s.atLen.toNat ≤ s.dr0.toNat → exec .atread s = refusedAs .atread 2 s) ∧
    (s.dr0.toNat < s.atLen.toNat →
      ∃ t, exec .atread s = .next t ∧ t.dr0 = (s.arp s.dr0.toNat).ip ∧
        t.dr1 = (s.arp s.dr0.toNat).mac.m0 ++ (s.arp s.dr0.toNat).mac.m1 ++ (s.arp s.dr0.toNat).mac.m2 ++
          (s.arp s.dr0.toNat).mac.m3 ∧
        t.dr2 = (s.arp s.dr0.toNat).mac.m4 ++ (s.arp s.dr0.toNat).mac.m5 ++ 0#8 ++ 0#8 ∧ SameBytes s t ∧
        t = { s with dr0 := t.dr0, dr1 := t.dr1, dr2 := t.dr2 })

/-- `IFREAD id` (41_lpm.md R126). -/
def Obligations.IfreadCopiesAnInterface : Prop :=
  ∀ (s : State) (id : Nat),
    (s.params.nIf ≤ id → exec (.ifread id) s = refusedAs (.ifread id) 2 s) ∧
    (id < s.params.nIf →
      ∃ t, exec (.ifread id) s = .next t ∧ t.dr0 = (s.iface id).addr ∧
        t.dr1.toNat = (if (s.iface id).valid then 1 else 0) ∧ SameBytes s t ∧ t = { s with dr0 := t.dr0, dr1 := t.dr1 })

/-- `BUILD` sorts the loaded entries by key, losing none, leaves a sorted table as it is, and enters the RUN phase
(41_lpm.md R127, R128). The order of entries of equal key in a table that was not sorted rests on a free value (log
entry 7) and is not stated. -/
def Obligations.BuildSortsTheTable : Prop :=
  ∀ s : State,
    (s.built = true → exec .build s = refusedAs .build 3 s) ∧
    (s.built = false →
      ∃ t, exec .build s = .next t ∧ t.routes.Perm s.routes ∧ SortedTable t ∧
        (SortedTable s → ∀ i, t.route i = s.route i) ∧ (∀ i, s.rtLen.toNat ≤ i → t.route i = s.route i) ∧ SameBytes s t ∧
        t = { s with rt := t.rt, built := true, builds := t.builds })

/-- Order independence (41_lpm.md R140): two tables loaded with the same entries in any order answer every lookup with the
same index after `BUILD`, and with the same entry when no two loaded entries have the same (prefix, mask). -/
def Obligations.BuildIsOrderIndependent : Prop :=
  ∀ s₁ s₂ t₁ t₂ : State, s₁.built = false → s₂.built = false → exec .build s₁ = .next t₁ → exec .build s₂ = .next t₂ →
    s₁.routes.Perm s₂.routes →
    ∀ (d : Word) (u₁ u₂ : State), exec .rtlookup { t₁ with dr0 := d } = .next u₁ →
      exec .rtlookup { t₂ with dr0 := d } = .next u₂ →
      u₁.lpmHit = u₂.lpmHit ∧ u₁.lpmIdx = u₂.lpmIdx ∧
      (s₁.routes.Pairwise (fun x y => ¬SameKey x y) →
        t₁.routes = t₂.routes ∧ u₁.lpmPfx = u₂.lpmPfx ∧ u₁.lpmMask = u₂.lpmMask ∧ u₁.lpmNhop = u₂.lpmNhop ∧
        u₁.lpmEif = u₂.lpmEif)

/-- `Lookup(d)` is the algorithm of 41_lpm.md R131: the binary search on integer bounds from 0 to `RT_LEN - 1`, then the
clamped forward scan of the run. -/
def Obligations.LookupFollowsTheAlgorithm : Prop :=
  ∀ (s : State) (d : Word),
    (lookup s d = none ∧ Search s.route d 0 ((s.rtLen.toNat : Int) - 1) none) ∨
    (∃ found r, lookup s d = some r ∧ Search s.route d 0 ((s.rtLen.toNat : Int) - 1) (some found) ∧
      Scan s.route s.rtLen.toNat d (s.route found).pfx found found r)

/-- `RTLOOKUP` reports the lookup of `DR0` (41_lpm.md R130, R132). -/
def Obligations.RtlookupReportsTheLookup : Prop :=
  ∀ s : State,
    (s.built = false → exec .rtlookup s = refusedAs .rtlookup 3 s) ∧
    (s.built = true →
      ∃ t, exec .rtlookup s = .next t ∧ (∀ r, lookup s s.dr0 = some r → LpmIs s t r) ∧
        (lookup s s.dr0 = none → LpmNone t) ∧ SameBytes s t ∧
        t = { s with
          lpmHit := t.lpmHit, lpmIdx := t.lpmIdx, lpmPfx := t.lpmPfx, lpmMask := t.lpmMask, lpmNhop := t.lpmNhop
          lpmEif := t.lpmEif })

/-- What the lookup guarantees on every sorted table (41_lpm.md R133 items 1 and 2): the index it returns is loaded and
matches, nothing matching gives none, and the result is the greatest matching index of its run and has the greatest
mask among the matching entries of the run. -/
def Obligations.LookupReturnsTheBestOfItsRun : Prop :=
  ∀ (s : State) (d : Word), SortedTable s →
    (∀ r, lookup s d = some r → r < s.rtLen.toNat ∧ Matches (s.route r) d ∧
      ∀ j < s.rtLen.toNat, (s.route j).pfx = (s.route r).pfx → Matches (s.route j) d →
        j ≤ r ∧ (s.route j).mask ≤ (s.route r).mask) ∧
    ((∀ j < s.rtLen.toNat, ¬Matches (s.route j) d) → lookup s d = none)

/-- True longest-prefix match under the conditions (a) to (e) of 41_lpm.md R133 item 3; `lo` and `hi` are `min(M)` and
`max(M)`. -/
def Obligations.LookupIsLongestMatchUnderConditions : Prop :=
  ∀ (s : State) (d : Word) (lo hi : Nat), SortedTable s → lo ≤ hi → hi < s.rtLen.toNat →
    (∀ j, lo ≤ j → j ≤ hi → Matches (s.route j) d ∧ (s.route j).pfx = (s.route lo).pfx) →
    (∀ j < lo, (s.route j).pfx < d &&& (s.route j).mask) →
    (∀ j, hi < j → j < s.rtLen.toNat → d &&& (s.route j).mask < (s.route j).pfx) →
    lookup s d = some hi ∧
      ∀ j < s.rtLen.toNat, Matches (s.route j) d → (s.route j).mask ≤ (s.route hi).mask

/-- With contiguous masks and pairwise disjoint address ranges, the lookup is exact (41_lpm.md R133 item 4): a loaded entry
that matches is the one returned, and a miss means nothing matches. Stored prefixes are masked (10_state.md R41). -/
def Obligations.LookupIsExactOnDisjointRanges : Prop :=
  ∀ s : State, SortedTable s →
    (∀ i < s.rtLen.toNat, ContiguousMask (s.route i).mask ∧ Premasked (s.route i)) →
    (∀ i < s.rtLen.toNat, ∀ j < s.rtLen.toNat, i ≠ j →
      lastAddress (s.route i) < (s.route j).pfx ∨ lastAddress (s.route j) < (s.route i).pfx) →
    ∀ d : Word,
      (∀ i < s.rtLen.toNat, Matches (s.route i) d → lookup s d = some i) ∧
      (lookup s d = none → ∀ i < s.rtLen.toNat, ¬Matches (s.route i) d)

/-- The three tables of 41_lpm.md R139 on which the algorithm differs from a true longest match. -/
def Obligations.LookupIsNotLongestMatchInGeneral : Prop :=
  lookupIn (fun i => [⟨0x0A000000, 0xFF000000, 0, 0⟩, ⟨0x0A000000, 0xFFFFFF00, 0, 0⟩, ⟨0x0A000000, 0xFFFFFFFF, 0, 0⟩].getD i
      default) 3 0x0A010203 = none ∧
    Matches ⟨0x0A000000, 0xFF000000, 0, 0⟩ 0x0A010203 ∧
  lookupIn (fun i => [⟨0x00000000, 0x00000000, 0, 0⟩, ⟨0x0A000000, 0xFF000000, 0, 0⟩, ⟨0xC0A80000, 0xFFFF0000, 0, 0⟩].getD i
      default) 3 0x0B000001 = none ∧
    Matches ⟨0x00000000, 0x00000000, 0, 0⟩ 0x0B000001 ∧
  lookupIn (fun i => [⟨0x0A000000, 0xFF000000, 0, 0⟩, ⟨0x0A010000, 0xFFFF0000, 0, 0⟩].getD i default) 2 0x0A010203 = some 0 ∧
    Matches ⟨0x0A010000, 0xFFFF0000, 0, 0⟩ 0x0A010203

/-- Termination and cost of `Lookup` (41_lpm.md R137): `floor(log2(RT_LEN)) + 1` probes are enough, `RT_LEN - 1 - found` scan
moves are enough, and only entries below `RT_LEN` are read. -/
def Obligations.LookupCostIsBounded : Prop :=
  (∀ (rt : Nat → RouteEntry) (d : Word) (len fuel : Nat), 0 < len → Nat.log2 len + 1 ≤ fuel →
    probe rt d fuel 0 len = probe rt d (Nat.log2 len + 1) 0 len) ∧
  (∀ (rt : Nat → RouteEntry) (d p : Word) (len fuel found : Nat), found < len → len - 1 - found ≤ fuel →
    scanRun rt len d p fuel found found = scanRun rt len d p (len - 1 - found) found found) ∧
  (∀ (rt rt' : Nat → RouteEntry) (d : Word) (len : Nat), (∀ i < len, rt i = rt' i) →
    lookupIn rt len d = lookupIn rt' len d)

/-- `ARPLOOKUP` reports the lowest loaded entry with the address in `DR0`, or none (41_lpm.md R134 to R136). -/
def Obligations.ArplookupReportsTheFirstMatch : Prop :=
  ∀ s : State,
    (s.built = false → exec .arplookup s = refusedAs .arplookup 3 s) ∧
    (s.built = true →
      ∃ t, exec .arplookup s = .next t ∧ (∀ j, FirstArp s s.dr0 j → ArpIs s t j) ∧ (NoArp s s.dr0 → ArpNone t) ∧
        SameBytes s t ∧
        t = { s with
          arpHit := t.arpHit, arpIdx := t.arpIdx, arpIp := t.arpIp, arpMacHi := t.arpMacHi, arpMacLo := t.arpMacLo })

/-! ## Checksum -/

/-- `CSUM s, off, len` (40_checksum.md R110, with R101 to R106): out of range it is refused; else the accumulator is the
seed plus every byte at the weight of its lane, folded, swapped at an odd start and complemented, and nothing but the
checksum registers changes. A word of the opcode with bit 24 set is illegal. -/
def Obligations.CsumLatchesTheLaneSum : Prop :=
  (∀ w : Word, opField w = 0x18 → w.getLsbD 24 = true → ∃ e, decode w = .error e) ∧
  ∀ (s : State) (b : Buf) (off len : Nat),
    (s.params.fbSize < off + len → exec (.csum b off len) s = refusedAs (.csum b off len) 2 s) ∧
    (off + len ≤ s.params.fbSize →
      ∃ t, exec (.csum b off len) s = .next t ∧ t.csAcc = BitVec.ofNat 64 (laneSum s b off len) ∧
        t.csFold = BitVec.ofNat 16 (fold16 (laneSum s b off len)) ∧ t.csOdd = decide (off % 2 = 1) ∧
        t.csRes = ~~~(if off % 2 = 1 then t.csFold.extractLsb' 0 8 ++ t.csFold.extractLsb' 8 8 else t.csFold) ∧
        t.csZero = decide (t.csRes = 0) ∧ SameBytes s t ∧
        t = { s with
          csAcc := t.csAcc, csFold := t.csFold, csOdd := t.csOdd, csRes := t.csRes, csZero := t.csZero })

/-- The closed form of the checksum at every start offset (40_checksum.md R107): the result is the complement of the folded
logical sum, and the fold before correction is that fold, byte-swapped at an odd start. -/
def Obligations.ChecksumClosedForm : Prop :=
  ∀ (s : State) (b : Buf) (off len : Nat), SeedLegal s → off + len ≤ s.params.fbSize →
    ∃ t, exec (.csum b off len) s = .next t ∧ t.csRes = complementOfFold (logicalSum s b off len) ∧
      t.csFold =
        (if off % 2 = 1 then bswap16 (BitVec.ofNat 16 (fold16 (logicalSum s b off len)))
        else BitVec.ofNat 16 (fold16 (logicalSum s b off len)))

/-- `Fold16` (40_checksum.md R108): zero at zero, in 1 to 0xFFFF elsewhere, congruent modulo 65535, unchanged by every
carry fold `h * 2^(16j) + l` to `h + l`, and the value that the usual two-stage carry fold computes. -/
def Obligations.FoldIsTheCarryFold : Prop :=
  (∀ x, fold16 x = if x = 0 then 0 else (x - 1) % 65535 + 1) ∧
  (∀ x, 0 < x → 1 ≤ fold16 x ∧ fold16 x ≤ 0xFFFF) ∧
  (∀ x, fold16 x % 65535 = x % 65535) ∧
  (∀ h l j : Nat, fold16 (h * 2 ^ (16 * j) + l) = fold16 (h + l)) ∧
  (∀ x, x < 2 ^ 64 → fold16 x = carryFold (carryFold (carryFold (x % 2 ^ 32 + x / 2 ^ 32))))

/-- The checksum's values at zero (40_checksum.md R109). -/
def Obligations.ChecksumValuesAtZero : Prop :=
  ∀ (s : State) (b : Buf) (off len : Nat), SeedLegal s →
    (checksumOf s b off len = 0xFFFF ↔ s.params.csumSeed = 0 ∧ ∀ j < len, s.byte b (off + j) = 0) ∧
    (s.params.csumSeed = 0xFFFF → checksumOf s b off len ≠ 0xFFFF) ∧
    (checksumOf s b off len = 0 ↔ 0 < logicalSum s b off len ∧ logicalSum s b off len % 65535 = 0)

/-- The accumulator never wraps (40_checksum.md R111): it stays below `2^43`, so the 64-bit register holds it exactly. -/
def Obligations.AccumulatorNeverWraps : Prop :=
  ∀ (s t : State) (b : Buf) (off len : Nat), s.params.Legal → off + len ≤ s.params.fbSize →
    exec (.csum b off len) s = .next t → laneSum s b off len < 2 ^ 43 ∧ t.csAcc.toNat = laneSum s b off len

/-- The validation property (40_checksum.md R112): zero a 16-bit field at an even distance from the start, compute, store
the result in the field; then the range checksums to zero, at every start and for both seeds. -/
def Obligations.StoredChecksumValidates : Prop :=
  ∀ (s : State) (b : Buf) (off len k : Nat), SeedLegal s → off ≤ k → k + 2 ≤ off + len → (k - off) % 2 = 0 →
    checksumOf
      ((s.memWrite b k 2 0).memWrite b k 2 ((checksumOf (s.memWrite b k 2 0) b off len).setWidth 32)) b off len = 0

/-! ## Codec -/

/-- Field access is big-endian (20_memory.md R65; 00_scope.md R10): the byte at the lower offset is the more significant,
in reads and in writes, and a field reads back as written. -/
def Obligations.FieldAccessIsBigEndian : Prop :=
  (∀ (s : State) (b : Buf) (k : Nat),
    (s.memRead b k 1).toNat = (s.byte b k).toNat ∧
    (s.memRead b k 2).toNat = (s.byte b k).toNat * 2 ^ 8 + (s.byte b (k + 1)).toNat ∧
    (s.memRead b k 4).toNat =
      (s.byte b k).toNat * 2 ^ 24 + (s.byte b (k + 1)).toNat * 2 ^ 16 + (s.byte b (k + 2)).toNat * 2 ^ 8 +
        (s.byte b (k + 3)).toNat) ∧
  (∀ (s : State) (b : Buf) (k n : Nat) (v : Word), n ≤ 4 →
    (∀ j < n, (s.memWrite b k n v).byte b (k + j) = v.extractLsb' (8 * (n - 1 - j)) 8) ∧
    KeepsBytesOutside b k n s (s.memWrite b k n v) ∧ ((s.memWrite b k n v).memRead b k n).toNat = v.toNat % 2 ^ (8 * n))

/-- `RDF s, f` for every field id (42_codec.md R150, R153). -/
def Obligations.RdfReadsTheField : Prop :=
  ∀ (s : State) (b : Buf),
    (∀ f, 18 < f → exec (.rdf b f) s = refusedAs (.rdf b f) 2 s) ∧
    (∀ f off n, (f, off, n) ∈ plainFields →
      ∃ t, exec (.rdf b f) s = .next t ∧ t.dr0.toNat = fieldNumber s b off n ∧ SameBytes s t ∧ t = { s with dr0 := t.dr0 }) ∧
    (∀ f off, (f, off) ∈ [(0, 0), (1, 6)] →
      ∃ t, exec (.rdf b f) s = .next t ∧ t.dr0.toNat = fieldNumber s b off 4 ∧
        t.dr1.toNat = fieldNumber s b (off + 4) 2 * 2 ^ 16 ∧ SameBytes s t ∧ t = { s with dr0 := t.dr0, dr1 := t.dr1 }) ∧
    (∃ t, exec (.rdf b 3) s = .next t ∧ t.dr0.toNat = (s.byte b 14).toNat / 16 ∧ SameBytes s t ∧ t = { s with dr0 := t.dr0 }) ∧
    (∃ t, exec (.rdf b 4) s = .next t ∧ t.dr0.toNat = (s.byte b 14).toNat % 16 ∧ SameBytes s t ∧ t = { s with dr0 := t.dr0 })

/-- `WRF s, f` for every field id (42_codec.md R150, R154): the bytes of the field and no others. -/
def Obligations.WrfWritesTheField : Prop :=
  ∀ (s : State) (b : Buf),
    (∀ f, 18 < f → exec (.wrf b f) s = refusedAs (.wrf b f) 2 s) ∧
    (∀ f off n, (f, off, n) ∈ plainFields →
      ∃ t, exec (.wrf b f) s = .next t ∧ fieldNumber t b off n = s.dr0.toNat % 2 ^ (8 * n) ∧
        KeepsBytesOutside b off n s t ∧ OnlyBuffers s t) ∧
    (∀ f off, (f, off) ∈ [(0, 0), (1, 6)] →
      ∃ t, exec (.wrf b f) s = .next t ∧ fieldNumber t b off 4 = s.dr0.toNat ∧
        fieldNumber t b (off + 4) 2 = s.dr1.toNat / 2 ^ 16 ∧ KeepsBytesOutside b off 6 s t ∧ OnlyBuffers s t) ∧
    (∃ t, exec (.wrf b 3) s = .next t ∧
      (t.byte b 14).toNat = s.dr0.toNat % 16 * 16 + (s.byte b 14).toNat % 16 ∧ KeepsBytesOutside b 14 1 s t ∧
      OnlyBuffers s t) ∧
    (∃ t, exec (.wrf b 4) s = .next t ∧
      (t.byte b 14).toNat = (s.byte b 14).toNat / 16 * 16 + s.dr0.toNat % 16 ∧ KeepsBytesOutside b 14 1 s t ∧
      OnlyBuffers s t)

/-- `BUFCLR s` zeroes all bytes of the selected buffer and nothing else (42_codec.md R158). -/
def Obligations.BufclrZeroesTheBuffer : Prop :=
  ∀ (s : State) (b : Buf), ∃ t, exec (.bufclr b) s = .next t ∧ (∀ k < s.params.fbSize, t.byte b k = 0) ∧
    KeepsBytesOutside b 0 s.params.fbSize s t ∧ OnlyBuffers s t

/-- `IPCS s` and `ICMPCS s` store the checksum of the header with its field zeroed, big-endian, in the field, and the header
then validates for both legal seeds (42_codec.md R160, R161; 40_checksum.md R112). -/
def Obligations.HeaderChecksumCommands : Prop :=
  ∀ (s : State) (b : Buf),
    (∃ t, exec (.ipcs b) s = .next t ∧ LatchedFrom (s.memWrite b 24 2 0) t b 14 20 ∧
      t.byte b 24 = t.csRes.extractLsb' 8 8 ∧ t.byte b 25 = t.csRes.extractLsb' 0 8 ∧ KeepsBytesOutside b 24 2 s t ∧
      OnlyBuffersAndChecksum s t ∧ (SeedLegal s → checksumOf t b 14 20 = 0)) ∧
    (∃ t, exec (.icmpcs b) s = .next t ∧ LatchedFrom (s.memWrite b 36 2 0) t b 34 8 ∧
      t.byte b 36 = t.csRes.extractLsb' 8 8 ∧ t.byte b 37 = t.csRes.extractLsb' 0 8 ∧ KeepsBytesOutside b 36 2 s t ∧
      OnlyBuffersAndChecksum s t ∧ (SeedLegal s → checksumOf t b 34 8 = 0))

/-- The frame `MKREPLY t` builds, byte by byte (42_codec.md R166, R167, R169), with everything else unchanged. -/
def Obligations.MkreplyBuildsTheTemplate : Prop :=
  ∀ (s : State) (ty : Byte), 42 ≤ s.params.fbSize →
    ∃ t, exec (.mkreply ty) s = .next t ∧
      t.bytes .tx 0 24 =
        s.bytes .rx 6 6 ++ s.bytes .rx 0 6 ++ [0x08, 0x00, 0x45, 0x00, 0x00, 0x1C] ++ s.bytes .rx 18 2 ++
          [0x00, 0x00, s.params.replyTtl, 0x01] ∧
      t.bytes .tx 24 2 =
        [(checksumOf (t.memWrite .tx 24 2 0) .tx 14 20).extractLsb' 8 8,
          (checksumOf (t.memWrite .tx 24 2 0) .tx 14 20).extractLsb' 0 8] ∧
      t.bytes .tx 26 10 = s.bytes .rx 30 4 ++ s.bytes .rx 26 4 ++ [ty, 0x00] ∧
      t.bytes .tx 36 2 = [t.csRes.extractLsb' 8 8, t.csRes.extractLsb' 0 8] ∧
      t.csRes = checksumOf (t.memWrite .tx 36 2 0) .tx 34 8 ∧
      (s.params.csumSeed = 0 → t.csRes = complementOfFold (ty.toNat * 256 + fieldNumber s .rx 38 2)) ∧
      t.bytes .tx 38 4 = s.bytes .rx 38 2 ++ [0x00, 0x00] ∧
      (∀ k, 42 ≤ k → k < s.params.fbSize → t.byte .tx k = 0) ∧
      t.txLen = 42 ∧ t.txIf = s.rxIf ∧ LatchedFrom (t.memWrite .tx 36 2 0) t .tx 34 8 ∧
      KeepsBytesOutside .tx 0 s.params.fbSize s t ∧
      t = { s with
        txb := t.txb, txLen := t.txLen, txIf := t.txIf, csAcc := t.csAcc, csFold := t.csFold, csOdd := t.csOdd
        csRes := t.csRes, csZero := t.csZero }

/-! ## Forwarding -/

/-- `FWD` on a frame whose header does not validate (43_forward.md R183, R189). -/
def Obligations.FwdDropsABadChecksum : Prop :=
  ∀ s : State, s.built = true → ¬ValidHeader s .rx →
    ∃ t, exec .fwd s = .next t ∧ t.disp = 5 ∧ NothingOut t ∧ LpmNone t ∧ ArpNone t ∧ t.ifHit = false ∧
      LatchedFrom s t .rx 14 20 ∧ SameBytes s t ∧ OnlyForwardState s t ∧ t.txLen = s.txLen ∧ t.txIf = s.txIf

/-- `FWD` on a valid header with TTL 0 or 1 (43_forward.md R185, R189). -/
def Obligations.FwdAnswersAnExpiredTtl : Prop :=
  ∀ s : State, s.built = true → ValidHeader s .rx → (s.byte .rx 22).toNat ≤ 1 →
    ∃ t, exec .fwd s = .next t ∧ t.disp = 3 ∧ ReplyBuilt 11 s t ∧ ReplyOut s t ∧ LpmNone t ∧ ArpNone t ∧
      t.ifHit = false ∧ (∀ k, t.byte .rx k = s.byte .rx k) ∧ OnlyForwardState s t

/-- `FWD` on a valid header with TTL at least 2 when the lookup finds no route (43_forward.md R186, R189). -/
def Obligations.FwdAnswersAMissingRoute : Prop :=
  ∀ s : State, s.built = true → ValidHeader s .rx → 2 ≤ (s.byte .rx 22).toNat → lookup s (destination s) = none →
    ∃ t, exec .fwd s = .next t ∧ t.disp = 4 ∧ ReplyBuilt 3 s t ∧ ReplyOut s t ∧ LpmNone t ∧ ArpNone t ∧
      t.ifHit = false ∧ (∀ k, t.byte .rx k = s.byte .rx k) ∧ OnlyForwardState s t

/-- `FWD` on a routed datagram for one of the router's own addresses (43_forward.md R187, R189). -/
def Obligations.FwdAnswersALocalDestination : Prop :=
  ∀ (s : State) (r : Nat), s.built = true → ValidHeader s .rx → 2 ≤ (s.byte .rx 22).toNat →
    lookup s (destination s) = some r → IsLocal s (destination s) →
    ∃ t, exec .fwd s = .next t ∧ t.disp = 2 ∧ ReplyBuilt 0 s t ∧ ReplyOut s t ∧ LpmIs s t r ∧ ArpNone t ∧
      t.ifHit = true ∧ (∀ k, t.byte .rx k = s.byte .rx k) ∧ OnlyForwardState s t

/-- `FWD` on the forward path (43_forward.md R188, R189): TTL decremented, checksum recomputed in place; on an ARP miss the
frame is dropped with those changes kept, on a hit the destination MAC is overwritten and RXB described for output. -/
def Obligations.FwdForwardsInPlace : Prop :=
  ∀ (s : State) (r : Nat), s.built = true → ValidHeader s .rx → 2 ≤ (s.byte .rx 22).toNat →
    lookup s (destination s) = some r → ¬IsLocal s (destination s) →
    ∃ t, exec .fwd s = .next t ∧ LpmIs s t r ∧ t.ifHit = false ∧
      (t.byte .rx 22).toNat = (s.byte .rx 22).toNat - 1 ∧
      LatchedFrom ((s.writeByte .rx 22 (s.byte .rx 22 - 1)).memWrite .rx 24 2 0) t .rx 14 20 ∧
      t.byte .rx 24 = t.csRes.extractLsb' 8 8 ∧ t.byte .rx 25 = t.csRes.extractLsb' 0 8 ∧
      (∀ k, 6 ≤ k → k ≠ 22 → k ≠ 24 → k ≠ 25 → t.byte .rx k = s.byte .rx k) ∧
      (∀ k, t.byte .tx k = s.byte .tx k) ∧ t.txLen = s.txLen ∧ t.txIf = s.txIf ∧ OnlyForwardState s t ∧
      (NoArp s (destination s) →
        t.disp = 7 ∧ NothingOut t ∧ ArpNone t ∧ ∀ k < 6, t.byte .rx k = s.byte .rx k) ∧
      (∀ j, FirstArp s (destination s) j →
        t.disp = 1 ∧ t.outValid = true ∧ t.outSel = false ∧ t.outLen = s.rxLen ∧ t.outIf = (s.route r).egressIf ∧
          ArpIs s t j ∧ t.bytes .rx 0 6 = (s.arp j).mac.bytes)

/-- `FWD` in the CONFIG phase is refused and changes not even `DISP`; in the RUN phase it completes with one of six
dispositions, sends a frame exactly on four of them, and never touches the error registers (43_forward.md R180, R189,
R190). -/
def Obligations.FwdDispositions : Prop :=
  ∀ s : State,
    (s.built = false → exec .fwd s = refusedAs .fwd 3 s) ∧
    (s.built = true →
      ∃ t, exec .fwd s = .next t ∧ t.disp ∈ [1, 2, 3, 4, 5, 7] ∧ (t.outValid = true ↔ t.disp ∈ [1, 2, 3, 4]) ∧
        t.errs = s.errs ∧ t.errCode = s.errCode ∧ t.errCmd = s.errCmd)

/-- What the block writes validates (40_checksum.md R112; 42_codec.md R167; 43_forward.md R191, last item): after `MKREPLY`,
`CSUM` over the reply's IPv4 header and over its ICMP header gives `CS_ZERO = 1`, and after the forward path the IPv4
header in RXB validates again. -/
def Obligations.WrittenHeadersValidate : Prop :=
  (∀ (s t u v : State) (ty : Byte), SeedLegal s → 42 ≤ s.params.fbSize → exec (.mkreply ty) s = .next t →
    exec (.csum .tx 14 20) t = .next u → exec (.csum .tx 34 8) t = .next v → u.csZero = true ∧ v.csZero = true) ∧
  (∀ s t : State, SeedLegal s → s.built = true → exec .fwd s = .next t → t.disp = 1 ∨ t.disp = 7 → ValidHeader t .rx)

/-- What `FWD` does with a frame is a function of RXB bytes 0 to 41, the tables, the parameters and `RX_IF`, `RX_LEN`
(93_implementation_defined.md U13; 43_forward.md R180, R182): two states that agree on these give the same disposition,
output descriptor, flags, lookup and checksum registers and RXB bytes 0 to 41, and, when a reply is built, the same TXB,
`TX_LEN` and `TX_IF`. -/
def Obligations.FwdDependsOnHeadersAndTables : Prop :=
  ∀ s₁ s₂ t₁ t₂ : State, s₁.built = true → s₂.built = true → s₁.params = s₂.params → s₁.rxIf = s₂.rxIf →
    s₁.rxLen = s₂.rxLen → s₁.rtLen = s₂.rtLen → s₁.atLen = s₂.atLen →
    (∀ i < s₁.rtLen.toNat, s₁.route i = s₂.route i) → (∀ i < s₁.atLen.toNat, s₁.arp i = s₂.arp i) →
    (∀ i < s₁.params.nIf, s₁.iface i = s₂.iface i) → (∀ k < 42, s₁.byte .rx k = s₂.byte .rx k) →
    42 ≤ s₁.params.fbSize → exec .fwd s₁ = .next t₁ → exec .fwd s₂ = .next t₂ →
    t₁.disp = t₂.disp ∧ t₁.outValid = t₂.outValid ∧ t₁.outSel = t₂.outSel ∧ t₁.outLen = t₂.outLen ∧
      t₁.outIf = t₂.outIf ∧ t₁.ifHit = t₂.ifHit ∧
      t₁.lpmHit = t₂.lpmHit ∧ t₁.lpmIdx = t₂.lpmIdx ∧ t₁.lpmPfx = t₂.lpmPfx ∧ t₁.lpmMask = t₂.lpmMask ∧
      t₁.lpmNhop = t₂.lpmNhop ∧ t₁.lpmEif = t₂.lpmEif ∧
      t₁.arpHit = t₂.arpHit ∧ t₁.arpIdx = t₂.arpIdx ∧ t₁.arpIp = t₂.arpIp ∧ t₁.arpMacHi = t₂.arpMacHi ∧
      t₁.arpMacLo = t₂.arpMacLo ∧
      t₁.csAcc = t₂.csAcc ∧ t₁.csFold = t₂.csFold ∧ t₁.csOdd = t₂.csOdd ∧ t₁.csRes = t₂.csRes ∧
      t₁.csZero = t₂.csZero ∧ (∀ k < 42, t₁.byte .rx k = t₂.byte .rx k) ∧
      (t₁.outSel = true →
        t₁.txLen = t₂.txLen ∧ t₁.txIf = t₂.txIf ∧ ∀ k < s₁.params.fbSize, t₁.byte .tx k = t₂.byte .tx k)

/-- Mutation before the ARP check (70_reset_and_hazards.md R242): after a drop for want of an ARP entry, a second `FWD` on
the same buffer processes a different datagram, still valid and with TTL one less: it drops it again, or answers
Time-Exceeded once the TTL has come down to 1. -/
def Obligations.RepeatedFwdWalksTheTtlDown : Prop :=
  ∀ s t : State, SeedLegal s → s.built = true → exec .fwd s = .next t → t.disp = 7 →
    ValidHeader t .rx ∧ (t.byte .rx 22).toNat + 1 = (s.byte .rx 22).toNat ∧
    ∃ u, exec .fwd t = .next u ∧
      ((t.byte .rx 22).toNat = 1 → u.disp = 3) ∧
      (2 ≤ (t.byte .rx 22).toNat → u.disp = 7 ∧ (u.byte .rx 22).toNat + 2 = (s.byte .rx 22).toNat)
end

