-- ==== Sys2Proof/Laws/Encoding.lean ====
section
/-! SUPPORT. The small lemmas of the encoding: each field of a word, and a packed word, as numbers. -/

namespace Sys2Proof

theorem opField_eq (w : Word) : opField w = w.toNat / 2 ^ 26 % 2 ^ 6 := by
  simp only [opField, BitVec.extractLsb'_toNat, Nat.shiftRight_eq_div_pow]

theorem aField_eq (w : Word) : aField w = w.toNat / 2 ^ 12 % 2 ^ 12 := by
  simp only [aField, BitVec.extractLsb'_toNat, Nat.shiftRight_eq_div_pow]

theorem bField_eq (w : Word) : bField w = w.toNat / 2 ^ 0 % 2 ^ 12 := by
  simp only [bField, BitVec.extractLsb'_toNat, Nat.shiftRight_eq_div_pow]

theorem lowBits_eq (w : Word) (n : Nat) : (w.extractLsb' 0 n).toNat = w.toNat % 2 ^ n := by
  simp only [BitVec.extractLsb'_toNat, Nat.shiftRight_zero]

theorem bufField_eq (w : Word) : bufField w = if w.toNat / 2 ^ 25 % 2 = 0 then .rx else .tx := by
  have h : w.extractLsb' 25 1 = 0#1 ↔ w.toNat / 2 ^ 25 % 2 = 0 := by
    rw [← BitVec.toNat_inj, BitVec.extractLsb'_toNat, Nat.shiftRight_eq_div_pow]
    exact Iff.rfl
  by_cases hc : w.extractLsb' 25 1 = 0#1
  · rw [bufField, if_pos hc, if_pos (h.1 hc)]
  · rw [bufField, if_neg hc, if_neg (fun hn => hc (h.2 hn))]

/-- The bits `hi` down to `lo` of a word are zero when the number they make is. -/
theorem zeroBits_iff (w : Word) (hi lo : Nat) :
    zeroBits w hi lo = true ↔ w.toNat / 2 ^ lo % 2 ^ (hi + 1 - lo) = 0 := by
  rw [zeroBits, decide_eq_true_iff, ← BitVec.toNat_inj, BitVec.extractLsb'_toNat, Nat.shiftRight_eq_div_pow]
  simp

theorem toNat_pack (op s a b : Nat) :
    (pack op s a b).toNat = (op * 2 ^ 26 + s * 2 ^ 25 + a * 2 ^ 12 + b) % 2 ^ 32 := by
  simp only [pack, BitVec.toNat_ofNat]

theorem sBit_lt (b : Buf) : b.sBit < 2 := by cases b <;> decide

theorem opField_arith (op s a b : Nat) (ho : op < 64) (hs : s < 2) (ha : a < 4096) (hb : b < 4096) :
    (op * 2 ^ 26 + s * 2 ^ 25 + a * 2 ^ 12 + b) % 2 ^ 32 / 2 ^ 26 % 2 ^ 6 = op := by omega

/-- The opcode field of a packed word whose operands fit. -/
theorem opField_pack (op s a b : Nat) (ho : op < 64) (hs : s < 2) (ha : a < 4096) (hb : b < 4096) :
    opField (pack op s a b) = op := by
  rw [opField_eq, toNat_pack]
  exact opField_arith op s a b ho hs ha hb

end Sys2Proof
end

