-- ==== Sys2Proof/Laws/Store.lean ====
section
/-! SUPPORT. The laws of the sparse arrays: read after write, and every operation keeps the canonical form. -/

namespace Sys2Proof.Machine

variable {α : Type}

@[simp] theorem Store.get?_nil (i : Nat) : Store.get? ([] : Store α) i = none := rfl

/-- Read after write, at every index. -/
theorem Store.get?_put (m : Store α) (a i : Nat) (v : α) :
    Store.get? (Store.put m a v) i = if i = a then some v else Store.get? m i := by
  induction m with
  | nil => simp [Store.put, Store.get?]
  | cons c t ih =>
    obtain ⟨k, w⟩ := c
    simp only [Store.put]
    split_ifs with h1 h2 h3 h3 h3
    all_goals (simp only [Store.get?, ih]; split_ifs <;> first | rfl | omega)

@[simp] theorem Store.get?_put_self (m : Store α) (a : Nat) (v : α) :
    Store.get? (Store.put m a v) a = some v := by simp [Store.get?_put]

/-- What a run of writes leaves at every index. -/
theorem Store.get?_putMany (l : List α) (m : Store α) (a i : Nat) :
    Store.get? (Store.putMany m a l) i =
      if a ≤ i ∧ i < a + l.length then l[i - a]? else Store.get? m i := by
  induction l generalizing m a with
  | nil => simp only [Store.putMany, List.length_nil]; split_ifs <;> first | rfl | omega
  | cons v t ih =>
    simp only [Store.putMany, ih, Store.get?_put, List.length_cons]
    split_ifs with h1 h2 h2 h3 h4
    · obtain ⟨d, rfl⟩ := Nat.exists_eq_add_of_le h1.1
      rw [show a + 1 + d - (a + 1) = d by omega, show a + 1 + d - a = d + 1 by omega]
      simp
    all_goals first | omega | (subst_vars; simp)

/-- The canonical form is strict rising of the indices. -/
theorem Store.wf_iff (m : Store α) : Store.wf m = true ↔ m.Pairwise (fun x y => x.1 < y.1) := by
  induction m with
  | nil => simp [Store.wf]
  | cons c t ih =>
    cases t with
    | nil => simp [Store.wf]
    | cons e t =>
      simp only [Store.wf, Bool.and_eq_true, decide_eq_true_eq, ih]
      constructor
      · rintro ⟨h, ht⟩
        refine List.Pairwise.cons (fun x hx => ?_) ht
        rcases List.mem_cons.1 hx with rfl | hx
        · exact h
        · exact Nat.lt_trans h ((List.pairwise_cons.1 ht).1 x hx)
      · intro h
        have := List.pairwise_cons.1 h
        exact ⟨this.1 e (by simp), this.2⟩

theorem Store.mem_put (m : Store α) (a : Nat) (v : α) {c : Nat × α} (h : c ∈ Store.put m a v) :
    c = (a, v) ∨ c ∈ m := by
  induction m with
  | nil => simpa [Store.put] using h
  | cons e t ih =>
    obtain ⟨k, w⟩ := e
    simp only [Store.put] at h
    split_ifs at h <;> simp only [List.mem_cons] at h ⊢
    · tauto
    · tauto
    · rcases h with h | h
      · tauto
      · rcases ih h with h | h <;> tauto

/-- A write keeps the canonical form. -/
theorem Store.wf_put (m : Store α) (a : Nat) (v : α) (h : Store.wf m = true) :
    Store.wf (Store.put m a v) = true := by
  rw [Store.wf_iff] at h ⊢
  induction m with
  | nil => simp [Store.put]
  | cons e t ih =>
    obtain ⟨k, w⟩ := e
    have ⟨h1, h2⟩ := List.pairwise_cons.1 h
    simp only [Store.put]
    split_ifs with hlt heq
    · refine List.pairwise_cons.2 ⟨fun x hx => ?_, h⟩
      rcases List.mem_cons.1 hx with rfl | hx
      · exact hlt
      · exact Nat.lt_trans hlt (h1 x hx)
    · subst heq
      exact List.pairwise_cons.2 ⟨h1, h2⟩
    · refine List.pairwise_cons.2 ⟨fun x hx => ?_, ih h2⟩
      rcases Store.mem_put t a v hx with rfl | hx
      · show k < a; omega
      · exact h1 x hx

theorem Store.wf_putMany (l : List α) (m : Store α) (a : Nat) (h : Store.wf m = true) :
    Store.wf (Store.putMany m a l) = true := by
  induction l generalizing m a with
  | nil => exact h
  | cons v t ih => exact ih _ _ (Store.wf_put m a v h)

theorem Store.below_put (m : Store α) (a n : Nat) (v : α) (h : Store.Below m n) (ha : a < n) :
    Store.Below (Store.put m a v) n := by
  intro c hc
  rcases Store.mem_put m a v hc with rfl | hc
  · exact ha
  · exact h c hc

theorem Store.below_putMany (l : List α) (m : Store α) (a n : Nat) (h : Store.Below m n)
    (ha : a + l.length ≤ n) : Store.Below (Store.putMany m a l) n := by
  induction l generalizing m a with
  | nil => exact h
  | cons v t ih =>
    rw [List.length_cons] at ha
    exact ih _ _ (Store.below_put m a n v h (by omega)) (by omega)

theorem Store.get?_fromIndex (l : List α) (a i : Nat) :
    Store.get? (Store.fromIndex a l) i = if a ≤ i then l[i - a]? else none := by
  induction l generalizing a with
  | nil => simp [Store.fromIndex]
  | cons v t ih =>
    simp only [Store.fromIndex, Store.get?, ih]
    split_ifs with h1 h2 h3 h4 h5
    · simp [h1]
    · omega
    · obtain ⟨d, rfl⟩ := Nat.exists_eq_add_of_le h3
      rw [show a + 1 + d - (a + 1) = d by omega, show a + 1 + d - a = d + 1 by omega]
      simp
    all_goals first | omega | rfl

theorem Store.get?_append (m m' : Store α) (i : Nat) :
    Store.get? (m ++ m') i = (Store.get? m i).or (Store.get? m' i) := by
  induction m with
  | nil => simp
  | cons e t ih =>
    obtain ⟨k, w⟩ := e
    simp only [List.cons_append, Store.get?, ih]
    split_ifs <;> simp

theorem Store.get?_filter_ge (m : Store α) (n i : Nat) :
    Store.get? (m.filter (fun c => decide (n ≤ c.1))) i = if n ≤ i then Store.get? m i else none := by
  induction m with
  | nil => simp
  | cons e t ih =>
    obtain ⟨k, w⟩ := e
    by_cases hk : n ≤ k
    · simp only [List.filter_cons, hk, decide_true, if_true, Store.get?, ih]
      split_ifs <;> first | rfl | omega
    · simp only [List.filter_cons, hk, decide_false, Bool.false_eq_true, if_false, Store.get?, ih]
      split_ifs <;> first | rfl | omega

/-- What overwriting the front leaves at every index. -/
theorem Store.get?_replaceFront (m : Store α) (l : List α) (i : Nat) :
    Store.get? (Store.replaceFront m l) i = if i < l.length then l[i]? else Store.get? m i := by
  simp only [Store.replaceFront, Store.get?_append, Store.get?_fromIndex, Store.get?_filter_ge,
    Nat.zero_le, if_true, Nat.sub_zero]
  split_ifs with h1 h2 h2
  · omega
  · rw [List.getElem?_eq_none h1]; rfl
  · simp
  · omega

theorem Store.mem_fromIndex (l : List α) (a : Nat) {c : Nat × α} (h : c ∈ Store.fromIndex a l) :
    a ≤ c.1 ∧ c.1 < a + l.length := by
  induction l generalizing a with
  | nil => simp [Store.fromIndex] at h
  | cons v t ih =>
    simp only [Store.fromIndex, List.mem_cons] at h
    rw [List.length_cons]
    rcases h with rfl | h
    · simp
    · have := ih (a + 1) h
      omega

theorem Store.pairwise_fromIndex (l : List α) (a : Nat) :
    (Store.fromIndex a l).Pairwise (fun x y => x.1 < y.1) := by
  induction l generalizing a with
  | nil => simp [Store.fromIndex]
  | cons v t ih =>
    refine List.pairwise_cons.2 ⟨fun x hx => ?_, ih (a + 1)⟩
    exact (Store.mem_fromIndex t (a + 1) hx).1

theorem Store.wf_replaceFront (m : Store α) (l : List α) (h : Store.wf m = true) :
    Store.wf (Store.replaceFront m l) = true := by
  rw [Store.wf_iff] at h ⊢
  refine List.pairwise_append.2 ⟨Store.pairwise_fromIndex l 0, h.filter _, fun x hx y hy => ?_⟩
  have h1 := (Store.mem_fromIndex l 0 hx).2
  have h2 := (List.mem_filter.1 hy).2
  simp only [decide_eq_true_eq] at h2
  omega

theorem Store.below_replaceFront (m : Store α) (l : List α) (n : Nat) (h : Store.Below m n)
    (hl : l.length ≤ n) : Store.Below (Store.replaceFront m l) n := by
  intro c hc
  rcases List.mem_append.1 hc with hc | hc
  · have := (Store.mem_fromIndex l 0 hc).2
    omega
  · exact h c (List.mem_filter.1 hc).1

end Sys2Proof.Machine
end

