-- ==== Sys2Proof/Laws/State.lean ====
section
/-! SUPPORT. One lemma per field per update of the state, so that no later proof unfolds a record update. -/

namespace Sys2Proof.Machine


/-! `State.setBuf` writes one buffer and no other field. -/

@[simp] theorem State.setBuf_dr0 (s : State) (b : Buf) (m : Memory) : (s.setBuf b m).dr0 = s.dr0 := by cases b <;> rfl
@[simp] theorem State.setBuf_dr1 (s : State) (b : Buf) (m : Memory) : (s.setBuf b m).dr1 = s.dr1 := by cases b <;> rfl
@[simp] theorem State.setBuf_dr2 (s : State) (b : Buf) (m : Memory) : (s.setBuf b m).dr2 = s.dr2 := by cases b <;> rfl
@[simp] theorem State.setBuf_dr3 (s : State) (b : Buf) (m : Memory) : (s.setBuf b m).dr3 = s.dr3 := by cases b <;> rfl
@[simp] theorem State.setBuf_built (s : State) (b : Buf) (m : Memory) :
    (s.setBuf b m).built = s.built := by cases b <;> rfl
@[simp] theorem State.setBuf_errs (s : State) (b : Buf) (m : Memory) :
    (s.setBuf b m).errs = s.errs := by cases b <;> rfl
@[simp] theorem State.setBuf_csZero (s : State) (b : Buf) (m : Memory) :
    (s.setBuf b m).csZero = s.csZero := by cases b <;> rfl
@[simp] theorem State.setBuf_csOdd (s : State) (b : Buf) (m : Memory) :
    (s.setBuf b m).csOdd = s.csOdd := by cases b <;> rfl
@[simp] theorem State.setBuf_lpmHit (s : State) (b : Buf) (m : Memory) :
    (s.setBuf b m).lpmHit = s.lpmHit := by cases b <;> rfl
@[simp] theorem State.setBuf_arpHit (s : State) (b : Buf) (m : Memory) :
    (s.setBuf b m).arpHit = s.arpHit := by cases b <;> rfl
@[simp] theorem State.setBuf_ifHit (s : State) (b : Buf) (m : Memory) :
    (s.setBuf b m).ifHit = s.ifHit := by cases b <;> rfl
@[simp] theorem State.setBuf_outValid (s : State) (b : Buf) (m : Memory) :
    (s.setBuf b m).outValid = s.outValid := by cases b <;> rfl
@[simp] theorem State.setBuf_outSel (s : State) (b : Buf) (m : Memory) :
    (s.setBuf b m).outSel = s.outSel := by cases b <;> rfl
@[simp] theorem State.setBuf_errCode (s : State) (b : Buf) (m : Memory) :
    (s.setBuf b m).errCode = s.errCode := by cases b <;> rfl
@[simp] theorem State.setBuf_errCmd (s : State) (b : Buf) (m : Memory) :
    (s.setBuf b m).errCmd = s.errCmd := by cases b <;> rfl
@[simp] theorem State.setBuf_rxLen (s : State) (b : Buf) (m : Memory) :
    (s.setBuf b m).rxLen = s.rxLen := by cases b <;> rfl
@[simp] theorem State.setBuf_rxIf (s : State) (b : Buf) (m : Memory) :
    (s.setBuf b m).rxIf = s.rxIf := by cases b <;> rfl
@[simp] theorem State.setBuf_txLen (s : State) (b : Buf) (m : Memory) :
    (s.setBuf b m).txLen = s.txLen := by cases b <;> rfl
@[simp] theorem State.setBuf_txIf (s : State) (b : Buf) (m : Memory) :
    (s.setBuf b m).txIf = s.txIf := by cases b <;> rfl
@[simp] theorem State.setBuf_rtLen (s : State) (b : Buf) (m : Memory) :
    (s.setBuf b m).rtLen = s.rtLen := by cases b <;> rfl
@[simp] theorem State.setBuf_atLen (s : State) (b : Buf) (m : Memory) :
    (s.setBuf b m).atLen = s.atLen := by cases b <;> rfl
@[simp] theorem State.setBuf_csRes (s : State) (b : Buf) (m : Memory) :
    (s.setBuf b m).csRes = s.csRes := by cases b <;> rfl
@[simp] theorem State.setBuf_csFold (s : State) (b : Buf) (m : Memory) :
    (s.setBuf b m).csFold = s.csFold := by cases b <;> rfl
@[simp] theorem State.setBuf_csAcc (s : State) (b : Buf) (m : Memory) :
    (s.setBuf b m).csAcc = s.csAcc := by cases b <;> rfl
@[simp] theorem State.setBuf_lpmIdx (s : State) (b : Buf) (m : Memory) :
    (s.setBuf b m).lpmIdx = s.lpmIdx := by cases b <;> rfl
@[simp] theorem State.setBuf_lpmPfx (s : State) (b : Buf) (m : Memory) :
    (s.setBuf b m).lpmPfx = s.lpmPfx := by cases b <;> rfl
@[simp] theorem State.setBuf_lpmMask (s : State) (b : Buf) (m : Memory) :
    (s.setBuf b m).lpmMask = s.lpmMask := by cases b <;> rfl
@[simp] theorem State.setBuf_lpmNhop (s : State) (b : Buf) (m : Memory) :
    (s.setBuf b m).lpmNhop = s.lpmNhop := by cases b <;> rfl
@[simp] theorem State.setBuf_lpmEif (s : State) (b : Buf) (m : Memory) :
    (s.setBuf b m).lpmEif = s.lpmEif := by cases b <;> rfl
@[simp] theorem State.setBuf_arpIdx (s : State) (b : Buf) (m : Memory) :
    (s.setBuf b m).arpIdx = s.arpIdx := by cases b <;> rfl
@[simp] theorem State.setBuf_arpIp (s : State) (b : Buf) (m : Memory) :
    (s.setBuf b m).arpIp = s.arpIp := by cases b <;> rfl
@[simp] theorem State.setBuf_arpMacHi (s : State) (b : Buf) (m : Memory) :
    (s.setBuf b m).arpMacHi = s.arpMacHi := by cases b <;> rfl
@[simp] theorem State.setBuf_arpMacLo (s : State) (b : Buf) (m : Memory) :
    (s.setBuf b m).arpMacLo = s.arpMacLo := by cases b <;> rfl
@[simp] theorem State.setBuf_disp (s : State) (b : Buf) (m : Memory) :
    (s.setBuf b m).disp = s.disp := by cases b <;> rfl
@[simp] theorem State.setBuf_outLen (s : State) (b : Buf) (m : Memory) :
    (s.setBuf b m).outLen = s.outLen := by cases b <;> rfl
@[simp] theorem State.setBuf_outIf (s : State) (b : Buf) (m : Memory) :
    (s.setBuf b m).outIf = s.outIf := by cases b <;> rfl
@[simp] theorem State.setBuf_rt (s : State) (b : Buf) (m : Memory) : (s.setBuf b m).rt = s.rt := by cases b <;> rfl
@[simp] theorem State.setBuf_arpt (s : State) (b : Buf) (m : Memory) :
    (s.setBuf b m).arpt = s.arpt := by cases b <;> rfl
@[simp] theorem State.setBuf_ifa (s : State) (b : Buf) (m : Memory) : (s.setBuf b m).ifa = s.ifa := by cases b <;> rfl
@[simp] theorem State.setBuf_params (s : State) (b : Buf) (m : Memory) :
    (s.setBuf b m).params = s.params := by cases b <;> rfl
@[simp] theorem State.setBuf_powerUps (s : State) (b : Buf) (m : Memory) :
    (s.setBuf b m).powerUps = s.powerUps := by cases b <;> rfl
@[simp] theorem State.setBuf_builds (s : State) (b : Buf) (m : Memory) :
    (s.setBuf b m).builds = s.builds := by cases b <;> rfl
@[simp] theorem State.setBuf_script (s : State) (b : Buf) (m : Memory) :
    (s.setBuf b m).script = s.script := by cases b <;> rfl
@[simp] theorem State.setBuf_resp (s : State) (b : Buf) (m : Memory) :
    (s.setBuf b m).resp = s.resp := by cases b <;> rfl
@[simp] theorem State.setBuf_route (s : State) (b : Buf) (m : Memory) (k : Nat) :
    (s.setBuf b m).route k = s.route k := by cases b <;> rfl
@[simp] theorem State.setBuf_arp (s : State) (b : Buf) (m : Memory) (k : Nat) :
    (s.setBuf b m).arp k = s.arp k := by cases b <;> rfl
@[simp] theorem State.setBuf_iface (s : State) (b : Buf) (m : Memory) (k : Nat) :
    (s.setBuf b m).iface k = s.iface k := by cases b <;> rfl

/-! `State.writeByte` writes one buffer and no other field. -/

@[simp] theorem State.writeByte_dr0 (s : State) (b : Buf) (i : Nat) (v : Byte) :
    (s.writeByte b i v).dr0 = s.dr0 := by cases b <;> rfl
@[simp] theorem State.writeByte_dr1 (s : State) (b : Buf) (i : Nat) (v : Byte) :
    (s.writeByte b i v).dr1 = s.dr1 := by cases b <;> rfl
@[simp] theorem State.writeByte_dr2 (s : State) (b : Buf) (i : Nat) (v : Byte) :
    (s.writeByte b i v).dr2 = s.dr2 := by cases b <;> rfl
@[simp] theorem State.writeByte_dr3 (s : State) (b : Buf) (i : Nat) (v : Byte) :
    (s.writeByte b i v).dr3 = s.dr3 := by cases b <;> rfl
@[simp] theorem State.writeByte_built (s : State) (b : Buf) (i : Nat) (v : Byte) :
    (s.writeByte b i v).built = s.built := by cases b <;> rfl
@[simp] theorem State.writeByte_errs (s : State) (b : Buf) (i : Nat) (v : Byte) :
    (s.writeByte b i v).errs = s.errs := by cases b <;> rfl
@[simp] theorem State.writeByte_csZero (s : State) (b : Buf) (i : Nat) (v : Byte) :
    (s.writeByte b i v).csZero = s.csZero := by cases b <;> rfl
@[simp] theorem State.writeByte_csOdd (s : State) (b : Buf) (i : Nat) (v : Byte) :
    (s.writeByte b i v).csOdd = s.csOdd := by cases b <;> rfl
@[simp] theorem State.writeByte_lpmHit (s : State) (b : Buf) (i : Nat) (v : Byte) :
    (s.writeByte b i v).lpmHit = s.lpmHit := by cases b <;> rfl
@[simp] theorem State.writeByte_arpHit (s : State) (b : Buf) (i : Nat) (v : Byte) :
    (s.writeByte b i v).arpHit = s.arpHit := by cases b <;> rfl
@[simp] theorem State.writeByte_ifHit (s : State) (b : Buf) (i : Nat) (v : Byte) :
    (s.writeByte b i v).ifHit = s.ifHit := by cases b <;> rfl
@[simp] theorem State.writeByte_outValid (s : State) (b : Buf) (i : Nat) (v : Byte) :
    (s.writeByte b i v).outValid = s.outValid := by cases b <;> rfl
@[simp] theorem State.writeByte_outSel (s : State) (b : Buf) (i : Nat) (v : Byte) :
    (s.writeByte b i v).outSel = s.outSel := by cases b <;> rfl
@[simp] theorem State.writeByte_errCode (s : State) (b : Buf) (i : Nat) (v : Byte) :
    (s.writeByte b i v).errCode = s.errCode := by cases b <;> rfl
@[simp] theorem State.writeByte_errCmd (s : State) (b : Buf) (i : Nat) (v : Byte) :
    (s.writeByte b i v).errCmd = s.errCmd := by cases b <;> rfl
@[simp] theorem State.writeByte_rxLen (s : State) (b : Buf) (i : Nat) (v : Byte) :
    (s.writeByte b i v).rxLen = s.rxLen := by cases b <;> rfl
@[simp] theorem State.writeByte_rxIf (s : State) (b : Buf) (i : Nat) (v : Byte) :
    (s.writeByte b i v).rxIf = s.rxIf := by cases b <;> rfl
@[simp] theorem State.writeByte_txLen (s : State) (b : Buf) (i : Nat) (v : Byte) :
    (s.writeByte b i v).txLen = s.txLen := by cases b <;> rfl
@[simp] theorem State.writeByte_txIf (s : State) (b : Buf) (i : Nat) (v : Byte) :
    (s.writeByte b i v).txIf = s.txIf := by cases b <;> rfl
@[simp] theorem State.writeByte_rtLen (s : State) (b : Buf) (i : Nat) (v : Byte) :
    (s.writeByte b i v).rtLen = s.rtLen := by cases b <;> rfl
@[simp] theorem State.writeByte_atLen (s : State) (b : Buf) (i : Nat) (v : Byte) :
    (s.writeByte b i v).atLen = s.atLen := by cases b <;> rfl
@[simp] theorem State.writeByte_csRes (s : State) (b : Buf) (i : Nat) (v : Byte) :
    (s.writeByte b i v).csRes = s.csRes := by cases b <;> rfl
@[simp] theorem State.writeByte_csFold (s : State) (b : Buf) (i : Nat) (v : Byte) :
    (s.writeByte b i v).csFold = s.csFold := by cases b <;> rfl
@[simp] theorem State.writeByte_csAcc (s : State) (b : Buf) (i : Nat) (v : Byte) :
    (s.writeByte b i v).csAcc = s.csAcc := by cases b <;> rfl
@[simp] theorem State.writeByte_lpmIdx (s : State) (b : Buf) (i : Nat) (v : Byte) :
    (s.writeByte b i v).lpmIdx = s.lpmIdx := by cases b <;> rfl
@[simp] theorem State.writeByte_lpmPfx (s : State) (b : Buf) (i : Nat) (v : Byte) :
    (s.writeByte b i v).lpmPfx = s.lpmPfx := by cases b <;> rfl
@[simp] theorem State.writeByte_lpmMask (s : State) (b : Buf) (i : Nat) (v : Byte) :
    (s.writeByte b i v).lpmMask = s.lpmMask := by cases b <;> rfl
@[simp] theorem State.writeByte_lpmNhop (s : State) (b : Buf) (i : Nat) (v : Byte) :
    (s.writeByte b i v).lpmNhop = s.lpmNhop := by cases b <;> rfl
@[simp] theorem State.writeByte_lpmEif (s : State) (b : Buf) (i : Nat) (v : Byte) :
    (s.writeByte b i v).lpmEif = s.lpmEif := by cases b <;> rfl
@[simp] theorem State.writeByte_arpIdx (s : State) (b : Buf) (i : Nat) (v : Byte) :
    (s.writeByte b i v).arpIdx = s.arpIdx := by cases b <;> rfl
@[simp] theorem State.writeByte_arpIp (s : State) (b : Buf) (i : Nat) (v : Byte) :
    (s.writeByte b i v).arpIp = s.arpIp := by cases b <;> rfl
@[simp] theorem State.writeByte_arpMacHi (s : State) (b : Buf) (i : Nat) (v : Byte) :
    (s.writeByte b i v).arpMacHi = s.arpMacHi := by cases b <;> rfl
@[simp] theorem State.writeByte_arpMacLo (s : State) (b : Buf) (i : Nat) (v : Byte) :
    (s.writeByte b i v).arpMacLo = s.arpMacLo := by cases b <;> rfl
@[simp] theorem State.writeByte_disp (s : State) (b : Buf) (i : Nat) (v : Byte) :
    (s.writeByte b i v).disp = s.disp := by cases b <;> rfl
@[simp] theorem State.writeByte_outLen (s : State) (b : Buf) (i : Nat) (v : Byte) :
    (s.writeByte b i v).outLen = s.outLen := by cases b <;> rfl
@[simp] theorem State.writeByte_outIf (s : State) (b : Buf) (i : Nat) (v : Byte) :
    (s.writeByte b i v).outIf = s.outIf := by cases b <;> rfl
@[simp] theorem State.writeByte_rt (s : State) (b : Buf) (i : Nat) (v : Byte) :
    (s.writeByte b i v).rt = s.rt := by cases b <;> rfl
@[simp] theorem State.writeByte_arpt (s : State) (b : Buf) (i : Nat) (v : Byte) :
    (s.writeByte b i v).arpt = s.arpt := by cases b <;> rfl
@[simp] theorem State.writeByte_ifa (s : State) (b : Buf) (i : Nat) (v : Byte) :
    (s.writeByte b i v).ifa = s.ifa := by cases b <;> rfl
@[simp] theorem State.writeByte_params (s : State) (b : Buf) (i : Nat) (v : Byte) :
    (s.writeByte b i v).params = s.params := by cases b <;> rfl
@[simp] theorem State.writeByte_powerUps (s : State) (b : Buf) (i : Nat) (v : Byte) :
    (s.writeByte b i v).powerUps = s.powerUps := by cases b <;> rfl
@[simp] theorem State.writeByte_builds (s : State) (b : Buf) (i : Nat) (v : Byte) :
    (s.writeByte b i v).builds = s.builds := by cases b <;> rfl
@[simp] theorem State.writeByte_script (s : State) (b : Buf) (i : Nat) (v : Byte) :
    (s.writeByte b i v).script = s.script := by cases b <;> rfl
@[simp] theorem State.writeByte_resp (s : State) (b : Buf) (i : Nat) (v : Byte) :
    (s.writeByte b i v).resp = s.resp := by cases b <;> rfl
@[simp] theorem State.writeByte_route (s : State) (b : Buf) (i : Nat) (v : Byte) (k : Nat) :
    (s.writeByte b i v).route k = s.route k := by cases b <;> rfl
@[simp] theorem State.writeByte_arp (s : State) (b : Buf) (i : Nat) (v : Byte) (k : Nat) :
    (s.writeByte b i v).arp k = s.arp k := by cases b <;> rfl
@[simp] theorem State.writeByte_iface (s : State) (b : Buf) (i : Nat) (v : Byte) (k : Nat) :
    (s.writeByte b i v).iface k = s.iface k := by cases b <;> rfl

/-! `State.writeBytes` writes one buffer and no other field. -/

@[simp] theorem State.writeBytes_dr0 (s : State) (b : Buf) (a : Nat) (l : List Byte) :
    (s.writeBytes b a l).dr0 = s.dr0 := by cases b <;> rfl
@[simp] theorem State.writeBytes_dr1 (s : State) (b : Buf) (a : Nat) (l : List Byte) :
    (s.writeBytes b a l).dr1 = s.dr1 := by cases b <;> rfl
@[simp] theorem State.writeBytes_dr2 (s : State) (b : Buf) (a : Nat) (l : List Byte) :
    (s.writeBytes b a l).dr2 = s.dr2 := by cases b <;> rfl
@[simp] theorem State.writeBytes_dr3 (s : State) (b : Buf) (a : Nat) (l : List Byte) :
    (s.writeBytes b a l).dr3 = s.dr3 := by cases b <;> rfl
@[simp] theorem State.writeBytes_built (s : State) (b : Buf) (a : Nat) (l : List Byte) :
    (s.writeBytes b a l).built = s.built := by cases b <;> rfl
@[simp] theorem State.writeBytes_errs (s : State) (b : Buf) (a : Nat) (l : List Byte) :
    (s.writeBytes b a l).errs = s.errs := by cases b <;> rfl
@[simp] theorem State.writeBytes_csZero (s : State) (b : Buf) (a : Nat) (l : List Byte) :
    (s.writeBytes b a l).csZero = s.csZero := by cases b <;> rfl
@[simp] theorem State.writeBytes_csOdd (s : State) (b : Buf) (a : Nat) (l : List Byte) :
    (s.writeBytes b a l).csOdd = s.csOdd := by cases b <;> rfl
@[simp] theorem State.writeBytes_lpmHit (s : State) (b : Buf) (a : Nat) (l : List Byte) :
    (s.writeBytes b a l).lpmHit = s.lpmHit := by cases b <;> rfl
@[simp] theorem State.writeBytes_arpHit (s : State) (b : Buf) (a : Nat) (l : List Byte) :
    (s.writeBytes b a l).arpHit = s.arpHit := by cases b <;> rfl
@[simp] theorem State.writeBytes_ifHit (s : State) (b : Buf) (a : Nat) (l : List Byte) :
    (s.writeBytes b a l).ifHit = s.ifHit := by cases b <;> rfl
@[simp] theorem State.writeBytes_outValid (s : State) (b : Buf) (a : Nat) (l : List Byte) :
    (s.writeBytes b a l).outValid = s.outValid := by cases b <;> rfl
@[simp] theorem State.writeBytes_outSel (s : State) (b : Buf) (a : Nat) (l : List Byte) :
    (s.writeBytes b a l).outSel = s.outSel := by cases b <;> rfl
@[simp] theorem State.writeBytes_errCode (s : State) (b : Buf) (a : Nat) (l : List Byte) :
    (s.writeBytes b a l).errCode = s.errCode := by cases b <;> rfl
@[simp] theorem State.writeBytes_errCmd (s : State) (b : Buf) (a : Nat) (l : List Byte) :
    (s.writeBytes b a l).errCmd = s.errCmd := by cases b <;> rfl
@[simp] theorem State.writeBytes_rxLen (s : State) (b : Buf) (a : Nat) (l : List Byte) :
    (s.writeBytes b a l).rxLen = s.rxLen := by cases b <;> rfl
@[simp] theorem State.writeBytes_rxIf (s : State) (b : Buf) (a : Nat) (l : List Byte) :
    (s.writeBytes b a l).rxIf = s.rxIf := by cases b <;> rfl
@[simp] theorem State.writeBytes_txLen (s : State) (b : Buf) (a : Nat) (l : List Byte) :
    (s.writeBytes b a l).txLen = s.txLen := by cases b <;> rfl
@[simp] theorem State.writeBytes_txIf (s : State) (b : Buf) (a : Nat) (l : List Byte) :
    (s.writeBytes b a l).txIf = s.txIf := by cases b <;> rfl
@[simp] theorem State.writeBytes_rtLen (s : State) (b : Buf) (a : Nat) (l : List Byte) :
    (s.writeBytes b a l).rtLen = s.rtLen := by cases b <;> rfl
@[simp] theorem State.writeBytes_atLen (s : State) (b : Buf) (a : Nat) (l : List Byte) :
    (s.writeBytes b a l).atLen = s.atLen := by cases b <;> rfl
@[simp] theorem State.writeBytes_csRes (s : State) (b : Buf) (a : Nat) (l : List Byte) :
    (s.writeBytes b a l).csRes = s.csRes := by cases b <;> rfl
@[simp] theorem State.writeBytes_csFold (s : State) (b : Buf) (a : Nat) (l : List Byte) :
    (s.writeBytes b a l).csFold = s.csFold := by cases b <;> rfl
@[simp] theorem State.writeBytes_csAcc (s : State) (b : Buf) (a : Nat) (l : List Byte) :
    (s.writeBytes b a l).csAcc = s.csAcc := by cases b <;> rfl
@[simp] theorem State.writeBytes_lpmIdx (s : State) (b : Buf) (a : Nat) (l : List Byte) :
    (s.writeBytes b a l).lpmIdx = s.lpmIdx := by cases b <;> rfl
@[simp] theorem State.writeBytes_lpmPfx (s : State) (b : Buf) (a : Nat) (l : List Byte) :
    (s.writeBytes b a l).lpmPfx = s.lpmPfx := by cases b <;> rfl
@[simp] theorem State.writeBytes_lpmMask (s : State) (b : Buf) (a : Nat) (l : List Byte) :
    (s.writeBytes b a l).lpmMask = s.lpmMask := by cases b <;> rfl
@[simp] theorem State.writeBytes_lpmNhop (s : State) (b : Buf) (a : Nat) (l : List Byte) :
    (s.writeBytes b a l).lpmNhop = s.lpmNhop := by cases b <;> rfl
@[simp] theorem State.writeBytes_lpmEif (s : State) (b : Buf) (a : Nat) (l : List Byte) :
    (s.writeBytes b a l).lpmEif = s.lpmEif := by cases b <;> rfl
@[simp] theorem State.writeBytes_arpIdx (s : State) (b : Buf) (a : Nat) (l : List Byte) :
    (s.writeBytes b a l).arpIdx = s.arpIdx := by cases b <;> rfl
@[simp] theorem State.writeBytes_arpIp (s : State) (b : Buf) (a : Nat) (l : List Byte) :
    (s.writeBytes b a l).arpIp = s.arpIp := by cases b <;> rfl
@[simp] theorem State.writeBytes_arpMacHi (s : State) (b : Buf) (a : Nat) (l : List Byte) :
    (s.writeBytes b a l).arpMacHi = s.arpMacHi := by cases b <;> rfl
@[simp] theorem State.writeBytes_arpMacLo (s : State) (b : Buf) (a : Nat) (l : List Byte) :
    (s.writeBytes b a l).arpMacLo = s.arpMacLo := by cases b <;> rfl
@[simp] theorem State.writeBytes_disp (s : State) (b : Buf) (a : Nat) (l : List Byte) :
    (s.writeBytes b a l).disp = s.disp := by cases b <;> rfl
@[simp] theorem State.writeBytes_outLen (s : State) (b : Buf) (a : Nat) (l : List Byte) :
    (s.writeBytes b a l).outLen = s.outLen := by cases b <;> rfl
@[simp] theorem State.writeBytes_outIf (s : State) (b : Buf) (a : Nat) (l : List Byte) :
    (s.writeBytes b a l).outIf = s.outIf := by cases b <;> rfl
@[simp] theorem State.writeBytes_rt (s : State) (b : Buf) (a : Nat) (l : List Byte) :
    (s.writeBytes b a l).rt = s.rt := by cases b <;> rfl
@[simp] theorem State.writeBytes_arpt (s : State) (b : Buf) (a : Nat) (l : List Byte) :
    (s.writeBytes b a l).arpt = s.arpt := by cases b <;> rfl
@[simp] theorem State.writeBytes_ifa (s : State) (b : Buf) (a : Nat) (l : List Byte) :
    (s.writeBytes b a l).ifa = s.ifa := by cases b <;> rfl
@[simp] theorem State.writeBytes_params (s : State) (b : Buf) (a : Nat) (l : List Byte) :
    (s.writeBytes b a l).params = s.params := by cases b <;> rfl
@[simp] theorem State.writeBytes_powerUps (s : State) (b : Buf) (a : Nat) (l : List Byte) :
    (s.writeBytes b a l).powerUps = s.powerUps := by cases b <;> rfl
@[simp] theorem State.writeBytes_builds (s : State) (b : Buf) (a : Nat) (l : List Byte) :
    (s.writeBytes b a l).builds = s.builds := by cases b <;> rfl
@[simp] theorem State.writeBytes_script (s : State) (b : Buf) (a : Nat) (l : List Byte) :
    (s.writeBytes b a l).script = s.script := by cases b <;> rfl
@[simp] theorem State.writeBytes_resp (s : State) (b : Buf) (a : Nat) (l : List Byte) :
    (s.writeBytes b a l).resp = s.resp := by cases b <;> rfl
@[simp] theorem State.writeBytes_route (s : State) (b : Buf) (a : Nat) (l : List Byte) (k : Nat) :
    (s.writeBytes b a l).route k = s.route k := by cases b <;> rfl
@[simp] theorem State.writeBytes_arp (s : State) (b : Buf) (a : Nat) (l : List Byte) (k : Nat) :
    (s.writeBytes b a l).arp k = s.arp k := by cases b <;> rfl
@[simp] theorem State.writeBytes_iface (s : State) (b : Buf) (a : Nat) (l : List Byte) (k : Nat) :
    (s.writeBytes b a l).iface k = s.iface k := by cases b <;> rfl

/-! `State.memWrite` writes one buffer and no other field. -/

@[simp] theorem State.memWrite_dr0 (s : State) (b : Buf) (a n : Nat) (v : Word) :
    (s.memWrite b a n v).dr0 = s.dr0 := by cases b <;> rfl
@[simp] theorem State.memWrite_dr1 (s : State) (b : Buf) (a n : Nat) (v : Word) :
    (s.memWrite b a n v).dr1 = s.dr1 := by cases b <;> rfl
@[simp] theorem State.memWrite_dr2 (s : State) (b : Buf) (a n : Nat) (v : Word) :
    (s.memWrite b a n v).dr2 = s.dr2 := by cases b <;> rfl
@[simp] theorem State.memWrite_dr3 (s : State) (b : Buf) (a n : Nat) (v : Word) :
    (s.memWrite b a n v).dr3 = s.dr3 := by cases b <;> rfl
@[simp] theorem State.memWrite_built (s : State) (b : Buf) (a n : Nat) (v : Word) :
    (s.memWrite b a n v).built = s.built := by cases b <;> rfl
@[simp] theorem State.memWrite_errs (s : State) (b : Buf) (a n : Nat) (v : Word) :
    (s.memWrite b a n v).errs = s.errs := by cases b <;> rfl
@[simp] theorem State.memWrite_csZero (s : State) (b : Buf) (a n : Nat) (v : Word) :
    (s.memWrite b a n v).csZero = s.csZero := by cases b <;> rfl
@[simp] theorem State.memWrite_csOdd (s : State) (b : Buf) (a n : Nat) (v : Word) :
    (s.memWrite b a n v).csOdd = s.csOdd := by cases b <;> rfl
@[simp] theorem State.memWrite_lpmHit (s : State) (b : Buf) (a n : Nat) (v : Word) :
    (s.memWrite b a n v).lpmHit = s.lpmHit := by cases b <;> rfl
@[simp] theorem State.memWrite_arpHit (s : State) (b : Buf) (a n : Nat) (v : Word) :
    (s.memWrite b a n v).arpHit = s.arpHit := by cases b <;> rfl
@[simp] theorem State.memWrite_ifHit (s : State) (b : Buf) (a n : Nat) (v : Word) :
    (s.memWrite b a n v).ifHit = s.ifHit := by cases b <;> rfl
@[simp] theorem State.memWrite_outValid (s : State) (b : Buf) (a n : Nat) (v : Word) :
    (s.memWrite b a n v).outValid = s.outValid := by cases b <;> rfl
@[simp] theorem State.memWrite_outSel (s : State) (b : Buf) (a n : Nat) (v : Word) :
    (s.memWrite b a n v).outSel = s.outSel := by cases b <;> rfl
@[simp] theorem State.memWrite_errCode (s : State) (b : Buf) (a n : Nat) (v : Word) :
    (s.memWrite b a n v).errCode = s.errCode := by cases b <;> rfl
@[simp] theorem State.memWrite_errCmd (s : State) (b : Buf) (a n : Nat) (v : Word) :
    (s.memWrite b a n v).errCmd = s.errCmd := by cases b <;> rfl
@[simp] theorem State.memWrite_rxLen (s : State) (b : Buf) (a n : Nat) (v : Word) :
    (s.memWrite b a n v).rxLen = s.rxLen := by cases b <;> rfl
@[simp] theorem State.memWrite_rxIf (s : State) (b : Buf) (a n : Nat) (v : Word) :
    (s.memWrite b a n v).rxIf = s.rxIf := by cases b <;> rfl
@[simp] theorem State.memWrite_txLen (s : State) (b : Buf) (a n : Nat) (v : Word) :
    (s.memWrite b a n v).txLen = s.txLen := by cases b <;> rfl
@[simp] theorem State.memWrite_txIf (s : State) (b : Buf) (a n : Nat) (v : Word) :
    (s.memWrite b a n v).txIf = s.txIf := by cases b <;> rfl
@[simp] theorem State.memWrite_rtLen (s : State) (b : Buf) (a n : Nat) (v : Word) :
    (s.memWrite b a n v).rtLen = s.rtLen := by cases b <;> rfl
@[simp] theorem State.memWrite_atLen (s : State) (b : Buf) (a n : Nat) (v : Word) :
    (s.memWrite b a n v).atLen = s.atLen := by cases b <;> rfl
@[simp] theorem State.memWrite_csRes (s : State) (b : Buf) (a n : Nat) (v : Word) :
    (s.memWrite b a n v).csRes = s.csRes := by cases b <;> rfl
@[simp] theorem State.memWrite_csFold (s : State) (b : Buf) (a n : Nat) (v : Word) :
    (s.memWrite b a n v).csFold = s.csFold := by cases b <;> rfl
@[simp] theorem State.memWrite_csAcc (s : State) (b : Buf) (a n : Nat) (v : Word) :
    (s.memWrite b a n v).csAcc = s.csAcc := by cases b <;> rfl
@[simp] theorem State.memWrite_lpmIdx (s : State) (b : Buf) (a n : Nat) (v : Word) :
    (s.memWrite b a n v).lpmIdx = s.lpmIdx := by cases b <;> rfl
@[simp] theorem State.memWrite_lpmPfx (s : State) (b : Buf) (a n : Nat) (v : Word) :
    (s.memWrite b a n v).lpmPfx = s.lpmPfx := by cases b <;> rfl
@[simp] theorem State.memWrite_lpmMask (s : State) (b : Buf) (a n : Nat) (v : Word) :
    (s.memWrite b a n v).lpmMask = s.lpmMask := by cases b <;> rfl
@[simp] theorem State.memWrite_lpmNhop (s : State) (b : Buf) (a n : Nat) (v : Word) :
    (s.memWrite b a n v).lpmNhop = s.lpmNhop := by cases b <;> rfl
@[simp] theorem State.memWrite_lpmEif (s : State) (b : Buf) (a n : Nat) (v : Word) :
    (s.memWrite b a n v).lpmEif = s.lpmEif := by cases b <;> rfl
@[simp] theorem State.memWrite_arpIdx (s : State) (b : Buf) (a n : Nat) (v : Word) :
    (s.memWrite b a n v).arpIdx = s.arpIdx := by cases b <;> rfl
@[simp] theorem State.memWrite_arpIp (s : State) (b : Buf) (a n : Nat) (v : Word) :
    (s.memWrite b a n v).arpIp = s.arpIp := by cases b <;> rfl
@[simp] theorem State.memWrite_arpMacHi (s : State) (b : Buf) (a n : Nat) (v : Word) :
    (s.memWrite b a n v).arpMacHi = s.arpMacHi := by cases b <;> rfl
@[simp] theorem State.memWrite_arpMacLo (s : State) (b : Buf) (a n : Nat) (v : Word) :
    (s.memWrite b a n v).arpMacLo = s.arpMacLo := by cases b <;> rfl
@[simp] theorem State.memWrite_disp (s : State) (b : Buf) (a n : Nat) (v : Word) :
    (s.memWrite b a n v).disp = s.disp := by cases b <;> rfl
@[simp] theorem State.memWrite_outLen (s : State) (b : Buf) (a n : Nat) (v : Word) :
    (s.memWrite b a n v).outLen = s.outLen := by cases b <;> rfl
@[simp] theorem State.memWrite_outIf (s : State) (b : Buf) (a n : Nat) (v : Word) :
    (s.memWrite b a n v).outIf = s.outIf := by cases b <;> rfl
@[simp] theorem State.memWrite_rt (s : State) (b : Buf) (a n : Nat) (v : Word) :
    (s.memWrite b a n v).rt = s.rt := by cases b <;> rfl
@[simp] theorem State.memWrite_arpt (s : State) (b : Buf) (a n : Nat) (v : Word) :
    (s.memWrite b a n v).arpt = s.arpt := by cases b <;> rfl
@[simp] theorem State.memWrite_ifa (s : State) (b : Buf) (a n : Nat) (v : Word) :
    (s.memWrite b a n v).ifa = s.ifa := by cases b <;> rfl
@[simp] theorem State.memWrite_params (s : State) (b : Buf) (a n : Nat) (v : Word) :
    (s.memWrite b a n v).params = s.params := by cases b <;> rfl
@[simp] theorem State.memWrite_powerUps (s : State) (b : Buf) (a n : Nat) (v : Word) :
    (s.memWrite b a n v).powerUps = s.powerUps := by cases b <;> rfl
@[simp] theorem State.memWrite_builds (s : State) (b : Buf) (a n : Nat) (v : Word) :
    (s.memWrite b a n v).builds = s.builds := by cases b <;> rfl
@[simp] theorem State.memWrite_script (s : State) (b : Buf) (a n : Nat) (v : Word) :
    (s.memWrite b a n v).script = s.script := by cases b <;> rfl
@[simp] theorem State.memWrite_resp (s : State) (b : Buf) (a n : Nat) (v : Word) :
    (s.memWrite b a n v).resp = s.resp := by cases b <;> rfl
@[simp] theorem State.memWrite_route (s : State) (b : Buf) (a n : Nat) (v : Word) (k : Nat) :
    (s.memWrite b a n v).route k = s.route k := by cases b <;> rfl
@[simp] theorem State.memWrite_arp (s : State) (b : Buf) (a n : Nat) (v : Word) (k : Nat) :
    (s.memWrite b a n v).arp k = s.arp k := by cases b <;> rfl
@[simp] theorem State.memWrite_iface (s : State) (b : Buf) (a n : Nat) (v : Word) (k : Nat) :
    (s.memWrite b a n v).iface k = s.iface k := by cases b <;> rfl

/-! `State.clearBuf` writes one buffer and no other field. -/

@[simp] theorem State.clearBuf_dr0 (s : State) (b : Buf) : (s.clearBuf b).dr0 = s.dr0 := by cases b <;> rfl
@[simp] theorem State.clearBuf_dr1 (s : State) (b : Buf) : (s.clearBuf b).dr1 = s.dr1 := by cases b <;> rfl
@[simp] theorem State.clearBuf_dr2 (s : State) (b : Buf) : (s.clearBuf b).dr2 = s.dr2 := by cases b <;> rfl
@[simp] theorem State.clearBuf_dr3 (s : State) (b : Buf) : (s.clearBuf b).dr3 = s.dr3 := by cases b <;> rfl
@[simp] theorem State.clearBuf_built (s : State) (b : Buf) : (s.clearBuf b).built = s.built := by cases b <;> rfl
@[simp] theorem State.clearBuf_errs (s : State) (b : Buf) : (s.clearBuf b).errs = s.errs := by cases b <;> rfl
@[simp] theorem State.clearBuf_csZero (s : State) (b : Buf) : (s.clearBuf b).csZero = s.csZero := by cases b <;> rfl
@[simp] theorem State.clearBuf_csOdd (s : State) (b : Buf) : (s.clearBuf b).csOdd = s.csOdd := by cases b <;> rfl
@[simp] theorem State.clearBuf_lpmHit (s : State) (b : Buf) : (s.clearBuf b).lpmHit = s.lpmHit := by cases b <;> rfl
@[simp] theorem State.clearBuf_arpHit (s : State) (b : Buf) : (s.clearBuf b).arpHit = s.arpHit := by cases b <;> rfl
@[simp] theorem State.clearBuf_ifHit (s : State) (b : Buf) : (s.clearBuf b).ifHit = s.ifHit := by cases b <;> rfl
@[simp] theorem State.clearBuf_outValid (s : State) (b : Buf) :
    (s.clearBuf b).outValid = s.outValid := by cases b <;> rfl
@[simp] theorem State.clearBuf_outSel (s : State) (b : Buf) : (s.clearBuf b).outSel = s.outSel := by cases b <;> rfl
@[simp] theorem State.clearBuf_errCode (s : State) (b : Buf) :
    (s.clearBuf b).errCode = s.errCode := by cases b <;> rfl
@[simp] theorem State.clearBuf_errCmd (s : State) (b : Buf) : (s.clearBuf b).errCmd = s.errCmd := by cases b <;> rfl
@[simp] theorem State.clearBuf_rxLen (s : State) (b : Buf) : (s.clearBuf b).rxLen = s.rxLen := by cases b <;> rfl
@[simp] theorem State.clearBuf_rxIf (s : State) (b : Buf) : (s.clearBuf b).rxIf = s.rxIf := by cases b <;> rfl
@[simp] theorem State.clearBuf_txLen (s : State) (b : Buf) : (s.clearBuf b).txLen = s.txLen := by cases b <;> rfl
@[simp] theorem State.clearBuf_txIf (s : State) (b : Buf) : (s.clearBuf b).txIf = s.txIf := by cases b <;> rfl
@[simp] theorem State.clearBuf_rtLen (s : State) (b : Buf) : (s.clearBuf b).rtLen = s.rtLen := by cases b <;> rfl
@[simp] theorem State.clearBuf_atLen (s : State) (b : Buf) : (s.clearBuf b).atLen = s.atLen := by cases b <;> rfl
@[simp] theorem State.clearBuf_csRes (s : State) (b : Buf) : (s.clearBuf b).csRes = s.csRes := by cases b <;> rfl
@[simp] theorem State.clearBuf_csFold (s : State) (b : Buf) : (s.clearBuf b).csFold = s.csFold := by cases b <;> rfl
@[simp] theorem State.clearBuf_csAcc (s : State) (b : Buf) : (s.clearBuf b).csAcc = s.csAcc := by cases b <;> rfl
@[simp] theorem State.clearBuf_lpmIdx (s : State) (b : Buf) : (s.clearBuf b).lpmIdx = s.lpmIdx := by cases b <;> rfl
@[simp] theorem State.clearBuf_lpmPfx (s : State) (b : Buf) : (s.clearBuf b).lpmPfx = s.lpmPfx := by cases b <;> rfl
@[simp] theorem State.clearBuf_lpmMask (s : State) (b : Buf) :
    (s.clearBuf b).lpmMask = s.lpmMask := by cases b <;> rfl
@[simp] theorem State.clearBuf_lpmNhop (s : State) (b : Buf) :
    (s.clearBuf b).lpmNhop = s.lpmNhop := by cases b <;> rfl
@[simp] theorem State.clearBuf_lpmEif (s : State) (b : Buf) : (s.clearBuf b).lpmEif = s.lpmEif := by cases b <;> rfl
@[simp] theorem State.clearBuf_arpIdx (s : State) (b : Buf) : (s.clearBuf b).arpIdx = s.arpIdx := by cases b <;> rfl
@[simp] theorem State.clearBuf_arpIp (s : State) (b : Buf) : (s.clearBuf b).arpIp = s.arpIp := by cases b <;> rfl
@[simp] theorem State.clearBuf_arpMacHi (s : State) (b : Buf) :
    (s.clearBuf b).arpMacHi = s.arpMacHi := by cases b <;> rfl
@[simp] theorem State.clearBuf_arpMacLo (s : State) (b : Buf) :
    (s.clearBuf b).arpMacLo = s.arpMacLo := by cases b <;> rfl
@[simp] theorem State.clearBuf_disp (s : State) (b : Buf) : (s.clearBuf b).disp = s.disp := by cases b <;> rfl
@[simp] theorem State.clearBuf_outLen (s : State) (b : Buf) : (s.clearBuf b).outLen = s.outLen := by cases b <;> rfl
@[simp] theorem State.clearBuf_outIf (s : State) (b : Buf) : (s.clearBuf b).outIf = s.outIf := by cases b <;> rfl
@[simp] theorem State.clearBuf_rt (s : State) (b : Buf) : (s.clearBuf b).rt = s.rt := by cases b <;> rfl
@[simp] theorem State.clearBuf_arpt (s : State) (b : Buf) : (s.clearBuf b).arpt = s.arpt := by cases b <;> rfl
@[simp] theorem State.clearBuf_ifa (s : State) (b : Buf) : (s.clearBuf b).ifa = s.ifa := by cases b <;> rfl
@[simp] theorem State.clearBuf_params (s : State) (b : Buf) : (s.clearBuf b).params = s.params := by cases b <;> rfl
@[simp] theorem State.clearBuf_powerUps (s : State) (b : Buf) :
    (s.clearBuf b).powerUps = s.powerUps := by cases b <;> rfl
@[simp] theorem State.clearBuf_builds (s : State) (b : Buf) : (s.clearBuf b).builds = s.builds := by cases b <;> rfl
@[simp] theorem State.clearBuf_script (s : State) (b : Buf) : (s.clearBuf b).script = s.script := by cases b <;> rfl
@[simp] theorem State.clearBuf_resp (s : State) (b : Buf) : (s.clearBuf b).resp = s.resp := by cases b <;> rfl
@[simp] theorem State.clearBuf_route (s : State) (b : Buf) (k : Nat) :
    (s.clearBuf b).route k = s.route k := by cases b <;> rfl
@[simp] theorem State.clearBuf_arp (s : State) (b : Buf) (k : Nat) :
    (s.clearBuf b).arp k = s.arp k := by cases b <;> rfl
@[simp] theorem State.clearBuf_iface (s : State) (b : Buf) (k : Nat) :
    (s.clearBuf b).iface k = s.iface k := by cases b <;> rfl

/-! `refuse` writes the three error registers and no other field (60_exceptions.md R211). -/

@[simp] theorem refuse_dr0 (w : Word) (c : RefuseCode) (s : State) : (refuse w c s).dr0 = s.dr0 := rfl
@[simp] theorem refuse_dr1 (w : Word) (c : RefuseCode) (s : State) : (refuse w c s).dr1 = s.dr1 := rfl
@[simp] theorem refuse_dr2 (w : Word) (c : RefuseCode) (s : State) : (refuse w c s).dr2 = s.dr2 := rfl
@[simp] theorem refuse_dr3 (w : Word) (c : RefuseCode) (s : State) : (refuse w c s).dr3 = s.dr3 := rfl
@[simp] theorem refuse_built (w : Word) (c : RefuseCode) (s : State) : (refuse w c s).built = s.built := rfl
@[simp] theorem refuse_errs (w : Word) (c : RefuseCode) (s : State) : (refuse w c s).errs = true := rfl
@[simp] theorem refuse_csZero (w : Word) (c : RefuseCode) (s : State) : (refuse w c s).csZero = s.csZero := rfl
@[simp] theorem refuse_csOdd (w : Word) (c : RefuseCode) (s : State) : (refuse w c s).csOdd = s.csOdd := rfl
@[simp] theorem refuse_lpmHit (w : Word) (c : RefuseCode) (s : State) : (refuse w c s).lpmHit = s.lpmHit := rfl
@[simp] theorem refuse_arpHit (w : Word) (c : RefuseCode) (s : State) : (refuse w c s).arpHit = s.arpHit := rfl
@[simp] theorem refuse_ifHit (w : Word) (c : RefuseCode) (s : State) : (refuse w c s).ifHit = s.ifHit := rfl
@[simp] theorem refuse_outValid (w : Word) (c : RefuseCode) (s : State) : (refuse w c s).outValid = s.outValid := rfl
@[simp] theorem refuse_outSel (w : Word) (c : RefuseCode) (s : State) : (refuse w c s).outSel = s.outSel := rfl
@[simp] theorem refuse_errCode (w : Word) (c : RefuseCode) (s : State) :
    (refuse w c s).errCode = refuseNumber c := rfl
@[simp] theorem refuse_errCmd (w : Word) (c : RefuseCode) (s : State) : (refuse w c s).errCmd = w := rfl
@[simp] theorem refuse_rxLen (w : Word) (c : RefuseCode) (s : State) : (refuse w c s).rxLen = s.rxLen := rfl
@[simp] theorem refuse_rxIf (w : Word) (c : RefuseCode) (s : State) : (refuse w c s).rxIf = s.rxIf := rfl
@[simp] theorem refuse_txLen (w : Word) (c : RefuseCode) (s : State) : (refuse w c s).txLen = s.txLen := rfl
@[simp] theorem refuse_txIf (w : Word) (c : RefuseCode) (s : State) : (refuse w c s).txIf = s.txIf := rfl
@[simp] theorem refuse_rtLen (w : Word) (c : RefuseCode) (s : State) : (refuse w c s).rtLen = s.rtLen := rfl
@[simp] theorem refuse_atLen (w : Word) (c : RefuseCode) (s : State) : (refuse w c s).atLen = s.atLen := rfl
@[simp] theorem refuse_csRes (w : Word) (c : RefuseCode) (s : State) : (refuse w c s).csRes = s.csRes := rfl
@[simp] theorem refuse_csFold (w : Word) (c : RefuseCode) (s : State) : (refuse w c s).csFold = s.csFold := rfl
@[simp] theorem refuse_csAcc (w : Word) (c : RefuseCode) (s : State) : (refuse w c s).csAcc = s.csAcc := rfl
@[simp] theorem refuse_lpmIdx (w : Word) (c : RefuseCode) (s : State) : (refuse w c s).lpmIdx = s.lpmIdx := rfl
@[simp] theorem refuse_lpmPfx (w : Word) (c : RefuseCode) (s : State) : (refuse w c s).lpmPfx = s.lpmPfx := rfl
@[simp] theorem refuse_lpmMask (w : Word) (c : RefuseCode) (s : State) : (refuse w c s).lpmMask = s.lpmMask := rfl
@[simp] theorem refuse_lpmNhop (w : Word) (c : RefuseCode) (s : State) : (refuse w c s).lpmNhop = s.lpmNhop := rfl
@[simp] theorem refuse_lpmEif (w : Word) (c : RefuseCode) (s : State) : (refuse w c s).lpmEif = s.lpmEif := rfl
@[simp] theorem refuse_arpIdx (w : Word) (c : RefuseCode) (s : State) : (refuse w c s).arpIdx = s.arpIdx := rfl
@[simp] theorem refuse_arpIp (w : Word) (c : RefuseCode) (s : State) : (refuse w c s).arpIp = s.arpIp := rfl
@[simp] theorem refuse_arpMacHi (w : Word) (c : RefuseCode) (s : State) : (refuse w c s).arpMacHi = s.arpMacHi := rfl
@[simp] theorem refuse_arpMacLo (w : Word) (c : RefuseCode) (s : State) : (refuse w c s).arpMacLo = s.arpMacLo := rfl
@[simp] theorem refuse_disp (w : Word) (c : RefuseCode) (s : State) : (refuse w c s).disp = s.disp := rfl
@[simp] theorem refuse_outLen (w : Word) (c : RefuseCode) (s : State) : (refuse w c s).outLen = s.outLen := rfl
@[simp] theorem refuse_outIf (w : Word) (c : RefuseCode) (s : State) : (refuse w c s).outIf = s.outIf := rfl
@[simp] theorem refuse_rxb (w : Word) (c : RefuseCode) (s : State) : (refuse w c s).rxb = s.rxb := rfl
@[simp] theorem refuse_txb (w : Word) (c : RefuseCode) (s : State) : (refuse w c s).txb = s.txb := rfl
@[simp] theorem refuse_rt (w : Word) (c : RefuseCode) (s : State) : (refuse w c s).rt = s.rt := rfl
@[simp] theorem refuse_arpt (w : Word) (c : RefuseCode) (s : State) : (refuse w c s).arpt = s.arpt := rfl
@[simp] theorem refuse_ifa (w : Word) (c : RefuseCode) (s : State) : (refuse w c s).ifa = s.ifa := rfl
@[simp] theorem refuse_params (w : Word) (c : RefuseCode) (s : State) : (refuse w c s).params = s.params := rfl
@[simp] theorem refuse_powerUps (w : Word) (c : RefuseCode) (s : State) : (refuse w c s).powerUps = s.powerUps := rfl
@[simp] theorem refuse_builds (w : Word) (c : RefuseCode) (s : State) : (refuse w c s).builds = s.builds := rfl
@[simp] theorem refuse_script (w : Word) (c : RefuseCode) (s : State) : (refuse w c s).script = s.script := rfl
@[simp] theorem refuse_resp (w : Word) (c : RefuseCode) (s : State) : (refuse w c s).resp = s.resp := rfl
@[simp] theorem refuse_byte (w : Word) (c : RefuseCode) (s : State) (b : Buf) (k : Nat) :
    (refuse w c s).byte b k = s.byte b k := by cases b <;> rfl
@[simp] theorem refuse_route (w : Word) (c : RefuseCode) (s : State) (k : Nat) :
    (refuse w c s).route k = s.route k := rfl
@[simp] theorem refuse_arp (w : Word) (c : RefuseCode) (s : State) (k : Nat) : (refuse w c s).arp k = s.arp k := rfl
@[simp] theorem refuse_iface (w : Word) (c : RefuseCode) (s : State) (k : Nat) :
    (refuse w c s).iface k = s.iface k := rfl

/-! `acknowledge` clears the three error registers and no other field (60_exceptions.md R216). -/

@[simp] theorem acknowledge_dr0 (s : State) : (acknowledge s).dr0 = s.dr0 := rfl
@[simp] theorem acknowledge_dr1 (s : State) : (acknowledge s).dr1 = s.dr1 := rfl
@[simp] theorem acknowledge_dr2 (s : State) : (acknowledge s).dr2 = s.dr2 := rfl
@[simp] theorem acknowledge_dr3 (s : State) : (acknowledge s).dr3 = s.dr3 := rfl
@[simp] theorem acknowledge_built (s : State) : (acknowledge s).built = s.built := rfl
@[simp] theorem acknowledge_errs (s : State) : (acknowledge s).errs = false := rfl
@[simp] theorem acknowledge_csZero (s : State) : (acknowledge s).csZero = s.csZero := rfl
@[simp] theorem acknowledge_csOdd (s : State) : (acknowledge s).csOdd = s.csOdd := rfl
@[simp] theorem acknowledge_lpmHit (s : State) : (acknowledge s).lpmHit = s.lpmHit := rfl
@[simp] theorem acknowledge_arpHit (s : State) : (acknowledge s).arpHit = s.arpHit := rfl
@[simp] theorem acknowledge_ifHit (s : State) : (acknowledge s).ifHit = s.ifHit := rfl
@[simp] theorem acknowledge_outValid (s : State) : (acknowledge s).outValid = s.outValid := rfl
@[simp] theorem acknowledge_outSel (s : State) : (acknowledge s).outSel = s.outSel := rfl
@[simp] theorem acknowledge_errCode (s : State) : (acknowledge s).errCode = 0 := rfl
@[simp] theorem acknowledge_errCmd (s : State) : (acknowledge s).errCmd = 0 := rfl
@[simp] theorem acknowledge_rxLen (s : State) : (acknowledge s).rxLen = s.rxLen := rfl
@[simp] theorem acknowledge_rxIf (s : State) : (acknowledge s).rxIf = s.rxIf := rfl
@[simp] theorem acknowledge_txLen (s : State) : (acknowledge s).txLen = s.txLen := rfl
@[simp] theorem acknowledge_txIf (s : State) : (acknowledge s).txIf = s.txIf := rfl
@[simp] theorem acknowledge_rtLen (s : State) : (acknowledge s).rtLen = s.rtLen := rfl
@[simp] theorem acknowledge_atLen (s : State) : (acknowledge s).atLen = s.atLen := rfl
@[simp] theorem acknowledge_csRes (s : State) : (acknowledge s).csRes = s.csRes := rfl
@[simp] theorem acknowledge_csFold (s : State) : (acknowledge s).csFold = s.csFold := rfl
@[simp] theorem acknowledge_csAcc (s : State) : (acknowledge s).csAcc = s.csAcc := rfl
@[simp] theorem acknowledge_lpmIdx (s : State) : (acknowledge s).lpmIdx = s.lpmIdx := rfl
@[simp] theorem acknowledge_lpmPfx (s : State) : (acknowledge s).lpmPfx = s.lpmPfx := rfl
@[simp] theorem acknowledge_lpmMask (s : State) : (acknowledge s).lpmMask = s.lpmMask := rfl
@[simp] theorem acknowledge_lpmNhop (s : State) : (acknowledge s).lpmNhop = s.lpmNhop := rfl
@[simp] theorem acknowledge_lpmEif (s : State) : (acknowledge s).lpmEif = s.lpmEif := rfl
@[simp] theorem acknowledge_arpIdx (s : State) : (acknowledge s).arpIdx = s.arpIdx := rfl
@[simp] theorem acknowledge_arpIp (s : State) : (acknowledge s).arpIp = s.arpIp := rfl
@[simp] theorem acknowledge_arpMacHi (s : State) : (acknowledge s).arpMacHi = s.arpMacHi := rfl
@[simp] theorem acknowledge_arpMacLo (s : State) : (acknowledge s).arpMacLo = s.arpMacLo := rfl
@[simp] theorem acknowledge_disp (s : State) : (acknowledge s).disp = s.disp := rfl
@[simp] theorem acknowledge_outLen (s : State) : (acknowledge s).outLen = s.outLen := rfl
@[simp] theorem acknowledge_outIf (s : State) : (acknowledge s).outIf = s.outIf := rfl
@[simp] theorem acknowledge_rxb (s : State) : (acknowledge s).rxb = s.rxb := rfl
@[simp] theorem acknowledge_txb (s : State) : (acknowledge s).txb = s.txb := rfl
@[simp] theorem acknowledge_rt (s : State) : (acknowledge s).rt = s.rt := rfl
@[simp] theorem acknowledge_arpt (s : State) : (acknowledge s).arpt = s.arpt := rfl
@[simp] theorem acknowledge_ifa (s : State) : (acknowledge s).ifa = s.ifa := rfl
@[simp] theorem acknowledge_params (s : State) : (acknowledge s).params = s.params := rfl
@[simp] theorem acknowledge_powerUps (s : State) : (acknowledge s).powerUps = s.powerUps := rfl
@[simp] theorem acknowledge_builds (s : State) : (acknowledge s).builds = s.builds := rfl
@[simp] theorem acknowledge_script (s : State) : (acknowledge s).script = s.script := rfl
@[simp] theorem acknowledge_resp (s : State) : (acknowledge s).resp = s.resp := rfl
@[simp] theorem acknowledge_byte (s : State) (b : Buf) (k : Nat) :
    (acknowledge s).byte b k = s.byte b k := by cases b <;> rfl
@[simp] theorem acknowledge_route (s : State) (k : Nat) : (acknowledge s).route k = s.route k := rfl
@[simp] theorem acknowledge_arp (s : State) (k : Nat) : (acknowledge s).arp k = s.arp k := rfl
@[simp] theorem acknowledge_iface (s : State) (k : Nat) : (acknowledge s).iface k = s.iface k := rfl

/-! `clearRegisters` zeroes the registers and the interface table and keeps the arrays (44_system.md R201). -/

@[simp] theorem clearRegisters_dr0 (s : State) : (clearRegisters s).dr0 = 0 := rfl
@[simp] theorem clearRegisters_dr1 (s : State) : (clearRegisters s).dr1 = 0 := rfl
@[simp] theorem clearRegisters_dr2 (s : State) : (clearRegisters s).dr2 = 0 := rfl
@[simp] theorem clearRegisters_dr3 (s : State) : (clearRegisters s).dr3 = 0 := rfl
@[simp] theorem clearRegisters_built (s : State) : (clearRegisters s).built = false := rfl
@[simp] theorem clearRegisters_errs (s : State) : (clearRegisters s).errs = false := rfl
@[simp] theorem clearRegisters_csZero (s : State) : (clearRegisters s).csZero = false := rfl
@[simp] theorem clearRegisters_csOdd (s : State) : (clearRegisters s).csOdd = false := rfl
@[simp] theorem clearRegisters_lpmHit (s : State) : (clearRegisters s).lpmHit = false := rfl
@[simp] theorem clearRegisters_arpHit (s : State) : (clearRegisters s).arpHit = false := rfl
@[simp] theorem clearRegisters_ifHit (s : State) : (clearRegisters s).ifHit = false := rfl
@[simp] theorem clearRegisters_outValid (s : State) : (clearRegisters s).outValid = false := rfl
@[simp] theorem clearRegisters_outSel (s : State) : (clearRegisters s).outSel = false := rfl
@[simp] theorem clearRegisters_errCode (s : State) : (clearRegisters s).errCode = 0 := rfl
@[simp] theorem clearRegisters_errCmd (s : State) : (clearRegisters s).errCmd = 0 := rfl
@[simp] theorem clearRegisters_rxLen (s : State) : (clearRegisters s).rxLen = 0 := rfl
@[simp] theorem clearRegisters_rxIf (s : State) : (clearRegisters s).rxIf = 0 := rfl
@[simp] theorem clearRegisters_txLen (s : State) : (clearRegisters s).txLen = 0 := rfl
@[simp] theorem clearRegisters_txIf (s : State) : (clearRegisters s).txIf = 0 := rfl
@[simp] theorem clearRegisters_rtLen (s : State) : (clearRegisters s).rtLen = 0 := rfl
@[simp] theorem clearRegisters_atLen (s : State) : (clearRegisters s).atLen = 0 := rfl
@[simp] theorem clearRegisters_csRes (s : State) : (clearRegisters s).csRes = 0 := rfl
@[simp] theorem clearRegisters_csFold (s : State) : (clearRegisters s).csFold = 0 := rfl
@[simp] theorem clearRegisters_csAcc (s : State) : (clearRegisters s).csAcc = 0 := rfl
@[simp] theorem clearRegisters_lpmIdx (s : State) : (clearRegisters s).lpmIdx = 0 := rfl
@[simp] theorem clearRegisters_lpmPfx (s : State) : (clearRegisters s).lpmPfx = 0 := rfl
@[simp] theorem clearRegisters_lpmMask (s : State) : (clearRegisters s).lpmMask = 0 := rfl
@[simp] theorem clearRegisters_lpmNhop (s : State) : (clearRegisters s).lpmNhop = 0 := rfl
@[simp] theorem clearRegisters_lpmEif (s : State) : (clearRegisters s).lpmEif = 0 := rfl
@[simp] theorem clearRegisters_arpIdx (s : State) : (clearRegisters s).arpIdx = 0 := rfl
@[simp] theorem clearRegisters_arpIp (s : State) : (clearRegisters s).arpIp = 0 := rfl
@[simp] theorem clearRegisters_arpMacHi (s : State) : (clearRegisters s).arpMacHi = 0 := rfl
@[simp] theorem clearRegisters_arpMacLo (s : State) : (clearRegisters s).arpMacLo = 0 := rfl
@[simp] theorem clearRegisters_disp (s : State) : (clearRegisters s).disp = 0 := rfl
@[simp] theorem clearRegisters_outLen (s : State) : (clearRegisters s).outLen = 0 := rfl
@[simp] theorem clearRegisters_outIf (s : State) : (clearRegisters s).outIf = 0 := rfl
@[simp] theorem clearRegisters_rxb (s : State) : (clearRegisters s).rxb = s.rxb := rfl
@[simp] theorem clearRegisters_txb (s : State) : (clearRegisters s).txb = s.txb := rfl
@[simp] theorem clearRegisters_rt (s : State) : (clearRegisters s).rt = s.rt := rfl
@[simp] theorem clearRegisters_arpt (s : State) : (clearRegisters s).arpt = s.arpt := rfl
@[simp] theorem clearRegisters_ifa (s : State) : (clearRegisters s).ifa = [] := rfl
@[simp] theorem clearRegisters_params (s : State) : (clearRegisters s).params = s.params := rfl
@[simp] theorem clearRegisters_powerUps (s : State) : (clearRegisters s).powerUps = s.powerUps := rfl
@[simp] theorem clearRegisters_builds (s : State) : (clearRegisters s).builds = s.builds := rfl
@[simp] theorem clearRegisters_script (s : State) : (clearRegisters s).script = s.script := rfl
@[simp] theorem clearRegisters_resp (s : State) : (clearRegisters s).resp = s.resp := rfl
@[simp] theorem clearRegisters_byte (s : State) (b : Buf) (k : Nat) :
    (clearRegisters s).byte b k = s.byte b k := by cases b <;> rfl
@[simp] theorem clearRegisters_route (s : State) (k : Nat) : (clearRegisters s).route k = s.route k := rfl
@[simp] theorem clearRegisters_arp (s : State) (k : Nat) : (clearRegisters s).arp k = s.arp k := rfl
@[simp] theorem clearRegisters_iface (s : State) (k : Nat) : (clearRegisters s).iface k = ifReset := rfl

/-! `hardwareReset` also forgets the arrays (70_reset_and_hazards.md R230, R231). -/

@[simp] theorem hardwareReset_dr0 (s : State) : (hardwareReset s).dr0 = 0 := rfl
@[simp] theorem hardwareReset_dr1 (s : State) : (hardwareReset s).dr1 = 0 := rfl
@[simp] theorem hardwareReset_dr2 (s : State) : (hardwareReset s).dr2 = 0 := rfl
@[simp] theorem hardwareReset_dr3 (s : State) : (hardwareReset s).dr3 = 0 := rfl
@[simp] theorem hardwareReset_built (s : State) : (hardwareReset s).built = false := rfl
@[simp] theorem hardwareReset_errs (s : State) : (hardwareReset s).errs = false := rfl
@[simp] theorem hardwareReset_csZero (s : State) : (hardwareReset s).csZero = false := rfl
@[simp] theorem hardwareReset_csOdd (s : State) : (hardwareReset s).csOdd = false := rfl
@[simp] theorem hardwareReset_lpmHit (s : State) : (hardwareReset s).lpmHit = false := rfl
@[simp] theorem hardwareReset_arpHit (s : State) : (hardwareReset s).arpHit = false := rfl
@[simp] theorem hardwareReset_ifHit (s : State) : (hardwareReset s).ifHit = false := rfl
@[simp] theorem hardwareReset_outValid (s : State) : (hardwareReset s).outValid = false := rfl
@[simp] theorem hardwareReset_outSel (s : State) : (hardwareReset s).outSel = false := rfl
@[simp] theorem hardwareReset_errCode (s : State) : (hardwareReset s).errCode = 0 := rfl
@[simp] theorem hardwareReset_errCmd (s : State) : (hardwareReset s).errCmd = 0 := rfl
@[simp] theorem hardwareReset_rxLen (s : State) : (hardwareReset s).rxLen = 0 := rfl
@[simp] theorem hardwareReset_rxIf (s : State) : (hardwareReset s).rxIf = 0 := rfl
@[simp] theorem hardwareReset_txLen (s : State) : (hardwareReset s).txLen = 0 := rfl
@[simp] theorem hardwareReset_txIf (s : State) : (hardwareReset s).txIf = 0 := rfl
@[simp] theorem hardwareReset_rtLen (s : State) : (hardwareReset s).rtLen = 0 := rfl
@[simp] theorem hardwareReset_atLen (s : State) : (hardwareReset s).atLen = 0 := rfl
@[simp] theorem hardwareReset_csRes (s : State) : (hardwareReset s).csRes = 0 := rfl
@[simp] theorem hardwareReset_csFold (s : State) : (hardwareReset s).csFold = 0 := rfl
@[simp] theorem hardwareReset_csAcc (s : State) : (hardwareReset s).csAcc = 0 := rfl
@[simp] theorem hardwareReset_lpmIdx (s : State) : (hardwareReset s).lpmIdx = 0 := rfl
@[simp] theorem hardwareReset_lpmPfx (s : State) : (hardwareReset s).lpmPfx = 0 := rfl
@[simp] theorem hardwareReset_lpmMask (s : State) : (hardwareReset s).lpmMask = 0 := rfl
@[simp] theorem hardwareReset_lpmNhop (s : State) : (hardwareReset s).lpmNhop = 0 := rfl
@[simp] theorem hardwareReset_lpmEif (s : State) : (hardwareReset s).lpmEif = 0 := rfl
@[simp] theorem hardwareReset_arpIdx (s : State) : (hardwareReset s).arpIdx = 0 := rfl
@[simp] theorem hardwareReset_arpIp (s : State) : (hardwareReset s).arpIp = 0 := rfl
@[simp] theorem hardwareReset_arpMacHi (s : State) : (hardwareReset s).arpMacHi = 0 := rfl
@[simp] theorem hardwareReset_arpMacLo (s : State) : (hardwareReset s).arpMacLo = 0 := rfl
@[simp] theorem hardwareReset_disp (s : State) : (hardwareReset s).disp = 0 := rfl
@[simp] theorem hardwareReset_outLen (s : State) : (hardwareReset s).outLen = 0 := rfl
@[simp] theorem hardwareReset_outIf (s : State) : (hardwareReset s).outIf = 0 := rfl
@[simp] theorem hardwareReset_rxb (s : State) : (hardwareReset s).rxb = [] := rfl
@[simp] theorem hardwareReset_txb (s : State) : (hardwareReset s).txb = [] := rfl
@[simp] theorem hardwareReset_rt (s : State) : (hardwareReset s).rt = [] := rfl
@[simp] theorem hardwareReset_arpt (s : State) : (hardwareReset s).arpt = [] := rfl
@[simp] theorem hardwareReset_ifa (s : State) : (hardwareReset s).ifa = [] := rfl
@[simp] theorem hardwareReset_params (s : State) : (hardwareReset s).params = s.params := rfl
@[simp] theorem hardwareReset_powerUps (s : State) : (hardwareReset s).powerUps = s.powerUps + 1 := rfl
@[simp] theorem hardwareReset_builds (s : State) : (hardwareReset s).builds = s.builds := rfl
@[simp] theorem hardwareReset_script (s : State) : (hardwareReset s).script = s.script := rfl
@[simp] theorem hardwareReset_resp (s : State) : (hardwareReset s).resp = .idle := rfl
@[simp] theorem hardwareReset_byte (s : State) (b : Buf) (k : Nat) :
    (hardwareReset s).byte b k = Config.powerUpByte (s.powerUps + 1) b k := by cases b <;> rfl
@[simp] theorem hardwareReset_iface (s : State) (k : Nat) : (hardwareReset s).iface k = ifReset := rfl

/-! `runChecksum` writes the checksum registers and no other field (40_checksum.md R106, R110). -/

@[simp] theorem runChecksum_dr0 (b : Buf) (off len : Nat) (s : State) : (runChecksum b off len s).dr0 = s.dr0 := rfl
@[simp] theorem runChecksum_dr1 (b : Buf) (off len : Nat) (s : State) : (runChecksum b off len s).dr1 = s.dr1 := rfl
@[simp] theorem runChecksum_dr2 (b : Buf) (off len : Nat) (s : State) : (runChecksum b off len s).dr2 = s.dr2 := rfl
@[simp] theorem runChecksum_dr3 (b : Buf) (off len : Nat) (s : State) : (runChecksum b off len s).dr3 = s.dr3 := rfl
@[simp] theorem runChecksum_built (b : Buf) (off len : Nat) (s : State) :
    (runChecksum b off len s).built = s.built := rfl
@[simp] theorem runChecksum_errs (b : Buf) (off len : Nat) (s : State) :
    (runChecksum b off len s).errs = s.errs := rfl
@[simp] theorem runChecksum_csZero (b : Buf) (off len : Nat) (s : State) :
    (runChecksum b off len s).csZero = zeroFlag (checksumOf s b off len) := rfl
@[simp] theorem runChecksum_csOdd (b : Buf) (off len : Nat) (s : State) :
    (runChecksum b off len s).csOdd = oddFlag off := rfl
@[simp] theorem runChecksum_lpmHit (b : Buf) (off len : Nat) (s : State) :
    (runChecksum b off len s).lpmHit = s.lpmHit := rfl
@[simp] theorem runChecksum_arpHit (b : Buf) (off len : Nat) (s : State) :
    (runChecksum b off len s).arpHit = s.arpHit := rfl
@[simp] theorem runChecksum_ifHit (b : Buf) (off len : Nat) (s : State) :
    (runChecksum b off len s).ifHit = s.ifHit := rfl
@[simp] theorem runChecksum_outValid (b : Buf) (off len : Nat) (s : State) :
    (runChecksum b off len s).outValid = s.outValid := rfl
@[simp] theorem runChecksum_outSel (b : Buf) (off len : Nat) (s : State) :
    (runChecksum b off len s).outSel = s.outSel := rfl
@[simp] theorem runChecksum_errCode (b : Buf) (off len : Nat) (s : State) :
    (runChecksum b off len s).errCode = s.errCode := rfl
@[simp] theorem runChecksum_errCmd (b : Buf) (off len : Nat) (s : State) :
    (runChecksum b off len s).errCmd = s.errCmd := rfl
@[simp] theorem runChecksum_rxLen (b : Buf) (off len : Nat) (s : State) :
    (runChecksum b off len s).rxLen = s.rxLen := rfl
@[simp] theorem runChecksum_rxIf (b : Buf) (off len : Nat) (s : State) :
    (runChecksum b off len s).rxIf = s.rxIf := rfl
@[simp] theorem runChecksum_txLen (b : Buf) (off len : Nat) (s : State) :
    (runChecksum b off len s).txLen = s.txLen := rfl
@[simp] theorem runChecksum_txIf (b : Buf) (off len : Nat) (s : State) :
    (runChecksum b off len s).txIf = s.txIf := rfl
@[simp] theorem runChecksum_rtLen (b : Buf) (off len : Nat) (s : State) :
    (runChecksum b off len s).rtLen = s.rtLen := rfl
@[simp] theorem runChecksum_atLen (b : Buf) (off len : Nat) (s : State) :
    (runChecksum b off len s).atLen = s.atLen := rfl
@[simp] theorem runChecksum_csRes (b : Buf) (off len : Nat) (s : State) :
    (runChecksum b off len s).csRes = checksumOf s b off len := rfl
@[simp] theorem runChecksum_csFold (b : Buf) (off len : Nat) (s : State) :
    (runChecksum b off len s).csFold = BitVec.ofNat 16 (fold16 (accumulate (s.byte b) s.params.csumSeed.toNat off len)) := rfl
@[simp] theorem runChecksum_csAcc (b : Buf) (off len : Nat) (s : State) :
    (runChecksum b off len s).csAcc = BitVec.ofNat 64 (accumulate (s.byte b) s.params.csumSeed.toNat off len) := rfl
@[simp] theorem runChecksum_lpmIdx (b : Buf) (off len : Nat) (s : State) :
    (runChecksum b off len s).lpmIdx = s.lpmIdx := rfl
@[simp] theorem runChecksum_lpmPfx (b : Buf) (off len : Nat) (s : State) :
    (runChecksum b off len s).lpmPfx = s.lpmPfx := rfl
@[simp] theorem runChecksum_lpmMask (b : Buf) (off len : Nat) (s : State) :
    (runChecksum b off len s).lpmMask = s.lpmMask := rfl
@[simp] theorem runChecksum_lpmNhop (b : Buf) (off len : Nat) (s : State) :
    (runChecksum b off len s).lpmNhop = s.lpmNhop := rfl
@[simp] theorem runChecksum_lpmEif (b : Buf) (off len : Nat) (s : State) :
    (runChecksum b off len s).lpmEif = s.lpmEif := rfl
@[simp] theorem runChecksum_arpIdx (b : Buf) (off len : Nat) (s : State) :
    (runChecksum b off len s).arpIdx = s.arpIdx := rfl
@[simp] theorem runChecksum_arpIp (b : Buf) (off len : Nat) (s : State) :
    (runChecksum b off len s).arpIp = s.arpIp := rfl
@[simp] theorem runChecksum_arpMacHi (b : Buf) (off len : Nat) (s : State) :
    (runChecksum b off len s).arpMacHi = s.arpMacHi := rfl
@[simp] theorem runChecksum_arpMacLo (b : Buf) (off len : Nat) (s : State) :
    (runChecksum b off len s).arpMacLo = s.arpMacLo := rfl
@[simp] theorem runChecksum_disp (b : Buf) (off len : Nat) (s : State) :
    (runChecksum b off len s).disp = s.disp := rfl
@[simp] theorem runChecksum_outLen (b : Buf) (off len : Nat) (s : State) :
    (runChecksum b off len s).outLen = s.outLen := rfl
@[simp] theorem runChecksum_outIf (b : Buf) (off len : Nat) (s : State) :
    (runChecksum b off len s).outIf = s.outIf := rfl
@[simp] theorem runChecksum_rxb (b : Buf) (off len : Nat) (s : State) : (runChecksum b off len s).rxb = s.rxb := rfl
@[simp] theorem runChecksum_txb (b : Buf) (off len : Nat) (s : State) : (runChecksum b off len s).txb = s.txb := rfl
@[simp] theorem runChecksum_rt (b : Buf) (off len : Nat) (s : State) : (runChecksum b off len s).rt = s.rt := rfl
@[simp] theorem runChecksum_arpt (b : Buf) (off len : Nat) (s : State) :
    (runChecksum b off len s).arpt = s.arpt := rfl
@[simp] theorem runChecksum_ifa (b : Buf) (off len : Nat) (s : State) : (runChecksum b off len s).ifa = s.ifa := rfl
@[simp] theorem runChecksum_params (b : Buf) (off len : Nat) (s : State) :
    (runChecksum b off len s).params = s.params := rfl
@[simp] theorem runChecksum_powerUps (b : Buf) (off len : Nat) (s : State) :
    (runChecksum b off len s).powerUps = s.powerUps := rfl
@[simp] theorem runChecksum_builds (b : Buf) (off len : Nat) (s : State) :
    (runChecksum b off len s).builds = s.builds := rfl
@[simp] theorem runChecksum_script (b : Buf) (off len : Nat) (s : State) :
    (runChecksum b off len s).script = s.script := rfl
@[simp] theorem runChecksum_resp (b : Buf) (off len : Nat) (s : State) :
    (runChecksum b off len s).resp = s.resp := rfl
@[simp] theorem runChecksum_byte (b : Buf) (off len : Nat) (s : State) (b' : Buf) (k : Nat) :
    (runChecksum b off len s).byte b' k = s.byte b' k := by cases b' <;> rfl
@[simp] theorem runChecksum_route (b : Buf) (off len : Nat) (s : State) (k : Nat) :
    (runChecksum b off len s).route k = s.route k := rfl
@[simp] theorem runChecksum_arp (b : Buf) (off len : Nat) (s : State) (k : Nat) :
    (runChecksum b off len s).arp k = s.arp k := rfl
@[simp] theorem runChecksum_iface (b : Buf) (off len : Nat) (s : State) (k : Nat) :
    (runChecksum b off len s).iface k = s.iface k := rfl

/-! `writeLpmResult` writes its result registers and no other field (41_lpm.md R132). -/

@[simp] theorem writeLpmResult_dr0 (r : Option Nat) (s : State) :
    (writeLpmResult r s).dr0 = s.dr0 := by cases r <;> rfl
@[simp] theorem writeLpmResult_dr1 (r : Option Nat) (s : State) :
    (writeLpmResult r s).dr1 = s.dr1 := by cases r <;> rfl
@[simp] theorem writeLpmResult_dr2 (r : Option Nat) (s : State) :
    (writeLpmResult r s).dr2 = s.dr2 := by cases r <;> rfl
@[simp] theorem writeLpmResult_dr3 (r : Option Nat) (s : State) :
    (writeLpmResult r s).dr3 = s.dr3 := by cases r <;> rfl
@[simp] theorem writeLpmResult_built (r : Option Nat) (s : State) :
    (writeLpmResult r s).built = s.built := by cases r <;> rfl
@[simp] theorem writeLpmResult_errs (r : Option Nat) (s : State) :
    (writeLpmResult r s).errs = s.errs := by cases r <;> rfl
@[simp] theorem writeLpmResult_csZero (r : Option Nat) (s : State) :
    (writeLpmResult r s).csZero = s.csZero := by cases r <;> rfl
@[simp] theorem writeLpmResult_csOdd (r : Option Nat) (s : State) :
    (writeLpmResult r s).csOdd = s.csOdd := by cases r <;> rfl
@[simp] theorem writeLpmResult_some_lpmHit (i : Nat) (s : State) : (writeLpmResult (some i) s).lpmHit = true := rfl
@[simp] theorem writeLpmResult_none_lpmHit (s : State) : (writeLpmResult none s).lpmHit = false := rfl
@[simp] theorem writeLpmResult_arpHit (r : Option Nat) (s : State) :
    (writeLpmResult r s).arpHit = s.arpHit := by cases r <;> rfl
@[simp] theorem writeLpmResult_ifHit (r : Option Nat) (s : State) :
    (writeLpmResult r s).ifHit = s.ifHit := by cases r <;> rfl
@[simp] theorem writeLpmResult_outValid (r : Option Nat) (s : State) :
    (writeLpmResult r s).outValid = s.outValid := by cases r <;> rfl
@[simp] theorem writeLpmResult_outSel (r : Option Nat) (s : State) :
    (writeLpmResult r s).outSel = s.outSel := by cases r <;> rfl
@[simp] theorem writeLpmResult_errCode (r : Option Nat) (s : State) :
    (writeLpmResult r s).errCode = s.errCode := by cases r <;> rfl
@[simp] theorem writeLpmResult_errCmd (r : Option Nat) (s : State) :
    (writeLpmResult r s).errCmd = s.errCmd := by cases r <;> rfl
@[simp] theorem writeLpmResult_rxLen (r : Option Nat) (s : State) :
    (writeLpmResult r s).rxLen = s.rxLen := by cases r <;> rfl
@[simp] theorem writeLpmResult_rxIf (r : Option Nat) (s : State) :
    (writeLpmResult r s).rxIf = s.rxIf := by cases r <;> rfl
@[simp] theorem writeLpmResult_txLen (r : Option Nat) (s : State) :
    (writeLpmResult r s).txLen = s.txLen := by cases r <;> rfl
@[simp] theorem writeLpmResult_txIf (r : Option Nat) (s : State) :
    (writeLpmResult r s).txIf = s.txIf := by cases r <;> rfl
@[simp] theorem writeLpmResult_rtLen (r : Option Nat) (s : State) :
    (writeLpmResult r s).rtLen = s.rtLen := by cases r <;> rfl
@[simp] theorem writeLpmResult_atLen (r : Option Nat) (s : State) :
    (writeLpmResult r s).atLen = s.atLen := by cases r <;> rfl
@[simp] theorem writeLpmResult_csRes (r : Option Nat) (s : State) :
    (writeLpmResult r s).csRes = s.csRes := by cases r <;> rfl
@[simp] theorem writeLpmResult_csFold (r : Option Nat) (s : State) :
    (writeLpmResult r s).csFold = s.csFold := by cases r <;> rfl
@[simp] theorem writeLpmResult_csAcc (r : Option Nat) (s : State) :
    (writeLpmResult r s).csAcc = s.csAcc := by cases r <;> rfl
@[simp] theorem writeLpmResult_some_lpmIdx (i : Nat) (s : State) :
    (writeLpmResult (some i) s).lpmIdx = BitVec.ofNat 32 i := rfl
@[simp] theorem writeLpmResult_none_lpmIdx (s : State) : (writeLpmResult none s).lpmIdx = 0 := rfl
@[simp] theorem writeLpmResult_some_lpmPfx (i : Nat) (s : State) :
    (writeLpmResult (some i) s).lpmPfx = (s.route i).pfx := rfl
@[simp] theorem writeLpmResult_none_lpmPfx (s : State) : (writeLpmResult none s).lpmPfx = 0 := rfl
@[simp] theorem writeLpmResult_some_lpmMask (i : Nat) (s : State) :
    (writeLpmResult (some i) s).lpmMask = (s.route i).mask := rfl
@[simp] theorem writeLpmResult_none_lpmMask (s : State) : (writeLpmResult none s).lpmMask = 0 := rfl
@[simp] theorem writeLpmResult_some_lpmNhop (i : Nat) (s : State) :
    (writeLpmResult (some i) s).lpmNhop = (s.route i).nextHop := rfl
@[simp] theorem writeLpmResult_none_lpmNhop (s : State) : (writeLpmResult none s).lpmNhop = 0 := rfl
@[simp] theorem writeLpmResult_some_lpmEif (i : Nat) (s : State) :
    (writeLpmResult (some i) s).lpmEif = (s.route i).egressIf := rfl
@[simp] theorem writeLpmResult_none_lpmEif (s : State) : (writeLpmResult none s).lpmEif = 0 := rfl
@[simp] theorem writeLpmResult_arpIdx (r : Option Nat) (s : State) :
    (writeLpmResult r s).arpIdx = s.arpIdx := by cases r <;> rfl
@[simp] theorem writeLpmResult_arpIp (r : Option Nat) (s : State) :
    (writeLpmResult r s).arpIp = s.arpIp := by cases r <;> rfl
@[simp] theorem writeLpmResult_arpMacHi (r : Option Nat) (s : State) :
    (writeLpmResult r s).arpMacHi = s.arpMacHi := by cases r <;> rfl
@[simp] theorem writeLpmResult_arpMacLo (r : Option Nat) (s : State) :
    (writeLpmResult r s).arpMacLo = s.arpMacLo := by cases r <;> rfl
@[simp] theorem writeLpmResult_disp (r : Option Nat) (s : State) :
    (writeLpmResult r s).disp = s.disp := by cases r <;> rfl
@[simp] theorem writeLpmResult_outLen (r : Option Nat) (s : State) :
    (writeLpmResult r s).outLen = s.outLen := by cases r <;> rfl
@[simp] theorem writeLpmResult_outIf (r : Option Nat) (s : State) :
    (writeLpmResult r s).outIf = s.outIf := by cases r <;> rfl
@[simp] theorem writeLpmResult_rxb (r : Option Nat) (s : State) :
    (writeLpmResult r s).rxb = s.rxb := by cases r <;> rfl
@[simp] theorem writeLpmResult_txb (r : Option Nat) (s : State) :
    (writeLpmResult r s).txb = s.txb := by cases r <;> rfl
@[simp] theorem writeLpmResult_rt (r : Option Nat) (s : State) : (writeLpmResult r s).rt = s.rt := by cases r <;> rfl
@[simp] theorem writeLpmResult_arpt (r : Option Nat) (s : State) :
    (writeLpmResult r s).arpt = s.arpt := by cases r <;> rfl
@[simp] theorem writeLpmResult_ifa (r : Option Nat) (s : State) :
    (writeLpmResult r s).ifa = s.ifa := by cases r <;> rfl
@[simp] theorem writeLpmResult_params (r : Option Nat) (s : State) :
    (writeLpmResult r s).params = s.params := by cases r <;> rfl
@[simp] theorem writeLpmResult_powerUps (r : Option Nat) (s : State) :
    (writeLpmResult r s).powerUps = s.powerUps := by cases r <;> rfl
@[simp] theorem writeLpmResult_builds (r : Option Nat) (s : State) :
    (writeLpmResult r s).builds = s.builds := by cases r <;> rfl
@[simp] theorem writeLpmResult_script (r : Option Nat) (s : State) :
    (writeLpmResult r s).script = s.script := by cases r <;> rfl
@[simp] theorem writeLpmResult_resp (r : Option Nat) (s : State) :
    (writeLpmResult r s).resp = s.resp := by cases r <;> rfl
@[simp] theorem writeLpmResult_byte (r : Option Nat) (s : State) (b : Buf) (k : Nat) :
    (writeLpmResult r s).byte b k = s.byte b k := by cases b <;> cases r <;> rfl
@[simp] theorem writeLpmResult_route (r : Option Nat) (s : State) (k : Nat) :
    (writeLpmResult r s).route k = s.route k := by cases r <;> rfl
@[simp] theorem writeLpmResult_arp (r : Option Nat) (s : State) (k : Nat) :
    (writeLpmResult r s).arp k = s.arp k := by cases r <;> rfl
@[simp] theorem writeLpmResult_iface (r : Option Nat) (s : State) (k : Nat) :
    (writeLpmResult r s).iface k = s.iface k := by cases r <;> rfl

/-! `writeArpResult` writes its result registers and no other field (41_lpm.md R136). -/

@[simp] theorem writeArpResult_dr0 (r : Option Nat) (s : State) :
    (writeArpResult r s).dr0 = s.dr0 := by cases r <;> rfl
@[simp] theorem writeArpResult_dr1 (r : Option Nat) (s : State) :
    (writeArpResult r s).dr1 = s.dr1 := by cases r <;> rfl
@[simp] theorem writeArpResult_dr2 (r : Option Nat) (s : State) :
    (writeArpResult r s).dr2 = s.dr2 := by cases r <;> rfl
@[simp] theorem writeArpResult_dr3 (r : Option Nat) (s : State) :
    (writeArpResult r s).dr3 = s.dr3 := by cases r <;> rfl
@[simp] theorem writeArpResult_built (r : Option Nat) (s : State) :
    (writeArpResult r s).built = s.built := by cases r <;> rfl
@[simp] theorem writeArpResult_errs (r : Option Nat) (s : State) :
    (writeArpResult r s).errs = s.errs := by cases r <;> rfl
@[simp] theorem writeArpResult_csZero (r : Option Nat) (s : State) :
    (writeArpResult r s).csZero = s.csZero := by cases r <;> rfl
@[simp] theorem writeArpResult_csOdd (r : Option Nat) (s : State) :
    (writeArpResult r s).csOdd = s.csOdd := by cases r <;> rfl
@[simp] theorem writeArpResult_lpmHit (r : Option Nat) (s : State) :
    (writeArpResult r s).lpmHit = s.lpmHit := by cases r <;> rfl
@[simp] theorem writeArpResult_some_arpHit (i : Nat) (s : State) : (writeArpResult (some i) s).arpHit = true := rfl
@[simp] theorem writeArpResult_none_arpHit (s : State) : (writeArpResult none s).arpHit = false := rfl
@[simp] theorem writeArpResult_ifHit (r : Option Nat) (s : State) :
    (writeArpResult r s).ifHit = s.ifHit := by cases r <;> rfl
@[simp] theorem writeArpResult_outValid (r : Option Nat) (s : State) :
    (writeArpResult r s).outValid = s.outValid := by cases r <;> rfl
@[simp] theorem writeArpResult_outSel (r : Option Nat) (s : State) :
    (writeArpResult r s).outSel = s.outSel := by cases r <;> rfl
@[simp] theorem writeArpResult_errCode (r : Option Nat) (s : State) :
    (writeArpResult r s).errCode = s.errCode := by cases r <;> rfl
@[simp] theorem writeArpResult_errCmd (r : Option Nat) (s : State) :
    (writeArpResult r s).errCmd = s.errCmd := by cases r <;> rfl
@[simp] theorem writeArpResult_rxLen (r : Option Nat) (s : State) :
    (writeArpResult r s).rxLen = s.rxLen := by cases r <;> rfl
@[simp] theorem writeArpResult_rxIf (r : Option Nat) (s : State) :
    (writeArpResult r s).rxIf = s.rxIf := by cases r <;> rfl
@[simp] theorem writeArpResult_txLen (r : Option Nat) (s : State) :
    (writeArpResult r s).txLen = s.txLen := by cases r <;> rfl
@[simp] theorem writeArpResult_txIf (r : Option Nat) (s : State) :
    (writeArpResult r s).txIf = s.txIf := by cases r <;> rfl
@[simp] theorem writeArpResult_rtLen (r : Option Nat) (s : State) :
    (writeArpResult r s).rtLen = s.rtLen := by cases r <;> rfl
@[simp] theorem writeArpResult_atLen (r : Option Nat) (s : State) :
    (writeArpResult r s).atLen = s.atLen := by cases r <;> rfl
@[simp] theorem writeArpResult_csRes (r : Option Nat) (s : State) :
    (writeArpResult r s).csRes = s.csRes := by cases r <;> rfl
@[simp] theorem writeArpResult_csFold (r : Option Nat) (s : State) :
    (writeArpResult r s).csFold = s.csFold := by cases r <;> rfl
@[simp] theorem writeArpResult_csAcc (r : Option Nat) (s : State) :
    (writeArpResult r s).csAcc = s.csAcc := by cases r <;> rfl
@[simp] theorem writeArpResult_lpmIdx (r : Option Nat) (s : State) :
    (writeArpResult r s).lpmIdx = s.lpmIdx := by cases r <;> rfl
@[simp] theorem writeArpResult_lpmPfx (r : Option Nat) (s : State) :
    (writeArpResult r s).lpmPfx = s.lpmPfx := by cases r <;> rfl
@[simp] theorem writeArpResult_lpmMask (r : Option Nat) (s : State) :
    (writeArpResult r s).lpmMask = s.lpmMask := by cases r <;> rfl
@[simp] theorem writeArpResult_lpmNhop (r : Option Nat) (s : State) :
    (writeArpResult r s).lpmNhop = s.lpmNhop := by cases r <;> rfl
@[simp] theorem writeArpResult_lpmEif (r : Option Nat) (s : State) :
    (writeArpResult r s).lpmEif = s.lpmEif := by cases r <;> rfl
@[simp] theorem writeArpResult_some_arpIdx (i : Nat) (s : State) :
    (writeArpResult (some i) s).arpIdx = BitVec.ofNat 32 i := rfl
@[simp] theorem writeArpResult_none_arpIdx (s : State) : (writeArpResult none s).arpIdx = 0 := rfl
@[simp] theorem writeArpResult_some_arpIp (i : Nat) (s : State) :
    (writeArpResult (some i) s).arpIp = (s.arp i).ip := rfl
@[simp] theorem writeArpResult_none_arpIp (s : State) : (writeArpResult none s).arpIp = 0 := rfl
@[simp] theorem writeArpResult_some_arpMacHi (i : Nat) (s : State) :
    (writeArpResult (some i) s).arpMacHi = (s.arp i).mac.hi := rfl
@[simp] theorem writeArpResult_none_arpMacHi (s : State) : (writeArpResult none s).arpMacHi = 0 := rfl
@[simp] theorem writeArpResult_some_arpMacLo (i : Nat) (s : State) :
    (writeArpResult (some i) s).arpMacLo = (s.arp i).mac.lo := rfl
@[simp] theorem writeArpResult_none_arpMacLo (s : State) : (writeArpResult none s).arpMacLo = 0 := rfl
@[simp] theorem writeArpResult_disp (r : Option Nat) (s : State) :
    (writeArpResult r s).disp = s.disp := by cases r <;> rfl
@[simp] theorem writeArpResult_outLen (r : Option Nat) (s : State) :
    (writeArpResult r s).outLen = s.outLen := by cases r <;> rfl
@[simp] theorem writeArpResult_outIf (r : Option Nat) (s : State) :
    (writeArpResult r s).outIf = s.outIf := by cases r <;> rfl
@[simp] theorem writeArpResult_rxb (r : Option Nat) (s : State) :
    (writeArpResult r s).rxb = s.rxb := by cases r <;> rfl
@[simp] theorem writeArpResult_txb (r : Option Nat) (s : State) :
    (writeArpResult r s).txb = s.txb := by cases r <;> rfl
@[simp] theorem writeArpResult_rt (r : Option Nat) (s : State) : (writeArpResult r s).rt = s.rt := by cases r <;> rfl
@[simp] theorem writeArpResult_arpt (r : Option Nat) (s : State) :
    (writeArpResult r s).arpt = s.arpt := by cases r <;> rfl
@[simp] theorem writeArpResult_ifa (r : Option Nat) (s : State) :
    (writeArpResult r s).ifa = s.ifa := by cases r <;> rfl
@[simp] theorem writeArpResult_params (r : Option Nat) (s : State) :
    (writeArpResult r s).params = s.params := by cases r <;> rfl
@[simp] theorem writeArpResult_powerUps (r : Option Nat) (s : State) :
    (writeArpResult r s).powerUps = s.powerUps := by cases r <;> rfl
@[simp] theorem writeArpResult_builds (r : Option Nat) (s : State) :
    (writeArpResult r s).builds = s.builds := by cases r <;> rfl
@[simp] theorem writeArpResult_script (r : Option Nat) (s : State) :
    (writeArpResult r s).script = s.script := by cases r <;> rfl
@[simp] theorem writeArpResult_resp (r : Option Nat) (s : State) :
    (writeArpResult r s).resp = s.resp := by cases r <;> rfl
@[simp] theorem writeArpResult_byte (r : Option Nat) (s : State) (b : Buf) (k : Nat) :
    (writeArpResult r s).byte b k = s.byte b k := by cases b <;> cases r <;> rfl
@[simp] theorem writeArpResult_route (r : Option Nat) (s : State) (k : Nat) :
    (writeArpResult r s).route k = s.route k := by cases r <;> rfl
@[simp] theorem writeArpResult_arp (r : Option Nat) (s : State) (k : Nat) :
    (writeArpResult r s).arp k = s.arp k := by cases r <;> rfl
@[simp] theorem writeArpResult_iface (r : Option Nat) (s : State) (k : Nat) :
    (writeArpResult r s).iface k = s.iface k := by cases r <;> rfl

end Sys2Proof.Machine
end

