-- ==== Sys2Proof/Laws/Ops.lean ====
section
/-! SUPPORT. For each shared operation, once, everything it can do: which bytes, entries and registers it leaves how, and
that the memory operations keep the canonical form. -/

namespace Sys2Proof.Machine

/-! Buffers. -/

@[simp] theorem State.buf_setBuf_self (s : State) (b : Buf) (m : Memory) : (s.setBuf b m).buf b = m := by
  cases b <;> rfl

theorem State.buf_setBuf_of_ne (s : State) {b b' : Buf} (h : b' ≠ b) (m : Memory) :
    (s.setBuf b m).buf b' = s.buf b' := by
  cases b <;> cases b' <;> first | rfl | exact absurd rfl h

/-- A byte after replacing a buffer. -/
theorem State.byte_setBuf (s : State) (b b' : Buf) (m : Memory) (i : Nat) :
    (s.setBuf b m).byte b' i =
      if b' = b then (Store.get? m i).getD (Config.powerUpByte s.powerUps b i) else s.byte b' i := by
  cases b <;> cases b' <;> simp [State.byte, State.setBuf, State.buf]

/-- `writeByte`: the byte written, and every other byte as before. -/
theorem State.byte_writeByte (s : State) (b b' : Buf) (a i : Nat) (v : Byte) :
    (s.writeByte b a v).byte b' i = if b' = b ∧ i = a then v else s.byte b' i := by
  simp only [State.writeByte, State.byte_setBuf, Store.get?_put]
  by_cases hb : b' = b <;> by_cases hi : i = a <;> simp [hb, hi, State.byte]

/-- `writeBytes`: the bytes written, and every other byte as before. -/
theorem State.byte_writeBytes (s : State) (b b' : Buf) (a i : Nat) (l : List Byte) :
    (s.writeBytes b a l).byte b' i =
      if b' = b ∧ a ≤ i ∧ i < a + l.length then l.getD (i - a) 0 else s.byte b' i := by
  simp only [State.writeBytes, State.byte_setBuf, Store.get?_putMany]
  by_cases hb : b' = b
  · subst hb
    by_cases hi : a ≤ i ∧ i < a + l.length
    · simp only [hi, and_self, if_true, List.getD_eq_getElem?_getD]
      rw [List.getElem?_eq_getElem (by omega)]
      rfl
    · simp [hi, State.byte]
  · simp [hb]

@[simp] theorem length_beBytes (n : Nat) (v : Word) : (beBytes n v).length = n := by simp [beBytes]

theorem getD_beBytes (n : Nat) (v : Word) (k : Nat) (h : k < n) :
    (beBytes n v).getD k 0 = v.extractLsb' (8 * (n - 1 - k)) 8 := by
  simp [beBytes, h]

/-- `memWrite`: byte `k` of the big-endian form at `a + k`, and every other byte as before. -/
theorem State.byte_memWrite (s : State) (b b' : Buf) (a n i : Nat) (v : Word) :
    (s.memWrite b a n v).byte b' i =
      if b' = b ∧ a ≤ i ∧ i < a + n then v.extractLsb' (8 * (n - 1 - (i - a))) 8 else s.byte b' i := by
  simp only [State.memWrite, State.byte_writeBytes, length_beBytes]
  split_ifs with h
  · exact getD_beBytes n v (i - a) (by omega)
  · rfl

/-- `clearBuf`: zero below `FB_SIZE`, every other byte as before. -/
theorem State.byte_clearBuf (s : State) (b b' : Buf) (i : Nat) :
    (s.clearBuf b).byte b' i = if b' = b ∧ i < s.params.fbSize then 0 else s.byte b' i := by
  simp only [State.clearBuf, State.byte_setBuf, Store.get?_replaceFront, List.length_replicate]
  by_cases hb : b' = b
  · subst hb
    by_cases hi : i < s.params.fbSize <;> simp [hi, State.byte]
  · simp [hb]

@[simp] theorem State.length_bytes (s : State) (b : Buf) (a n : Nat) : (s.bytes b a n).length = n := by
  simp [State.bytes]

theorem State.getD_bytes (s : State) (b : Buf) (a n k : Nat) (h : k < n) :
    (s.bytes b a n).getD k 0 = s.byte b (a + k) := by
  simp [State.bytes, h]

/-! The canonical form of the buffers. -/

theorem MemoryInv.congr {s t : State} (h : MemoryInv s) (hp : t.params = s.params) (hr : t.rxb = s.rxb)
    (ht : t.txb = s.txb) : MemoryInv t := by
  obtain ⟨h1, h2, h3, h4, h5⟩ := h
  exact ⟨hp ▸ h1, hr ▸ h2, ht ▸ h3, by rw [hr, hp]; exact h4, by rw [ht, hp]; exact h5⟩

theorem MemoryInv.wf {s : State} (h : MemoryInv s) (b : Buf) : Store.wf (s.buf b) = true := by
  cases b
  · exact h.rxbWf
  · exact h.txbWf

theorem MemoryInv.below {s : State} (h : MemoryInv s) (b : Buf) : Store.Below (s.buf b) s.params.fbSize := by
  cases b
  · exact h.rxbBelow
  · exact h.txbBelow

theorem MemoryInv.setBuf {s : State} (h : MemoryInv s) (b : Buf) (m : Memory) (hw : Store.wf m = true)
    (hb : Store.Below m s.params.fbSize) : MemoryInv (s.setBuf b m) := by
  cases b
  · exact ⟨h.legal, hw, h.txbWf, hb, h.txbBelow⟩
  · exact ⟨h.legal, h.rxbWf, hw, h.rxbBelow, hb⟩

/-- Every memory operation keeps the canonical form: one byte. -/
theorem MemoryInv.writeByte {s : State} (h : MemoryInv s) (b : Buf) (a : Nat) (v : Byte)
    (ha : a < s.params.fbSize) : MemoryInv (s.writeByte b a v) :=
  h.setBuf b _ (Store.wf_put _ a v (h.wf b)) (Store.below_put _ a _ v (h.below b) ha)

/-- Every memory operation keeps the canonical form: several bytes. -/
theorem MemoryInv.writeBytes {s : State} (h : MemoryInv s) (b : Buf) (a : Nat) (l : List Byte)
    (ha : a + l.length ≤ s.params.fbSize) : MemoryInv (s.writeBytes b a l) :=
  h.setBuf b _ (Store.wf_putMany l _ a (h.wf b)) (Store.below_putMany l _ a _ (h.below b) ha)

/-- Every memory operation keeps the canonical form: a field. -/
theorem MemoryInv.memWrite {s : State} (h : MemoryInv s) (b : Buf) (a n : Nat) (v : Word)
    (ha : a + n ≤ s.params.fbSize) : MemoryInv (s.memWrite b a n v) :=
  h.writeBytes b a _ (by rw [length_beBytes]; exact ha)

/-- Every memory operation keeps the canonical form: clearing a buffer. -/
theorem MemoryInv.clearBuf {s : State} (h : MemoryInv s) (b : Buf) : MemoryInv (s.clearBuf b) :=
  h.setBuf b _ (Store.wf_replaceFront _ _ (h.wf b)) (Store.below_replaceFront _ _ _ (h.below b) (by simp))

/-- The memory of the reset state has the canonical form. -/
theorem reset_memory_wf : Memory.wf State.reset.rxb = true ∧ Memory.wf State.reset.txb = true := ⟨rfl, rfl⟩

/-! Table entries. -/

/-- A table write: the entry written, and every other entry as before. -/
theorem State.route_put (s : State) (a i : Nat) (e : RouteEntry) :
    ({ s with rt := Store.put s.rt a e } : State).route i = if i = a then e else s.route i := by
  simp only [State.route, Store.get?_put]
  split_ifs <;> rfl

theorem State.arp_put (s : State) (a i : Nat) (e : ArpEntry) :
    ({ s with arpt := Store.put s.arpt a e } : State).arp i = if i = a then e else s.arp i := by
  simp only [State.arp, Store.get?_put]
  split_ifs <;> rfl

theorem State.iface_put (s : State) (a i : Nat) (e : IfEntry) :
    ({ s with ifa := Store.put s.ifa a e } : State).iface i = if i = a then e else s.iface i := by
  simp only [State.iface, Store.get?_put]
  split_ifs <;> rfl

/-- Overwriting the front of the routing table. -/
theorem State.route_replaceFront (s : State) (l : List RouteEntry) (i : Nat) :
    ({ s with rt := Store.replaceFront s.rt l } : State).route i =
      if h : i < l.length then l[i] else s.route i := by
  simp only [State.route, Store.get?_replaceFront]
  split_ifs with h
  · rw [List.getElem?_eq_getElem h]; rfl
  · rfl

@[simp] theorem State.length_routes (s : State) : s.routes.length = s.rtLen.toNat := by simp [State.routes]

/-! The refusal of a command, its acknowledgement and the checksum step, each said whole. -/

/-- `refuse` changes the three error registers and nothing else. -/
theorem refuse_eq (w : Word) (c : RefuseCode) (s : State) :
    refuse w c s = { s with errs := true, errCode := refuseNumber c, errCmd := w } := rfl

/-- `acknowledge` changes the three error registers and nothing else. -/
theorem acknowledge_eq (s : State) : acknowledge s = { s with errs := false, errCode := 0, errCmd := 0 } := rfl

/-- `refreshChecksum` latches the checksum of the range with the field zeroed. -/
theorem refreshChecksum_csRes (b : Buf) (fld off len : Nat) (s : State) :
    (refreshChecksum b fld off len s).csRes = checksumOf (s.memWrite b fld 2 0) b off len := by
  simp [refreshChecksum]

/-- `refreshChecksum` stores the latched result big-endian in the field and keeps every other byte. -/
theorem refreshChecksum_byte (b b' : Buf) (fld off len i : Nat) (s : State) :
    (refreshChecksum b fld off len s).byte b' i =
      if b' = b ∧ i = fld then (checksumOf (s.memWrite b fld 2 0) b off len).extractLsb' 8 8
      else if b' = b ∧ i = fld + 1 then (checksumOf (s.memWrite b fld 2 0) b off len).extractLsb' 0 8
      else s.byte b' i := by
  have hx (c : Half) (k : Nat) : (c.setWidth 32).extractLsb' k 8 = c.extractLsb' k 8 := by
    apply BitVec.eq_of_getLsbD_eq
    intro j hj
    simp only [BitVec.getLsbD_extractLsb', BitVec.getLsbD_setWidth]
    by_cases h16 : k + j < 32
    · simp [h16]
    · rw [BitVec.getLsbD_of_ge c _ (by omega)]; simp
  simp only [refreshChecksum, State.byte_memWrite, runChecksum_byte, runChecksum_csRes, hx]
  by_cases hb : b' = b
  · subst hb
    by_cases h0 : i = fld
    · subst h0; simp
    · by_cases h1 : i = fld + 1
      · subst h1; simp
      · have hn : ¬(fld ≤ i ∧ i < fld + 2) := by omega
        simp [h0, h1, hn]
  · simp [hb]

/-- `refreshChecksum` writes the two buffers and the five checksum fields and no other field. -/
theorem refreshChecksum_frame (b : Buf) (fld off len : Nat) (s : State) :
    refreshChecksum b fld off len s =
      { s with
        rxb := (refreshChecksum b fld off len s).rxb, txb := (refreshChecksum b fld off len s).txb
        csAcc := (refreshChecksum b fld off len s).csAcc, csFold := (refreshChecksum b fld off len s).csFold
        csOdd := (refreshChecksum b fld off len s).csOdd, csRes := (refreshChecksum b fld off len s).csRes
        csZero := (refreshChecksum b fld off len s).csZero } := by
  cases b <;> rfl

/-- `refreshChecksum` on TXB writes TXB and the checksum fields only. -/
theorem refreshChecksum_tx (fld off len : Nat) (s : State) :
    ∃ m acc f o r z, refreshChecksum .tx fld off len s =
      { s with txb := m, csAcc := acc, csFold := f, csOdd := o, csRes := r, csZero := z } :=
  ⟨_, _, _, _, _, _, rfl⟩

/-- The headers that `makeReply` fills in before the first checksum change TXB only. -/
theorem replyHeaders_tx (s : State) : ∃ m, replyIpv4 (replyEthernet (s.clearBuf .tx)) = { s with txb := m } := by
  have step : ∀ (u : State) (m : Memory) (a : Nat) (l : List Byte), u = { s with txb := m } →
      ∃ m', u.writeBytes .tx a l = { s with txb := m' } := by
    rintro u m a l rfl; exact ⟨_, rfl⟩
  have step1 : ∀ (u : State) (m : Memory) (a : Nat) (v : Byte), u = { s with txb := m } →
      ∃ m', u.writeByte .tx a v = { s with txb := m' } := by
    rintro u m a v rfl; exact ⟨_, rfl⟩
  obtain ⟨m0, h0⟩ : ∃ m, s.clearBuf .tx = { s with txb := m } := ⟨_, rfl⟩
  simp only [replyIpv4, replyEthernet, State.memWrite]
  obtain ⟨m1, h1⟩ := step _ _ _ _ h0
  obtain ⟨m2, h2⟩ := step _ _ _ _ h1
  obtain ⟨m3, h3⟩ := step _ _ _ _ h2
  obtain ⟨m4, h4⟩ := step1 _ _ _ _ h3
  obtain ⟨m5, h5⟩ := step1 _ _ _ _ h4
  obtain ⟨m6, h6⟩ := step _ _ _ _ h5
  obtain ⟨m7, h7⟩ := step _ _ _ _ h6
  obtain ⟨m8, h8⟩ := step _ _ _ _ h7
  obtain ⟨m9, h9⟩ := step1 _ _ _ _ h8
  obtain ⟨m10, h10⟩ := step1 _ _ _ _ h9
  obtain ⟨m11, h11⟩ := step _ _ _ _ h10
  exact step _ _ _ _ h11

/-- `makeReply` writes TXB, `TX_LEN`, `TX_IF` and the five checksum fields and no other field. -/
theorem makeReply_frame (ty : Byte) (s : State) :
    ∃ m acc f o r z, makeReply ty s =
      { s with
        txb := m, txLen := 42, txIf := s.rxIf, csAcc := acc, csFold := f, csOdd := o, csRes := r, csZero := z } := by
  obtain ⟨m1, h1⟩ := replyHeaders_tx s
  simp only [makeReply, h1, refreshIpChecksum, refreshIcmpChecksum]
  obtain ⟨m2, a2, f2, o2, r2, z2, h2⟩ := refreshChecksum_tx 24 Config.ethHlen Config.ipHlen { s with txb := m1 }
  rw [h2]
  obtain ⟨m3, h3⟩ : ∃ m, replyIcmp ty { s with txb := m2, csAcc := a2, csFold := f2, csOdd := o2, csRes := r2, csZero := z2 } =
      { s with txb := m, csAcc := a2, csFold := f2, csOdd := o2, csRes := r2, csZero := z2 } := ⟨_, rfl⟩
  rw [h3]
  obtain ⟨m4, a4, f4, o4, r4, z4, h4⟩ := refreshChecksum_tx 36 (Config.ethHlen + Config.ipHlen) Config.icmpHlen
    { s with txb := m3, csAcc := a2, csFold := f2, csOdd := o2, csRes := r2, csZero := z2 }
  exact ⟨m4, a4, f4, o4, r4, z4, by rw [h4]; rfl⟩

/-- `arpLookup` answers `j` when `j` is the lowest loaded index with the address. -/
theorem arpLookup_eq_some {s : State} {a : Word} {j : Nat} :
    arpLookup s a = some j ↔ j < s.atLen.toNat ∧ (s.arp j).ip = a ∧ ∀ i < j, (s.arp i).ip ≠ a := by
  rw [arpLookup, List.find?_range_eq_some]
  simp only [decide_eq_true_eq, List.mem_range, Bool.not_eq_eq_eq_not, Bool.not_true, decide_eq_false_iff_not]
  tauto

/-- `arpLookup` answers none when no loaded entry has the address. -/
theorem arpLookup_eq_none {s : State} {a : Word} :
    arpLookup s a = none ↔ ∀ i < s.atLen.toNat, (s.arp i).ip ≠ a := by
  simp [arpLookup]

/-- `localFlag` holds when some valid interface entry has the address. -/
theorem localFlag_iff {s : State} {d : Word} :
    localFlag s d = true ↔ ∃ i < s.params.nIf, (s.iface i).valid = true ∧ (s.iface i).addr = d := by
  simp [localFlag]

/-! The host bus. -/

/-- A legal word runs its instruction. -/
theorem issue_ok {w : Word} {i : Instr} (h : decode w = .ok i) (s : State) : issue w s = exec i s := by simp [issue, h]

/-- An illegal word is refused. -/
theorem issue_error {w : Word} {e : Reject} (h : decode w = .error e) (s : State) :
    issue w s = .next (refuse w .illegal s) := by simp [issue, h]


@[simp] theorem answer_next (r : Response) (s : State) : answer r (.next s) = .next { s with resp := r } := rfl

/-- A command write issues the word and acknowledges it. -/
theorem hostWrite_cmd (v : Word) (s : State) : hostWrite .word 0 v s = answer .ack (issue v s) := rfl

/-- A step serves the host's next action in the state whose script has lost it. -/
theorem step_cons (s : State) (a : HostAction) (rest : List HostAction) (h : s.script = a :: rest) :
    step s = perform a { s with script := rest } := by
  simp [step, h]

theorem step_nil (s : State) (h : s.script = []) : step s = .next s := by
  simp [step, h]

end Sys2Proof.Machine
end

