-- ==== Sys2Proof/Laws/PerInstr.lean ====
section
/-! SUPPORT. Facts stated of every instruction as syntax, one lemma per constructor. -/

namespace Sys2Proof.Laws.OpcodeField

/-- The opcode of each command (30_encoding.md R82). -/
def opcodeOf : Instr → Nat
  | .nop => 0x00
  | .srst => 0x01
  | .rtload => 0x08
  | .atload => 0x09
  | .ifload _ => 0x0A
  | .build => 0x0B
  | .rtread => 0x0C
  | .atread => 0x0D
  | .ifread _ => 0x0E
  | .rtlookup => 0x10
  | .arplookup => 0x11
  | .csum _ _ _ => 0x18
  | .rdf _ _ => 0x20
  | .wrf _ _ => 0x21
  | .bufclr _ => 0x22
  | .ipcs _ => 0x23
  | .icmpcs _ => 0x24
  | .mkreply _ => 0x25
  | .fwd => 0x30

/-- Bits 31:26 of an instruction's word are its opcode (30_encoding.md R80, R82). -/
def Statement (i : Instr) : Prop := i.wellFormed = true → opField (encode i) = opcodeOf i

theorem nop : Statement .nop := fun _ => rfl
theorem srst : Statement .srst := fun _ => rfl
theorem rtload : Statement .rtload := fun _ => rfl
theorem atload : Statement .atload := fun _ => rfl
theorem ifload (id : Nat) : Statement (.ifload id) := fun h =>
  opField_pack 0x0A 0 0 id (by omega) (by omega) (by omega) (by simpa [Instr.wellFormed] using h)
theorem build : Statement .build := fun _ => rfl
theorem rtread : Statement .rtread := fun _ => rfl
theorem atread : Statement .atread := fun _ => rfl
theorem ifread (id : Nat) : Statement (.ifread id) := fun h =>
  opField_pack 0x0E 0 0 id (by omega) (by omega) (by omega) (by simpa [Instr.wellFormed] using h)
theorem rtlookup : Statement .rtlookup := fun _ => rfl
theorem arplookup : Statement .arplookup := fun _ => rfl
theorem csum (b : Buf) (off len : Nat) : Statement (.csum b off len) := fun h => by
  have h' : off < 4096 ∧ len < 4096 := by simpa [Instr.wellFormed] using h
  exact opField_pack 0x18 b.sBit off len (by omega) (sBit_lt b) h'.1 h'.2
theorem rdf (b : Buf) (f : Nat) : Statement (.rdf b f) := fun h => by
  have h' : f < 32 := by simpa [Instr.wellFormed] using h
  exact opField_pack 0x20 b.sBit 0 f (by omega) (sBit_lt b) (by omega) (by omega)
theorem wrf (b : Buf) (f : Nat) : Statement (.wrf b f) := fun h => by
  have h' : f < 32 := by simpa [Instr.wellFormed] using h
  exact opField_pack 0x21 b.sBit 0 f (by omega) (sBit_lt b) (by omega) (by omega)
theorem bufclr (b : Buf) : Statement (.bufclr b) := fun _ =>
  opField_pack 0x22 b.sBit 0 0 (by omega) (sBit_lt b) (by omega) (by omega)
theorem ipcs (b : Buf) : Statement (.ipcs b) := fun _ =>
  opField_pack 0x23 b.sBit 0 0 (by omega) (sBit_lt b) (by omega) (by omega)
theorem icmpcs (b : Buf) : Statement (.icmpcs b) := fun _ =>
  opField_pack 0x24 b.sBit 0 0 (by omega) (sBit_lt b) (by omega) (by omega)
theorem mkreply (t : Byte) : Statement (.mkreply t) := fun _ =>
  opField_pack 0x25 0 0 t.toNat (by omega) (by omega) (by omega) (by have := t.isLt; omega)
theorem fwd : Statement .fwd := fun _ => rfl

end Sys2Proof.Laws.OpcodeField
end

