-- ==== Sys2Proof/Tests/Slice0.lean ====
section
/-! SUPPORT. Tests: expected values are those of spec/95_test_vectors.md (named in each comment) or worked by hand from
spec/30_encoding.md; and a witness for the hypotheses of every statement that has some. -/

namespace Sys2Proof.Tests

open Sys2Proof Sys2Proof.Machine Sys2Proof.Claims

/-! ## Well-formedness: the check refuses each kind of ill-formed term. -/

theorem test_wf_ifload_id_too_wide : (Instr.ifload 4096).wellFormed = false := by decide
theorem test_wf_ifread_id_too_wide : (Instr.ifread 4096).wellFormed = false := by decide
theorem test_wf_csum_off_too_wide : (Instr.csum .rx 4096 0).wellFormed = false := by decide
theorem test_wf_csum_len_too_wide : (Instr.csum .tx 0 4096).wellFormed = false := by decide
theorem test_wf_rdf_field_too_wide : (Instr.rdf .rx 32).wellFormed = false := by decide
theorem test_wf_wrf_field_too_wide : (Instr.wrf .tx 32).wellFormed = false := by decide
theorem test_wf_accepts_the_largest : (Instr.csum .tx 4095 4095).wellFormed = true := by decide

/-! ## Decoding: a word of every command, from V55, R90 and the opcode map R82, with operands at their ends. -/

theorem test_decode_nop : decode 0x00000000 = .ok .nop := by decide
theorem test_decode_srst : decode 0x04000000 = .ok .srst := by decide
theorem test_decode_rtload : decode 0x20000000 = .ok .rtload := by decide
theorem test_decode_atload : decode 0x24000000 = .ok .atload := by decide
theorem test_decode_ifload : decode 0b00101000000000000000000000000010 = .ok (.ifload 2) := by decide
theorem test_decode_ifload_max : decode 0x28000FFF = .ok (.ifload 4095) := by decide
theorem test_decode_build : decode 0x2C000000 = .ok .build := by decide
theorem test_decode_rtread : decode 0x30000000 = .ok .rtread := by decide
theorem test_decode_atread : decode 0x34000000 = .ok .atread := by decide
theorem test_decode_ifread : decode 0x38000003 = .ok (.ifread 3) := by decide
theorem test_decode_rtlookup : decode 0x40000000 = .ok .rtlookup := by decide
theorem test_decode_arplookup : decode 0x44000000 = .ok .arplookup := by decide
theorem test_decode_csum : decode 0b01100000000000001110000000010100 = .ok (.csum .rx 14 20) := by decide
theorem test_decode_csum_tx_max : decode 0b01100010111111111111111111111111 = .ok (.csum .tx 4095 4095) := by decide
theorem test_decode_rdf : decode 0x80000009 = .ok (.rdf .rx 9) := by decide
theorem test_decode_wrf : decode 0b10000110000000000000000000001101 = .ok (.wrf .tx 13) := by decide
theorem test_decode_bufclr : decode 0x8A000000 = .ok (.bufclr .tx) := by decide
theorem test_decode_ipcs : decode 0x8C000000 = .ok (.ipcs .rx) := by decide
theorem test_decode_icmpcs : decode 0x92000000 = .ok (.icmpcs .tx) := by decide
theorem test_decode_mkreply : decode 0b10010100000000000000000000001011 = .ok (.mkreply 11) := by decide
theorem test_decode_fwd : decode 0xC0000000 = .ok .fwd := by decide

/-- The illegal words of V52, and an unassigned opcode of R82's list. -/
theorem test_decode_illegal :
    decode 0xFFFFFFFF = .error (.unassignedOpcode 0x3F) ∧ decode 0x00000001 = .error (.mustBeZero 0) ∧
    decode 0x08000000 = .error (.unassignedOpcode 2) ∧ decode 0xC0000001 = .error (.mustBeZero 0x30) ∧
    decode 0x94000100 = .error (.mustBeZero 0x25) ∧ decode 0x81000009 = .error (.mustBeZero 0x20) ∧
    decode 0x2A000000 = .error (.mustBeZero 0x0A) ∧ decode 0x61000000 = .error (.mustBeZero 0x18) := by decide

/-- V37: `RDF` with a bit of `B[11:5]` and `IPCS` with a bit of `B` are illegal. -/
theorem test_decode_illegal_operand_bits :
    decode 0x80000020 = .error (.mustBeZero 0x20) ∧ decode 0x8C000001 = .error (.mustBeZero 0x23) := by decide

/-- The encoder against words written out: R90. -/
theorem test_encode_words :
    encode (.csum .tx 34 8) = 0x62022008 ∧ encode (.wrf .tx 13) = 0x8600000D ∧ encode (.mkreply 11) = 0x9400000B ∧
    encode (.icmpcs .tx) = 0x92000000 ∧ encode (.ifread 3) = 0x38000003 := by decide

/-! ## Small states -/

/-- The state after an outcome. -/
def after : Host.Outcome State Fault Refusal → State
  | .next s => s
  | _ => State.reset

/-- Legal parameters with small arrays. -/
def small : Params := { fbSize := 44, rtCap := 3, atCap := 2, nIf := 3 }

/-- The reset state with small arrays. -/
def s0 : State := { State.reset with params := small }

/-- `s0` in the RUN phase. -/
def r0 : State := { s0 with built := true }

/-- Buffer contents from index 0. -/
def frame (l : List Byte) : Memory := Store.fromIndex 0 l

/-- The frame `F2` of 95_test_vectors.md section 4 with its bytes 22 to 25 and its destination address replaced. -/
def f2 (ttl proto c0 c1 : Byte) (d : List Byte) : Memory :=
  frame ([0x02, 0x00, 0x00, 0x00, 0x00, 0x01, 0x02, 0xAA, 0xBB, 0xCC, 0xDD, 0x01, 0x08, 0x00,
    0x45, 0x00, 0x00, 0x1C, 0x12, 0x34, 0x00, 0x00, ttl, proto, c0, c1, 0xC0, 0xA8, 0x01, 0x0A] ++ d ++
    [0x08, 0x00, 0x39, 0x0F, 0xBE, 0xEF, 0x00, 0x01])

/-- Configuration `K` of 95_test_vectors.md section 5 after `BUILD`. -/
def k0 : State :=
  { r0 with
    rt := Store.fromIndex 0
      [⟨0x0A000000, 0xFF000000, 0xAC100001, 1⟩, ⟨0x0A000000, 0xFFFFFF00, 0xAC100002, 2⟩,
        ⟨0xC0A80100, 0xFFFFFF00, 0x00000000, 0⟩]
    rtLen := 3
    arpt := Store.fromIndex 0
      [⟨0x0A000005, ⟨0x02, 0x11, 0x22, 0x33, 0x44, 0x55⟩⟩, ⟨0xC0A8010A, ⟨0x02, 0xAA, 0xBB, 0xCC, 0xDD, 0x01⟩⟩]
    atLen := 2
    ifa := Store.fromIndex 0 [⟨0xC0A80101, true⟩, ⟨0xAC1000FE, true⟩, ⟨0xAC1001FE, true⟩]
    rxLen := 42 }

/-- V40's frame: TTL 2 to 10.0.0.5, routed with an ARP entry. -/
def kFwd : State := { k0 with rxb := f2 0x02 0x01 0xDA 0xF6 [0x0A, 0x00, 0x00, 0x05] }

/-- V38's frame: TTL 1. -/
def kTtl : State := { k0 with rxb := f2 0x01 0x01 0xDB 0xF6 [0x0A, 0x00, 0x00, 0x05] }

/-- V45's frame: no route to 8.8.8.8. -/
def kNoRoute : State := { k0 with rxb := f2 0x40 0x01 0x96 0xEB [0x08, 0x08, 0x08, 0x08], rxIf := 3 }

/-- V42's frame: to the router's own address 192.168.1.1. -/
def kLocal : State := { k0 with rxb := f2 0x40 0x01 0xE5 0x51 [0xC0, 0xA8, 0x01, 0x01] }

/-- V47's frame: TTL 3 to 10.0.0.9, routed without an ARP entry. -/
def kNoArp : State := { k0 with rxb := f2 0x03 0x01 0xD9 0xF2 [0x0A, 0x00, 0x00, 0x09] }

/-- V46's frame: a wrong header checksum. -/
def kBad : State := { k0 with rxb := f2 0x40 0x01 0x9C 0xF7 [0x0A, 0x00, 0x00, 0x05] }

/-- `H0` of 95_test_vectors.md section 2 at offset `off` of RXB, bytes before it `FF`. -/
def h0 (off : Nat) : State :=
  { s0 with
    rxb := frame (List.replicate off 0xFF ++
      [0x45, 0x00, 0x00, 0x73, 0x00, 0x00, 0x40, 0x00, 0x40, 0x11, 0x00, 0x00, 0xC0, 0xA8, 0x00, 0x01, 0xC0, 0xA8, 0x00, 0xC7]) }

/-- The bytes `01 02 03 …` of V12. -/
def counting : State := { s0 with rxb := frame ((List.range 44).map (fun i => BitVec.ofNat 8 (i + 1))) }

/-! ## One step of each command -/

/-- V50. -/
theorem test_nop_keeps_the_error : (after (exec .nop { s0 with errs := true, errCode := 3 })).errCode = 3 := by decide

/-- V51: registers cleared, buffers kept. -/
theorem test_srst : (after (exec .srst kFwd)).rtLen = 0 ∧ (after (exec .srst kFwd)).built = false ∧
    (after (exec .srst kFwd)).byte .rx 22 = 0x02 ∧ (after (exec .srst kFwd)).iface 0 = ⟨0, false⟩ := by decide

/-- V15: the prefix is masked and the upper half of `DR3` dropped. -/
theorem test_rtload : (after (exec .rtload
      { s0 with dr0 := 0x0A00004D, dr1 := 0xFFFFFF00, dr2 := 0xAC100002, dr3 := 0x00050002 })).route 0 =
    ⟨0x0A000000, 0xFFFFFF00, 0xAC100002, 2⟩ := by decide

/-- V28: a full table. -/
theorem test_rtload_full : (after (exec .rtload { s0 with rtLen := 3 })).errCode = 4 := by decide

/-- R122's example. -/
theorem test_atload : (after (exec .atload { s0 with dr0 := 0xC0A80102, dr1 := 0xDEADBEEF, dr2 := 0x00010000 })).arp 0 =
    ⟨0xC0A80102, ⟨0xDE, 0xAD, 0xBE, 0xEF, 0x00, 0x01⟩⟩ := by decide

/-- V28: the phase is reported before the full table. -/
theorem test_atload_phase : (after (exec .atload { r0 with atLen := 2 })).errCode = 3 := by decide

/-- V29. -/
theorem test_ifload : (after (exec (.ifload 2) { s0 with dr0 := 0xAC1001FE })).iface 2 = ⟨0xAC1001FE, true⟩ := by decide

/-- V53: one code per refusal. -/
theorem test_ifload_priority : (after (exec (.ifload 9) r0)).errCode = 3 ∧ (after (exec (.ifload 9) s0)).errCode = 2 := by
  decide

/-- V16: the entries in load order sort to the table of `K`. -/
theorem test_build : (after (exec .build
      { k0 with
        built := false
        rt := Store.fromIndex 0
          [⟨0x0A000000, 0xFFFFFF00, 0xAC100002, 2⟩, ⟨0xC0A80100, 0xFFFFFF00, 0x00000000, 0⟩,
            ⟨0x0A000000, 0xFF000000, 0xAC100001, 1⟩] })).rt = k0.rt := by decide +kernel

/-- V28: a second `BUILD`. -/
theorem test_build_twice : (after (exec .build r0)).errCode = 3 := by decide

/-- V16: read-back, the index taken before `DR0` is overwritten. -/
theorem test_rtread : (after (exec .rtread { k0 with dr0 := 1 })).dr0 = 0x0A000000 ∧
    (after (exec .rtread { k0 with dr0 := 1 })).dr2 = 0xAC100002 ∧ (after (exec .rtread { k0 with dr0 := 1 })).dr3 = 2 := by
  decide

/-- V16: an index at `RT_LEN`. -/
theorem test_rtread_range : (after (exec .rtread { k0 with dr0 := 3 })).errCode = 2 := by decide

/-- V27: `DR3` unchanged. -/
theorem test_atread : (after (exec .atread { k0 with dr0 := 1, dr3 := 7 })).dr1 = 0x02AABBCC ∧
    (after (exec .atread { k0 with dr0 := 1, dr3 := 7 })).dr2 = 0xDD010000 ∧
    (after (exec .atread { k0 with dr0 := 1, dr3 := 7 })).dr3 = 7 := by decide

/-- V29: an interface never loaded. -/
theorem test_ifread : (after (exec (.ifread 2) { s0 with dr0 := 9, dr1 := 9 })).dr0 = 0 ∧
    (after (exec (.ifread 2) { s0 with dr0 := 9, dr1 := 9 })).dr1 = 0 ∧
    (after (exec (.ifread 2) k0)).dr1 = 1 := by decide

/-- V17, on the table of `K`: 10.0.0.5 finds the /24. -/
theorem test_rtlookup : (after (exec .rtlookup { k0 with dr0 := 0x0A000005 })).lpmIdx = 1 ∧
    (after (exec .rtlookup { k0 with dr0 := 0x0A000005 })).lpmNhop = 0xAC100002 := by decide

/-- V20: the scan runs through the whole run. -/
theorem test_lookup_scan :
    lookupIn (fun i => [⟨0x09000000, 0xFF000000, 4, 0⟩, ⟨0x0A000000, 0xFF000000, 1, 1⟩, ⟨0x0A000000, 0xFF0000FF, 2, 2⟩,
      ⟨0x0A000000, 0xFFFF0000, 3, 3⟩].getD i default) 4 0x0A000007 = some 3 := by decide

/-- V27: the first of two entries with one address, and a miss. -/
theorem test_arplookup :
    (after (exec .arplookup { k0 with arpt := Store.put k0.arpt 1 ⟨0x0A000005, default⟩, dr0 := 0x0A000005 })).arpIdx = 0 ∧
    (after (exec .arplookup { k0 with arpHit := true, arpIp := 5, dr0 := 0x0A000009 })).arpIp = 0 := by decide

/-- V1 and V6 at an odd start. -/
theorem test_csum : (after (exec (.csum .rx 14 20) (h0 14))).csAcc = 0x413D0661 ∧
    (after (exec (.csum .rx 14 20) (h0 14))).csRes = 0xB861 ∧
    (after (exec (.csum .rx 1 20) (h0 1))).csAcc = 0x13D066140 ∧
    (after (exec (.csum .rx 1 20) (h0 1))).csFold = 0x9E47 ∧
    (after (exec (.csum .rx 1 20) (h0 1))).csRes = 0xB861 := by decide +kernel

/-- V12: ranges that mix head and tail. -/
theorem test_csum_short : (after (exec (.csum .rx 3 3) counting)).csAcc = 0x05060004 ∧
    (after (exec (.csum .rx 1 2) counting)).csAcc = 0x00020300 ∧
    (after (exec (.csum .rx 5 9) counting)).csAcc = 0x161E1214 ∧
    (after (exec (.csum .rx 5 9) counting)).csRes = 0xCDD7 := by decide +kernel

/-- V31: a MAC, a nibble and a 4-byte field. -/
theorem test_rdf : (after (exec (.rdf .rx 1) kFwd)).dr0 = 0x02AABBCC ∧ (after (exec (.rdf .rx 1) kFwd)).dr1 = 0xDD010000 ∧
    (after (exec (.rdf .rx 3) kFwd)).dr0 = 4 ∧ (after (exec (.rdf .rx 13) kFwd)).dr0 = 0x0A000005 := by decide

/-- V37: ids that are no field. -/
theorem test_rdf_range : (after (exec (.rdf .rx 19) kFwd)).errCode = 2 ∧
    (after (exec (.rdf .rx 19) kFwd)).errCmd = 0x80000013 := by decide

/-- V32: an ID field and a MAC field. -/
theorem test_wrf : (after (exec (.wrf .tx 7) { s0 with dr0 := 0x12345678 })).bytes .tx 18 2 = [0x56, 0x78] ∧
    (after (exec (.wrf .rx 0) { s0 with dr0 := 0x02112233, dr1 := 0x4455FFFF })).bytes .rx 0 6 =
      [0x02, 0x11, 0x22, 0x33, 0x44, 0x55] := by decide

/-- V32: the two nibbles of byte 14. -/
theorem test_wrf_nibbles : (after (exec (.wrf .tx 3) { s0 with dr0 := 4, txb := [(14, 0x05)] })).byte .tx 14 = 0x45 ∧
    (after (exec (.wrf .tx 4) { s0 with dr0 := 0xF6, txb := [(14, 0x45)] })).byte .tx 14 = 0x46 := by decide

/-- V33. -/
theorem test_bufclr : (after (exec (.bufclr .rx) kFwd)).bytes .rx 0 44 = List.replicate 44 0 := by decide +kernel

/-- V34. -/
theorem test_ipcs : (after (exec (.ipcs .rx) { kTtl with rxb := f2 0x01 0x01 0xDA 0xF6 [0x0A, 0x00, 0x00, 0x05] })).bytes
      .rx 24 2 = [0xDB, 0xF6] ∧
    (after (exec (.ipcs .rx) kTtl)).csAcc = 0x12C22DD := by decide +kernel

/-- V35. -/
theorem test_icmpcs :
    (after (exec (.icmpcs .tx)
      { s0 with txb := Store.fromIndex 34 [0x0B, 0x00, 0x99, 0x99, 0x12, 0x34, 0x00, 0x00] })).bytes .tx 36 2 =
      [0xE2, 0xCB] := by decide +kernel

/-- V36: the whole reply. -/
theorem test_mkreply : (after (exec (.mkreply 11) { kFwd with rxIf := 3 })).bytes .tx 0 44 =
    [0x02, 0xAA, 0xBB, 0xCC, 0xDD, 0x01, 0x02, 0x00, 0x00, 0x00, 0x00, 0x01, 0x08, 0x00,
      0x45, 0x00, 0x00, 0x1C, 0x12, 0x34, 0x00, 0x00, 0x20, 0x01, 0xBC, 0xF6, 0x0A, 0x00, 0x00, 0x05, 0xC0, 0xA8, 0x01, 0x0A,
      0x0B, 0x00, 0x36, 0x10, 0xBE, 0xEF, 0x00, 0x00, 0x00, 0x00] := by decide +kernel

/-- V40: forwarded with TTL 1. -/
theorem test_fwd_forwards : (after (exec .fwd kFwd)).bytes .rx 0 34 =
      [0x02, 0x11, 0x22, 0x33, 0x44, 0x55, 0x02, 0xAA, 0xBB, 0xCC, 0xDD, 0x01, 0x08, 0x00,
        0x45, 0x00, 0x00, 0x1C, 0x12, 0x34, 0x00, 0x00, 0x01, 0x01, 0xDB, 0xF6, 0xC0, 0xA8, 0x01, 0x0A, 0x0A, 0x00, 0x00, 0x05] ∧
    statusWord (after (exec .fwd kFwd)) = 0xB1 ∧ (after (exec .fwd kFwd)).outIf = 2 := by decide +kernel

/-- V38, V45, V42, V47, V46: the other five dispositions, as the STATUS words and `DISP` codes of the vectors. -/
theorem test_fwd_dispositions :
    statusWord (after (exec .fwd kTtl)) = 0x181 ∧ (after (exec .fwd kTtl)).disp = 3 ∧
    statusWord (after (exec .fwd kNoRoute)) = 0x181 ∧ (after (exec .fwd kNoRoute)).disp = 4 ∧
    statusWord (after (exec .fwd kLocal)) = 0x1D1 ∧ (after (exec .fwd kLocal)).disp = 2 ∧
    statusWord (after (exec .fwd kNoArp)) = 0x11 ∧ (after (exec .fwd kNoArp)).bytes .rx 22 4 = [0x02, 0x01, 0xDA, 0xF2] ∧
    statusWord (after (exec .fwd kBad)) = 0x01 ∧ (after (exec .fwd kBad)).csRes = 0xFFFE := by decide +kernel

/-! ## Steps -/

/-- V54: a command written to `CMD`, refused and acknowledged. -/
theorem test_step_refused : (after (step (State.reset.withFetchWord 32 0xC0000000))).errCmd = 0xC0000000 ∧
    statusWord (after (step (State.reset.withFetchWord 32 0xFFFFFFFF))) = 2 ∧
    (after (step { s0 with errs := true, errCode := 1, errCmd := 5, script := [.write .word 4 2] })).errCmd = 0 := by
  decide

/-- R61 to R64: register, buffer and bus-error responses. -/
theorem test_step_accesses : (after (step { s0 with dr1 := 9, script := [.read .word 0x14] })).resp = .word 9 ∧
    (after (step { s0 with script := [.write .byte 0x202B 0x1FF] })).txb = [(43, 0xFF)] ∧
    (after (step { s0 with script := [.write .byte 0x202C 0x1FF] })).resp = .busError ∧
    (after (step { s0 with script := [.read .half 0x10] })).resp = .busError := by decide

/-- R230, R232: hardware reset as an event. -/
theorem test_step_reset : (after (step { kFwd with script := [.reset] })).rtLen = 0 ∧
    (after (step { kFwd with script := [.reset] })).rxb = [] := by decide

/-- The decoder on the table's words, and the fetch of one. -/
theorem test_decodeTableWord : decodeTableWord 32 0x94000003 = some (.mkreply 3) ∧ decodeTableWord 32 0x08000000 = none := by
  decide

/-! ## Witnesses: for every statement with hypotheses, and for each of its clauses, concrete values that meet them. -/

/-- A state whose host issues the command word `w` next. -/
def issues (s : State) (w : Word) : State := { s with script := [.write .word 0x00 w] }

/-- `K`'s entries loaded and not yet built. -/
def unbuilt : State := { k0 with built := false }

/-- `unbuilt` with its three entries loaded in another order. -/
def unbuilt' : State :=
  { unbuilt with
    rt := Store.fromIndex 0
      [⟨0xC0A80100, 0xFFFFFF00, 0x00000000, 0⟩, ⟨0x0A000000, 0xFFFFFF00, 0xAC100002, 2⟩,
        ⟨0x0A000000, 0xFF000000, 0xAC100001, 1⟩] }

/-- A built table of two entries with disjoint ranges. -/
def disjoint : State :=
  { k0 with
    rt := Store.fromIndex 0 [⟨0x0A000000, 0xFFFFFF00, 0xAC100002, 2⟩, ⟨0xC0A80100, 0xFFFFFF00, 0x00000000, 0⟩], rtLen := 2 }

theorem witness_DecodeOfEncode : (Instr.csum .tx 4095 4095).wellFormed = true ∧ (Instr.ifload 4095).wellFormed = true ∧
    (Instr.wrf .rx 31).wellFormed = true := by decide

theorem witness_EncodeOfDecode : decode 0x62FFFFFF = .ok (.csum .tx 4095 4095) := by decide

theorem witness_DecoderFollowsTheOpcodeMap :
    decode 0x62022008 = .ok (.csum .tx 34 8) ∧ decode 0x9400000B = .ok (.mkreply 11) ∧ (0x9400000B : Word) &&& (opcodeRow (.mkreply 11)).2 = (opcodeRow (.mkreply 11)).1 ∧
    opField 0xFC000000 ∉ [0x00, 0x01, 0x08, 0x09, 0x0A, 0x0B, 0x0C, 0x0D, 0x0E, 0x10, 0x11, 0x18, 0x20, 0x21, 0x22, 0x23, 0x24,
      0x25, 0x30] := by decide

theorem witness_IllegalWordsAreRefused :
    (issues s0 0xFFFFFFFF).script = .write .word 0x00 0xFFFFFFFF :: [] ∧
    decode 0xFFFFFFFF = .error (.unassignedOpcode 0x3F) := by decide

theorem witness_StepRunsTheDecodedCommand :
    (issues k0 0x40000000).script = .write .word 0x00 0x40000000 :: [] ∧ decode 0x40000000 = .ok .rtlookup ∧
    k0.script = [] := by decide

/-- Reads at the first and last register and the ends of the reserved range. -/
theorem witness_RegisterAccesses_read : ∀ off ∈ [0x00, 0x74, 0x78, 0xFC],
    { s0 with script := [.read .word off] }.script = .read .word off :: [] ∧ off % 4 = 0 ∧ off ≤ 0xFC := by decide

/-- Writes: the RW registers by equality, the others at the ends of their clause. -/
theorem witness_RegisterAccesses_write : ∀ off ∈ [0x08, 0x0C, 0x30, 0xFC],
    { s0 with script := [.write .word off 7] }.script = .write .word off 7 :: [] ∧ off % 4 = 0 ∧
      (off = 0x08 ∨ off = 0x0C ∨ (0x30 ≤ off ∧ off ≤ 0xFC)) := by decide

theorem witness_RegisterReadsFollowTheMap : ∀ off ∈ [0x78, 0xFC], 0x78 ≤ off ∧ off ≤ 0xFC ∧ off % 4 = 0 := by decide

theorem witness_StatusWordHoldsTheFlags : 9 ≤ 9 ∧ (statusWord kFwd).getLsbD 0 = true := by decide

/-- The last byte of each buffer, read and written. -/
theorem witness_BufferAccesses : s0.params.Legal ∧ 43 < s0.params.fbSize ∧
    { s0 with script := [.read .byte (0x1000 + 43)] }.script = .read .byte (0x1000 + 43) :: [] ∧
    { s0 with script := [.read .byte (0x2000 + 43)] }.script = .read .byte (0x2000 + 43) :: [] ∧
    { s0 with script := [.write .byte (0x1000 + 43) 5] }.script = .write .byte (0x1000 + 43) 5 :: [] ∧
    { s0 with script := [.write .byte (0x2000 + 43) 5] }.script = .write .byte (0x2000 + 43) 5 :: [] := by decide

/-- Just past the registers, just past each window, an unaligned word, and each wrong width. -/
theorem witness_OtherAccessesGetABusError :
    ∀ x ∈ [(Width.word, 0x100), (.byte, 0x102C), (.byte, 0x202C), (.word, 0x12), (.half, 0x10), (.byte, 0x10), (.word, 0x1000)],
      ¬(x.1 = .word ∧ x.2 % 4 = 0 ∧ x.2 ≤ 0xFC) ∧
      ¬(x.1 = .byte ∧ 0x1000 ≤ x.2 ∧ x.2 < 0x1000 + s0.params.fbSize) ∧
      ¬(x.1 = .byte ∧ 0x2000 ≤ x.2 ∧ x.2 < 0x2000 + s0.params.fbSize) ∧
      { s0 with script := [.read x.1 x.2] }.script = .read x.1 x.2 :: [] ∧
      { s0 with script := [.write x.1 x.2 1] }.script = .write x.1 x.2 1 :: [] := by decide

theorem witness_PhaseRule_refused : ¬PhaseAllows .rtload k0 ∧ ¬PhaseAllows .fwd s0 := by
  unfold PhaseAllows; decide

theorem witness_PhaseRule_allowed : PhaseAllows .fwd kFwd ∧ kFwd.errCode ≠ 3 ∧ exec .fwd kFwd = .next (after (exec .fwd kFwd)) :=
  ⟨by unfold PhaseAllows; decide, by decide, rfl⟩

theorem witness_PhaseRule_rise : step (issues unbuilt 0x2C000000) = .next (after (step (issues unbuilt 0x2C000000))) ∧
    (issues unbuilt 0x2C000000).built = false ∧ (after (step (issues unbuilt 0x2C000000))).built = true :=
  ⟨rfl, rfl, rfl⟩

theorem witness_PhaseRule_fall : step (issues k0 0x04000000) = .next (after (step (issues k0 0x04000000))) ∧
    (issues k0 0x04000000).built = true ∧ (after (step (issues k0 0x04000000))).built = false := ⟨rfl, rfl, rfl⟩

theorem witness_PhaseRule_constant : step (issues k0 0x40000000) = .next (after (step (issues k0 0x40000000))) ∧
    (issues k0 0x40000000).built = true ∧ (after (step (issues k0 0x40000000))).built = true := ⟨rfl, rfl, by decide⟩

theorem witness_RefusalsArePrecise : exec .rtload k0 = .next (after (exec .rtload k0)) ∧
    exec (.rdf .rx 9) k0 = .next (after (exec (.rdf .rx 9) k0)) ∧ exec .srst k0 = .next (after (exec .srst k0)) :=
  ⟨rfl, rfl, rfl⟩

theorem witness_AcknowledgeClearsTheRefusal_write : (2 : Word).getLsbD 1 = true ∧ (0xFFFFFFFD : Word).getLsbD 1 = false ∧
    { k0 with script := [.write .word 0x04 2] }.script = .write .word 0x04 2 :: [] ∧
    { k0 with script := [.write .word 0x04 0xFFFFFFFD] }.script = .write .word 0x04 0xFFFFFFFD :: [] := by decide

theorem witness_AcknowledgeClearsTheRefusal_commands :
    Instr.nop ≠ .srst ∧ exec .nop { k0 with errs := true } = .next { k0 with errs := true } ∧
    exec .srst k0 = .next (after (exec .srst k0)) ∧
    step { k0 with script := [.reset] } = .next (after (step { k0 with script := [.reset] })) :=
  ⟨by decide, rfl, rfl, rfl⟩

theorem witness_HardwareResetClearsEveryRegister : { kFwd with script := [.reset] }.script = .reset :: [] ∧
    0x78 ≤ 0xFC ∧ 0xFC % 4 = 0 := by decide

/-- Both ends of the illegal `NOP` words, and an illegal `SRST` word. -/
theorem witness_SystemCommands : (0x00000001 : Word) ≤ 0x00000001 ∧ (0x00000001 : Word) ≤ 0x03FFFFFF ∧
    (0x00000001 : Word) ≤ 0x03FFFFFF ∧ opField 0x04000001 = 0x01 ∧ (0x04000001 : Word) ≠ 0x04000000 := by decide

/-- The command writes TXB: `MKREPLY 11` on a frame. -/
theorem witness_StepKeepsMemoryInvariant : MemoryInv (issues kFwd 0x9400000B) ∧
    step (issues kFwd 0x9400000B) = .next (after (step (issues kFwd 0x9400000B))) :=
  ⟨⟨by decide, by decide, by decide, by decide, by decide⟩, rfl⟩

theorem k0_sorted (i j : Nat) (hij : i < j) (hj : j < 3) : keyLe (k0.route i) (k0.route j) = true := by
  interval_cases j <;> interval_cases i <;> decide

/-- In both phases: the built table, and the same table before `BUILD`. -/
theorem witness_StepKeepsTableInvariant : TableInv (issues k0 0x40000000) ∧ TableInv (issues unbuilt' 0x2C000000) ∧
    step (issues k0 0x40000000) = .next (after (step (issues k0 0x40000000))) ∧
    step (issues unbuilt' 0x2C000000) = .next (after (step (issues unbuilt' 0x2C000000))) :=
  ⟨⟨by decide, by decide, by decide, by decide, by decide, by decide, by decide, by decide, by decide, by decide, by decide,
      by decide, fun _ i j h h' => k0_sorted i j h h'⟩,
    ⟨by decide, by decide, by decide, by decide, by decide, by decide, by decide, by decide, by decide, by decide, by decide,
      by decide, fun h => nomatch h⟩, rfl, rfl⟩

/-- A latched refusal, and none. -/
theorem witness_StepKeepsErrorInvariant : ErrorInv (issues { k0 with errs := true, errCode := 2, errCmd := 5 } 0x20000000) ∧
    ErrorInv (issues k0 0xFFFFFFFF) ∧ step (issues k0 0xFFFFFFFF) = .next (after (step (issues k0 0xFFFFFFFF))) :=
  ⟨⟨fun h => (nomatch h), fun _ => ⟨.range, rfl⟩⟩, ⟨fun _ => ⟨rfl, rfl⟩, fun h => nomatch h⟩, rfl⟩

theorem witness_StepKeepsResultInvariant : ResultInv (issues kFwd 0xC0000000) ∧
    step (issues kFwd 0xC0000000) = .next (after (step (issues kFwd 0xC0000000))) :=
  ⟨⟨⟨.none, rfl⟩, fun _ => by decide, fun _ => by decide, fun _ => by decide⟩, rfl⟩

theorem witness_ParametersNeverChange : step (issues k0 0x04000000) = .next (after (step (issues k0 0x04000000))) := rfl

/-- Full (length 3 of 3) and the last free place (2 of 3), in each phase. -/
theorem witness_RtloadAppendsAMaskedRoute : k0.built = true ∧ unbuilt.built = false ∧
    unbuilt.rtLen.toNat = unbuilt.params.rtCap ∧ { unbuilt with rtLen := 2 }.built = false ∧
    { unbuilt with rtLen := 2 }.rtLen.toNat ≠ { unbuilt with rtLen := 2 }.params.rtCap := by decide

theorem witness_AtloadAppendsAnArpEntry : k0.built = true ∧ unbuilt.built = false ∧
    unbuilt.atLen.toNat = unbuilt.params.atCap ∧ { unbuilt with atLen := 1 }.built = false ∧
    { unbuilt with atLen := 1 }.atLen.toNat ≠ { unbuilt with atLen := 1 }.params.atCap := by decide

theorem witness_IfloadSetsAnInterface : k0.built = true ∧ s0.built = false ∧ s0.params.nIf ≤ 3 ∧ 2 < s0.params.nIf := by decide

theorem witness_RtreadCopiesARoute : { k0 with dr0 := 3 }.rtLen.toNat ≤ { k0 with dr0 := 3 }.dr0.toNat ∧
    { k0 with dr0 := 2 }.dr0.toNat < { k0 with dr0 := 2 }.rtLen.toNat := by decide

theorem witness_AtreadCopiesAnArpEntry : { k0 with dr0 := 2 }.atLen.toNat ≤ { k0 with dr0 := 2 }.dr0.toNat ∧
    { k0 with dr0 := 1 }.dr0.toNat < { k0 with dr0 := 1 }.atLen.toNat := by decide

theorem witness_IfreadCopiesAnInterface : k0.params.nIf ≤ 3 ∧ 2 < k0.params.nIf := by decide


theorem witness_BuildIsOrderIndependent : unbuilt.built = false ∧ unbuilt'.built = false ∧
    exec .build unbuilt = .next (after (exec .build unbuilt)) ∧ exec .build unbuilt' = .next (after (exec .build unbuilt')) ∧
    unbuilt.routes.Perm unbuilt'.routes ∧
    exec .rtlookup { after (exec .build unbuilt) with dr0 := 0x0A000005 } =
      .next (after (exec .rtlookup { after (exec .build unbuilt) with dr0 := 0x0A000005 })) ∧
    exec .rtlookup { after (exec .build unbuilt') with dr0 := 0x0A000005 } =
      .next (after (exec .rtlookup { after (exec .build unbuilt') with dr0 := 0x0A000005 })) ∧
    unbuilt.routes.Pairwise (fun x y => ¬SameKey x y) :=
  ⟨rfl, rfl, rfl, rfl, by decide, rfl, rfl, by unfold SameKey; decide⟩

theorem witness_RtlookupReportsTheLookup : s0.built = false ∧ k0.built = true ∧
    lookup { k0 with dr0 := 0x0A000005 } 0x0A000005 = some 1 ∧ lookup { k0 with dr0 := 8 } 8 = none := by decide

theorem k0_sortedTable : SortedTable k0 := fun i j hij hj => by
  have h := k0_sorted i j hij hj
  simpa [keyLe, KeyLE] using h

/-- `unbuilt` is already sorted. -/
theorem witness_BuildSortsTheTable : k0.built = true ∧ unbuilt'.built = false ∧ unbuilt.built = false ∧ SortedTable unbuilt :=
  ⟨rfl, rfl, rfl, k0_sortedTable⟩

theorem witness_LookupReturnsTheBestOfItsRun : SortedTable k0 ∧ lookup k0 0x0A000005 = some 1 ∧
    Matches (k0.route 0) 0x0A000005 ∧ ∀ j < k0.rtLen.toNat, ¬Matches (k0.route j) 0x08080808 :=
  ⟨k0_sortedTable, by decide, by unfold Matches; decide, by unfold Matches; decide⟩

/-- A sorted table with an entry below and an entry above the two that match 10.0.0.5. -/
def middle : State :=
  { k0 with
    params := { small with rtCap := 4 }
    rt := Store.fromIndex 0
      [⟨0x09000000, 0xFF000000, 0xAC100003, 0⟩, ⟨0x0A000000, 0xFF000000, 0xAC100001, 1⟩,
        ⟨0x0A000000, 0xFFFFFF00, 0xAC100002, 2⟩, ⟨0xC0A80100, 0xFFFFFF00, 0x00000000, 0⟩]
    rtLen := 4 }

/-- `lo = 1`, `hi = 2`: conditions (d) and (e) each speak of an entry. -/
theorem witness_LookupIsLongestMatchUnderConditions_middle : SortedTable middle ∧ 1 ≤ 2 ∧ 2 < middle.rtLen.toNat ∧
    (∀ j, 1 ≤ j → j ≤ 2 → Matches (middle.route j) 0x0A000005 ∧ (middle.route j).pfx = (middle.route 1).pfx) ∧
    (∀ j < 1, (middle.route j).pfx < 0x0A000005 &&& (middle.route j).mask) ∧
    (∀ j, 2 < j → j < middle.rtLen.toNat → 0x0A000005 &&& (middle.route j).mask < (middle.route j).pfx) := by
  refine ⟨?_, by decide, by decide, ?_, by decide, ?_⟩
  · intro i j hij hj
    have hj' : j < 4 := hj
    unfold KeyLE
    interval_cases j <;> interval_cases i <;> decide
  · intro j h h'
    unfold Matches
    interval_cases j <;> decide
  · intro j h h'
    have h4 : j < 4 := h'
    obtain rfl : j = 3 := by omega
    decide

/-- `lo = 0`, `hi = 1`, at the start of the table: the two matching entries of `K` for 10.0.0.5. -/
theorem witness_LookupIsLongestMatchUnderConditions : SortedTable k0 ∧ 0 ≤ 1 ∧ 1 < k0.rtLen.toNat ∧
    (∀ j, 0 ≤ j → j ≤ 1 → Matches (k0.route j) 0x0A000005 ∧ (k0.route j).pfx = (k0.route 0).pfx) ∧
    (∀ j < 0, (k0.route j).pfx < 0x0A000005 &&& (k0.route j).mask) ∧
    (∀ j, 1 < j → j < k0.rtLen.toNat → 0x0A000005 &&& (k0.route j).mask < (k0.route j).pfx) := by
  refine ⟨k0_sortedTable, by decide, by decide, ?_, by decide, ?_⟩
  · intro j _ h
    unfold Matches
    interval_cases j <;> decide
  · intro j h h'
    have h3 : j < 3 := h'
    interval_cases j; decide

theorem witness_LookupIsExactOnDisjointRanges : SortedTable disjoint ∧
    (∀ i < disjoint.rtLen.toNat, ContiguousMask (disjoint.route i).mask ∧ Premasked (disjoint.route i)) ∧
    (∀ i < disjoint.rtLen.toNat, ∀ j < disjoint.rtLen.toNat, i ≠ j →
      lastAddress (disjoint.route i) < (disjoint.route j).pfx ∨ lastAddress (disjoint.route j) < (disjoint.route i).pfx) ∧
    Matches (disjoint.route 1) 0xC0A801FF := by
  refine ⟨?_, ?_, by decide, by unfold Matches; decide⟩
  · intro i j hij hj
    have hj' : j < 2 := hj
    unfold KeyLE
    obtain rfl : j = 1 := by omega
    obtain rfl : i = 0 := by omega
    decide
  · intro i hi
    have hi' : i < 2 := hi
    interval_cases i <;> exact ⟨⟨24, by decide⟩, by decide⟩

/-- One entry, and three; found at the last index. -/
theorem witness_LookupCostIsBounded : 0 < 1 ∧ Nat.log2 1 + 1 ≤ 1 ∧ 0 < 3 ∧ Nat.log2 3 + 1 ≤ 2 ∧ 2 < 3 ∧ 3 - 1 - 2 ≤ 0 ∧
    ∀ i < 3, k0.route i = kFwd.route i := by decide

theorem witness_ArplookupReportsTheFirstMatch : s0.built = false ∧ k0.built = true ∧ FirstArp k0 0xC0A8010A 1 ∧
    NoArp k0 0x0A000009 :=
  ⟨rfl, rfl, by unfold FirstArp; decide, by unfold NoArp; decide⟩

/-- The end of the buffer exactly, one byte more, and an empty range at the end. -/
theorem witness_CsumLatchesTheLaneSum : counting.params.fbSize < 3 + 42 ∧ 3 + 41 ≤ counting.params.fbSize ∧
    44 + 0 ≤ counting.params.fbSize ∧ opField 0x61000000 = 0x18 ∧ (0x61000000 : Word).getLsbD 24 = true := by decide

theorem witness_ChecksumClosedForm : SeedLegal counting ∧ 3 + 41 ≤ counting.params.fbSize :=
  ⟨.inl rfl, by decide⟩

theorem witness_FoldIsTheCarryFold : 0 < 1 ∧ 2 ^ 64 - 1 < 2 ^ 64 := by decide

/-- Both seeds. -/
theorem witness_ChecksumValuesAtZero : SeedLegal s0 ∧ SeedLegal { s0 with params := { small with csumSeed := 0xFFFF } } ∧
    { s0 with params := { small with csumSeed := 0xFFFF } }.params.csumSeed = 0xFFFF := ⟨.inl rfl, .inr rfl, rfl⟩

theorem witness_AccumulatorNeverWraps : counting.params.Legal ∧ 3 + 41 ≤ counting.params.fbSize ∧
    exec (.csum .rx 3 41) counting = .next (after (exec (.csum .rx 3 41) counting)) := ⟨by decide, by decide, rfl⟩

/-- The field at the start, and at the end, of a range with an odd start. -/
theorem witness_StoredChecksumValidates : SeedLegal kFwd ∧ 1 ≤ 1 ∧ 1 + 2 ≤ 1 + 20 ∧ (1 - 1) % 2 = 0 ∧ 1 ≤ 19 ∧
    19 + 2 ≤ 1 + 20 ∧ (19 - 1) % 2 = 0 := ⟨.inl rfl, by decide⟩

theorem witness_FieldAccessIsBigEndian : 4 ≤ 4 ∧ 3 < 4 := by decide

theorem witness_RdfReadsTheField : 18 < 19 ∧ (2, 12, 2) ∈ plainFields ∧ (18, 40, 2) ∈ plainFields ∧
    (1, 6) ∈ [(0, 0), (1, 6)] := by decide

theorem witness_WrfWritesTheField : 18 < 19 ∧ (2, 12, 2) ∈ plainFields ∧ (18, 40, 2) ∈ plainFields ∧
    (1, 6) ∈ [(0, 0), (1, 6)] := by decide

theorem witness_BufclrZeroesTheBuffer : 43 < kFwd.params.fbSize := by decide

theorem witness_HeaderChecksumCommands : SeedLegal kFwd := .inl rfl

theorem witness_MkreplyBuildsTheTemplate : 42 ≤ kFwd.params.fbSize ∧ kFwd.params.csumSeed = 0 ∧ 42 ≤ 43 ∧
    43 < kFwd.params.fbSize := by decide

theorem witness_FwdDropsABadChecksum : kBad.built = true ∧ ¬ValidHeader kBad .rx :=
  ⟨rfl, by unfold ValidHeader; decide +kernel⟩

/-- TTL 1, and TTL 0. -/
theorem witness_FwdAnswersAnExpiredTtl : kTtl.built = true ∧ ValidHeader kTtl .rx ∧ (kTtl.byte .rx 22).toNat ≤ 1 ∧
    ValidHeader { kTtl with rxb := f2 0x00 0x01 0xDC 0xF6 [0x0A, 0x00, 0x00, 0x05] } .rx :=
  ⟨rfl, by unfold ValidHeader; decide +kernel, by decide, by unfold ValidHeader; decide +kernel⟩

theorem witness_FwdAnswersAMissingRoute : kNoRoute.built = true ∧ ValidHeader kNoRoute .rx ∧
    2 ≤ (kNoRoute.byte .rx 22).toNat ∧ lookup kNoRoute (destination kNoRoute) = none :=
  ⟨rfl, by unfold ValidHeader; decide +kernel, by decide, by decide +kernel⟩

theorem witness_FwdAnswersALocalDestination : kLocal.built = true ∧ ValidHeader kLocal .rx ∧
    2 ≤ (kLocal.byte .rx 22).toNat ∧ lookup kLocal (destination kLocal) = some 2 ∧ IsLocal kLocal (destination kLocal) :=
  ⟨rfl, by unfold ValidHeader; decide +kernel, by decide, by decide +kernel, ⟨0, by decide, rfl, by decide +kernel⟩⟩

/-- TTL 2, an ARP hit at index 0. -/
theorem witness_FwdForwardsInPlace_hit : kFwd.built = true ∧ ValidHeader kFwd .rx ∧ 2 ≤ (kFwd.byte .rx 22).toNat ∧
    lookup kFwd (destination kFwd) = some 1 ∧ ¬IsLocal kFwd (destination kFwd) ∧ FirstArp kFwd (destination kFwd) 0 :=
  ⟨rfl, by unfold ValidHeader; decide +kernel, by decide, by decide +kernel, by unfold IsLocal; decide +kernel,
    by unfold FirstArp; decide +kernel⟩

theorem witness_FwdForwardsInPlace_miss : kNoArp.built = true ∧ ValidHeader kNoArp .rx ∧ 2 ≤ (kNoArp.byte .rx 22).toNat ∧
    lookup kNoArp (destination kNoArp) = some 1 ∧ ¬IsLocal kNoArp (destination kNoArp) ∧ NoArp kNoArp (destination kNoArp) :=
  ⟨rfl, by unfold ValidHeader; decide +kernel, by decide, by decide +kernel, by unfold IsLocal; decide +kernel,
    by unfold NoArp; decide +kernel⟩

theorem witness_FwdDispositions : s0.built = false ∧ kFwd.built = true := by decide

theorem witness_WrittenHeadersValidate_reply : SeedLegal kFwd ∧ 42 ≤ kFwd.params.fbSize ∧
    exec (.mkreply 11) kFwd = .next (after (exec (.mkreply 11) kFwd)) ∧
    exec (.csum .tx 14 20) (after (exec (.mkreply 11) kFwd)) =
      .next (after (exec (.csum .tx 14 20) (after (exec (.mkreply 11) kFwd)))) ∧
    exec (.csum .tx 34 8) (after (exec (.mkreply 11) kFwd)) =
      .next (after (exec (.csum .tx 34 8) (after (exec (.mkreply 11) kFwd)))) :=
  ⟨.inl rfl, by decide, rfl, rfl, rfl⟩

theorem witness_WrittenHeadersValidate_forward : SeedLegal kFwd ∧ kFwd.built = true ∧
    exec .fwd kFwd = .next (after (exec .fwd kFwd)) ∧ (after (exec .fwd kFwd)).disp = 1 ∧
    exec .fwd kNoArp = .next (after (exec .fwd kNoArp)) ∧ (after (exec .fwd kNoArp)).disp = 7 :=
  ⟨.inl rfl, rfl, rfl, by decide +kernel, rfl, by decide +kernel⟩

/-- `kTtl` with another data register and other contents of TXB. -/
def kTtl' : State := { kTtl with dr0 := 1, txb := [(0, 7)] }

theorem witness_FwdDependsOnHeadersAndTables : kTtl.built = true ∧ kTtl'.built = true ∧ kTtl.params = kTtl'.params ∧
    kTtl.rxIf = kTtl'.rxIf ∧ kTtl.rxLen = kTtl'.rxLen ∧ kTtl.rtLen = kTtl'.rtLen ∧ kTtl.atLen = kTtl'.atLen ∧
    (∀ i < kTtl.rtLen.toNat, kTtl.route i = kTtl'.route i) ∧ (∀ i < kTtl.atLen.toNat, kTtl.arp i = kTtl'.arp i) ∧
    (∀ i < kTtl.params.nIf, kTtl.iface i = kTtl'.iface i) ∧ (∀ k < 42, kTtl.byte .rx k = kTtl'.byte .rx k) ∧
    42 ≤ kTtl.params.fbSize ∧ exec .fwd kTtl = .next (after (exec .fwd kTtl)) ∧
    exec .fwd kTtl' = .next (after (exec .fwd kTtl')) ∧ (after (exec .fwd kTtl)).outSel = true :=
  ⟨rfl, rfl, rfl, rfl, rfl, rfl, rfl, fun _ _ => rfl, fun _ _ => rfl, fun _ _ => rfl, fun _ _ => rfl, by decide, rfl, rfl,
    by decide +kernel⟩

/-- TTL 3, so that the second `FWD` sees TTL 2; and TTL 2, so that it sees 1. -/
theorem witness_RepeatedFwdWalksTheTtlDown : SeedLegal kNoArp ∧ kNoArp.built = true ∧
    exec .fwd kNoArp = .next (after (exec .fwd kNoArp)) ∧ (after (exec .fwd kNoArp)).disp = 7 ∧
    ((after (exec .fwd kNoArp)).byte .rx 22).toNat = 2 ∧
    ((after (exec .fwd { kNoArp with rxb := f2 0x02 0x01 0xDA 0xF2 [0x0A, 0x00, 0x00, 0x09] })).byte .rx 22).toNat = 1 ∧
    (after (exec .fwd { kNoArp with rxb := f2 0x02 0x01 0xDA 0xF2 [0x0A, 0x00, 0x00, 0x09] })).disp = 7 :=
  ⟨.inl rfl, rfl, rfl, by decide +kernel, by decide +kernel, by decide +kernel, by decide +kernel⟩

end Sys2Proof.Tests
end

/-! PROOFS of the scope statements: what a step can do, the parameters' frame, the state after reset, big-endian fields and
the bound of the accumulator (00_scope.md R6, R9, R10; 10_state.md R39, R49; 40_checksum.md R111). -/

namespace Sys2Proof.Machine

/-! Outcomes. -/

/-- Every next state that the outcome can answer satisfies `P`. -/
def Ends (P : State → Prop) (o : Host.Outcome State Fault Refusal) : Prop := ∀ t, o = .next t → P t

theorem Ends.next {P : State → Prop} {s : State} (h : P s) : Ends P (.next s) := by
  rintro t ⟨⟩
  exact h

/-- A guarded outcome: a command that checks its refusal first. -/
theorem Ends.ite {P : State → Prop} {c : Prop} [Decidable c] {o o' : Host.Outcome State Fault Refusal} (h : Ends P o)
    (h' : Ends P o') : Ends P (if c then o else o') := by
  split_ifs
  · exact h
  · exact h'

/-- What serving one host action in `s` can answer, the action's word, register or byte left open. -/
inductive Served (s : State) : State → Prop
  /-- A read, an ignored write or a bus error: only the bus's answer. -/
  | answered (r : Response) : Served s { s with resp := r }
  /-- A legal command word that completed. -/
  | ran (w : Word) (i : Instr) (u : State) : decode w = .ok i → exec i s = .next u → Served s { u with resp := .ack }
  /-- An illegal command word. -/
  | illegal (w : Word) (e : Reject) : decode w = .error e → Served s { refuse w .illegal s with resp := .ack }
  /-- A register write. -/
  | register (r : Reg) (v : Word) : Served s { writeReg s r v with resp := .ack }
  /-- A byte write inside a buffer window. -/
  | window (b : Buf) (i : Nat) (v : Byte) : i < s.params.fbSize → Served s { s.writeByte b i v with resp := .ack }
  /-- The hardware reset event. -/
  | reset : Served s (hardwareReset s)

/-- A window target is a byte of the buffer (20_memory.md R61, R63). -/
theorem lt_fbSize_of_target_window {p : Params} {w : Width} {off : Nat} {b : Buf} {i : Nat}
    (h : target p w off = some (.window b i)) : i < p.fbSize := by
  unfold target at h
  split_ifs at h
  · split at h <;> simp at h
  all_goals
    obtain ⟨-, rfl⟩ := Target.window.inj (Option.some.inj h)
    omega

theorem served_of_issue {w : Word} {s t : State} (h : answer .ack (issue w s) = .next t) : Served s t := by
  cases hw : decode w with
  | error e =>
    rw [issue_error hw, answer_next] at h
    cases h
    exact .illegal w e hw
  | ok i =>
    rw [issue_ok hw] at h
    cases he : exec i s with
    | next u =>
      rw [he, answer_next] at h
      cases h
      exact .ran w i u hw he
    | fault f => exact nomatch f
    | refused e => simp [he, answer] at h

theorem served_of_hostWrite {w : Width} {off : Nat} {v : Word} {s t : State} (h : hostWrite w off v s = .next t) :
    Served s t := by
  unfold hostWrite at h
  split at h
  · cases h
    exact .answered _
  · exact served_of_issue h
  · cases h
    exact .register _ _
  · cases h
    exact .answered _
  · next htarget =>
    cases h
    exact .window _ _ _ (lt_fbSize_of_target_window htarget)

theorem served_of_perform {a : HostAction} {s t : State} (h : perform a s = .next t) : Served s t := by
  cases a with
  | read w off =>
    cases h
    exact .answered _
  | write w off v => exact served_of_hostWrite h
  | reset =>
    cases h
    exact .reset

/-- Everything a step can do: nothing, or serve the action at the head of the script. -/
theorem step_cases {s t : State} (h : step s = .next t) :
    t = s ∨ ∃ rest, Served { s with script := rest } t := by
  cases hs : s.script with
  | nil =>
    rw [step_nil s hs] at h
    cases h
    exact .inl rfl
  | cons a rest =>
    rw [step_cons s a rest hs] at h
    exact .inr ⟨rest, served_of_perform h⟩

/-! The parameters under the shared operations and the commands. -/

@[simp] theorem writeReg_params (s : State) (r : Reg) (v : Word) : (writeReg s r v).params = s.params := by
  cases r with
  | status =>
    simp only [writeReg]
    split_ifs
    · exact acknowledge_params s
    · rfl
  | _ => rfl

@[simp] theorem readField_params (b : Buf) (f : Field) (s : State) : (readField b f s).params = s.params := by
  cases f <;> rfl

@[simp] theorem writeMac_params (b : Buf) (off : Nat) (s : State) : (writeMac b off s).params = s.params := by
  simp [writeMac]

@[simp] theorem writeField_params (b : Buf) (f : Field) (s : State) : (writeField b f s).params = s.params := by
  cases f <;> simp [writeField]

@[simp] theorem refreshChecksum_params (b : Buf) (fld off len : Nat) (s : State) :
    (refreshChecksum b fld off len s).params = s.params := by
  simp [refreshChecksum]

@[simp] theorem makeReply_params (ty : Byte) (s : State) : (makeReply ty s).params = s.params := by
  obtain ⟨m, acc, f, o, r, z, h⟩ := makeReply_frame ty s
  rw [h]

@[simp] theorem fwdStart_params (s : State) : (fwdStart s).params = s.params := rfl

@[simp] theorem fwdReply_params (ty : Byte) (d : Disposition) (s : State) : (fwdReply ty d s).params = s.params := by
  simp [fwdReply]

@[simp] theorem fwdMutate_params (s : State) : (fwdMutate s).params = s.params := by
  simp [fwdMutate, refreshIpChecksum]

@[simp] theorem fwdEgress_params (r : Nat) (s : State) : (fwdEgress r s).params = s.params := by
  simp only [fwdEgress]
  split <;> simp

@[simp] theorem fwdRoute_params (s : State) : (fwdRoute s).params = s.params := by
  simp only [fwdRoute]
  split
  · simp
  · split_ifs <;> simp

@[simp] theorem forward_params (s : State) : (forward s).params = s.params := by
  have hvalidated : (runChecksum .rx Config.ethHlen Config.ipHlen (fwdStart s)).params = s.params := by
    rw [runChecksum_params, fwdStart_params]
  simp only [forward]
  generalize runChecksum .rx Config.ethHlen Config.ipHlen (fwdStart s) = s1 at hvalidated ⊢
  split_ifs
  · exact hvalidated
  · rw [fwdReply_params, hvalidated]
  · rw [fwdRoute_params, hvalidated]

/-- No command changes the parameters (10_state.md R39). -/
theorem exec_keeps_params (i : Instr) (s : State) : Ends (fun t => t.params = s.params) (exec i s) := by
  cases i with
  | nop => exact .next rfl
  | srst => exact .next (clearRegisters_params s)
  | rtload => exact .ite (.next (refuse_params _ _ s)) (.ite (.next (refuse_params _ _ s)) (.next rfl))
  | atload => exact .ite (.next (refuse_params _ _ s)) (.ite (.next (refuse_params _ _ s)) (.next rfl))
  | ifload id => exact .ite (.next (refuse_params _ _ s)) (.ite (.next (refuse_params _ _ s)) (.next rfl))
  | build => exact .ite (.next (refuse_params _ _ s)) (.next rfl)
  | rtread => exact .ite (.next (refuse_params _ _ s)) (.next rfl)
  | atread => exact .ite (.next (refuse_params _ _ s)) (.next rfl)
  | ifread id => exact .ite (.next (refuse_params _ _ s)) (.next rfl)
  | rtlookup => exact .ite (.next (writeLpmResult_params _ s)) (.next (refuse_params _ _ s))
  | arplookup => exact .ite (.next (writeArpResult_params _ s)) (.next (refuse_params _ _ s))
  | csum b off len => exact .ite (.next (refuse_params _ _ s)) (.next (runChecksum_params b off len s))
  | rdf b f =>
    simp only [exec, execRdf]
    split
    · exact .next (refuse_params _ _ s)
    · exact .next (readField_params b _ s)
  | wrf b f =>
    simp only [exec, execWrf]
    split
    · exact .next (refuse_params _ _ s)
    · exact .next (writeField_params b _ s)
  | bufclr b => exact .next (State.clearBuf_params s b)
  | ipcs b => exact .next (refreshChecksum_params b _ _ _ s)
  | icmpcs b => exact .next (refreshChecksum_params b _ _ _ s)
  | mkreply ty => exact .next (makeReply_params ty s)
  | fwd => exact .ite (.next (forward_params s)) (.next (refuse_params _ _ s))

theorem Served.params_eq {s t : State} (h : Served s t) : t.params = s.params := by
  cases h with
  | answered r => rfl
  | ran w i u _ hexec => exact exec_keeps_params i s u hexec
  | illegal w e _ => exact refuse_params w .illegal s
  | register r v => exact writeReg_params s r v
  | window b i v _ => exact State.writeByte_params s b i v
  | reset => exact hardwareReset_params s

/-! The state after reset: every register 0, every array unwritten, R6's default parameters. -/

/-- The default values satisfy the constraints of R6. -/
theorem params_default_legal : ({} : Params).Legal := by decide

theorem reset_memoryInv : MemoryInv State.reset where
  legal := params_default_legal
  rxbWf := reset_memory_wf.1
  txbWf := reset_memory_wf.2
  rxbBelow := List.forall_mem_nil _
  txbBelow := List.forall_mem_nil _

/-- The tables are empty, so what speaks of loaded entries speaks of none. -/
theorem reset_tableInv : TableInv State.reset where
  legal := params_default_legal
  rtWf := rfl
  atWf := rfl
  ifaWf := rfl
  rtBelow := List.forall_mem_nil _
  atBelow := List.forall_mem_nil _
  ifaBelow := List.forall_mem_nil _
  rtLen := Nat.zero_le _
  atLen := Nat.zero_le _
  rtStored := fun i hi => absurd hi i.not_lt_zero
  atStored := fun i hi => absurd hi i.not_lt_zero
  premasked := fun i hi => absurd hi i.not_lt_zero
  sorted := fun hbuilt => nomatch hbuilt

theorem reset_errorInv : ErrorInv State.reset where
  clear := fun _ => ⟨rfl, rfl⟩
  latched := fun herrs => nomatch herrs

theorem reset_resultInv : ResultInv State.reset where
  disp := ⟨.none, rfl⟩
  lpmMiss := fun _ => ⟨rfl, rfl, rfl, rfl, rfl⟩
  arpMiss := fun _ => ⟨rfl, rfl, rfl, rfl⟩
  noFrame := fun _ => ⟨rfl, rfl, rfl⟩

/-! Big-endian fields of a buffer (00_scope.md R9, R10; 20_memory.md R65). -/

@[simp] theorem bigEndian_bytes_zero (s : State) (b : Buf) (a : Nat) : bigEndian (s.bytes b a 0) = 0 := rfl

/-- One more byte at the higher offset is one more byte at the less significant end. -/
theorem bigEndian_bytes_succ (s : State) (b : Buf) (a n : Nat) :
    bigEndian (s.bytes b a (n + 1)) = bigEndian (s.bytes b a n) * 256 + (s.byte b (a + n)).toNat := by
  simp [bigEndian, State.bytes, List.range_succ]

theorem bigEndian_bytes_lt (s : State) (b : Buf) (a n : Nat) : bigEndian (s.bytes b a n) < 256 ^ n := by
  induction n with
  | zero => simp
  | succ n ih =>
    have hbyte := (s.byte b (a + n)).isLt
    rw [bigEndian_bytes_succ, pow_succ]
    omega

/-- A field of at most four bytes fits a register: `memRead` loses nothing. -/
theorem State.memRead_toNat (s : State) (b : Buf) (a n : Nat) (hn : n ≤ 4) :
    (s.memRead b a n).toNat = bigEndian (s.bytes b a n) := by
  rw [State.memRead, BitVec.toNat_ofNat]
  apply Nat.mod_eq_of_lt
  calc bigEndian (s.bytes b a n) < 256 ^ n := bigEndian_bytes_lt s b a n
    _ ≤ 256 ^ 4 := Nat.pow_le_pow_right (by omega) hn
    _ = 2 ^ 32 := by norm_num

/-- A byte inside the written field. -/
theorem State.byte_memWrite_field (s : State) (b : Buf) (a n j : Nat) (v : Word) (hj : j < n) :
    (s.memWrite b a n v).byte b (a + j) = v.extractLsb' (8 * (n - 1 - j)) 8 := by
  rw [State.byte_memWrite, if_pos ⟨rfl, by omega, by omega⟩, Nat.add_sub_cancel_left]

/-- The leading `m` bytes of a written `n`-byte field are its value without the low `n - m` bytes. -/
theorem bigEndian_bytes_memWrite (s : State) (b : Buf) (a n m : Nat) (v : Word) (hm : m ≤ n) :
    bigEndian ((s.memWrite b a n v).bytes b a m) = v.toNat / 2 ^ (8 * (n - m)) % 2 ^ (8 * m) := by
  induction m with
  | zero => simp [Nat.mod_one]
  | succ m ih =>
    have hshift : v.toNat / 2 ^ (8 * (n - m)) = v.toNat / 2 ^ (8 * (n - (m + 1))) / 2 ^ 8 := by
      rw [Nat.div_div_eq_div_mul, ← pow_add]
      congr 2
      omega
    rw [bigEndian_bytes_succ, ih (by omega), State.byte_memWrite_field s b a n m v hm, BitVec.extractLsb'_toNat,
      Nat.shiftRight_eq_div_pow, hshift, show n - 1 - m = n - (m + 1) by omega,
      show 8 * (m + 1) = 8 + 8 * m by ring, pow_add, Nat.mod_mul]
    ring

/-- A field reads back as the value written, cut to its width. -/
theorem State.memRead_memWrite (s : State) (b : Buf) (a n : Nat) (v : Word) (hn : n ≤ 4) :
    ((s.memWrite b a n v).memRead b a n).toNat = v.toNat % 2 ^ (8 * n) := by
  rw [State.memRead_toNat _ b a n hn, bigEndian_bytes_memWrite s b a n n v le_rfl]
  simp

/-! The accumulator of the checksum engine as a sum over bytes, and its bound (40_checksum.md R101 to R105, R111). -/

/-- The `n` bytes from index `a`, each at the weight of its lane. -/
def laneTotal (rd : Nat → Byte) (a n : Nat) : Nat :=
  ((List.range n).map fun j => (rd (a + j)).toNat * 256 ^ (3 - (a + j) % 4)).sum

theorem laneSum_eq_laneTotal (s : State) (b : Buf) (off len : Nat) :
    Claims.laneSum s b off len = s.params.csumSeed.toNat + laneTotal (s.byte b) off len := rfl

@[simp] theorem laneTotal_zero (rd : Nat → Byte) (a : Nat) : laneTotal rd a 0 = 0 := rfl

theorem laneTotal_succ (rd : Nat → Byte) (a n : Nat) :
    laneTotal rd a (n + 1) = laneTotal rd a n + (rd (a + n)).toNat * 256 ^ (3 - (a + n) % 4) := by
  simp [laneTotal, List.range_succ]

theorem laneTotal_add (rd : Nat → Byte) (a m n : Nat) :
    laneTotal rd a (m + n) = laneTotal rd a m + laneTotal rd (a + m) n := by
  induction n with
  | zero => simp
  | succ n ih => rw [← Nat.add_assoc, laneTotal_succ, laneTotal_succ, ih, Nat.add_assoc a m n, Nat.add_assoc]

/-- The bytes of one word, as long as they do not pass lane 3, stand at their lanes' weights. -/
theorem laneWord_eq_laneTotal (rd : Nat → Byte) (a c : Nat) (h : a % 4 + c ≤ 4) :
    laneWord rd a (a % 4) c = laneTotal rd a c := by
  induction c with
  | zero => rfl
  | succ c ih =>
    have hlane : (a + c) % 4 = a % 4 + c := by omega
    rw [laneWord, laneTotal_succ, ih (by omega), hlane, pow_mul]
    norm_num

theorem wordSum_eq_laneTotal (rd : Nat → Byte) (a n : Nat) (ha : a % 4 = 0) :
    wordSum rd a n = laneTotal rd a (4 * n) := by
  induction n with
  | zero => rfl
  | succ n ih =>
    have hword := laneWord_eq_laneTotal rd (a + 4 * n) 4 (by omega)
    rw [show (a + 4 * n) % 4 = 0 by omega] at hword
    rw [wordSum, ih, hword, Nat.mul_succ, laneTotal_add]

/-- The head stays inside its word, and it ends at a word boundary or takes the whole range. -/
theorem headCount_spec (off len : Nat) :
    off % 4 + headCount off len ≤ 4 ∧ headCount off len ≤ len ∧
      ((off + headCount off len) % 4 = 0 ∨ headCount off len = len) := by
  unfold headCount
  split_ifs <;> omega

/-- Head, body and tail together are the range. -/
theorem accumulate_eq_laneTotal (rd : Nat → Byte) (seed off len : Nat) :
    accumulate rd seed off len = seed + laneTotal rd off len := by
  obtain ⟨hhead, hle, hend⟩ := headCount_spec off len
  simp only [accumulate]
  rw [laneWord_eq_laneTotal rd off _ hhead]
  rcases hend with haligned | hall
  · set c := headCount off len
    set n := len - c
    have htail := laneWord_eq_laneTotal rd (off + c + 4 * (n / 4)) (n % 4) (by omega)
    rw [show (off + c + 4 * (n / 4)) % 4 = 0 by omega] at htail
    rw [wordSum_eq_laneTotal rd _ _ haligned, htail, show len = c + 4 * (n / 4) + n % 4 by omega, laneTotal_add,
      laneTotal_add]
    simp only [Nat.add_assoc]
  · simp [hall, wordSum, laneWord]

/-- Bytes in the lanes from `lane` up leave the weight of the last lane they fill free below the top. -/
theorem laneWord_add_le (rd : Nat → Byte) (a lane c : Nat) (h : lane + c ≤ 4) :
    laneWord rd a lane c + 2 ^ (8 * (4 - (lane + c))) ≤ 2 ^ 32 := by
  induction c with
  | zero =>
    rw [laneWord, Nat.zero_add]
    exact Nat.pow_le_pow_right (by omega) (by omega)
  | succ c ih =>
    have hbyte : (rd (a + c)).toNat + 1 ≤ 2 ^ 8 := (rd (a + c)).isLt
    have hsplit : 2 ^ (8 * (4 - (lane + c))) = 2 ^ 8 * 2 ^ (8 * (3 - (lane + c))) := by
      rw [← pow_add]
      congr 1
      omega
    rw [laneWord, show 4 - (lane + (c + 1)) = 3 - (lane + c) by omega]
    calc _ = laneWord rd a lane c + ((rd (a + c)).toNat + 1) * 2 ^ (8 * (3 - (lane + c))) := by ring
      _ ≤ laneWord rd a lane c + 2 ^ 8 * 2 ^ (8 * (3 - (lane + c))) := by gcongr
      _ ≤ 2 ^ 32 := hsplit ▸ ih (by omega)

theorem laneWord_lt (rd : Nat → Byte) (a lane c : Nat) (h : lane + c ≤ 4) : laneWord rd a lane c < 2 ^ 32 :=
  calc laneWord rd a lane c < laneWord rd a lane c + 2 ^ (8 * (4 - (lane + c))) := by simp
    _ ≤ 2 ^ 32 := laneWord_add_le rd a lane c h

theorem wordSum_le (rd : Nat → Byte) (a n : Nat) : wordSum rd a n ≤ n * 2 ^ 32 := by
  induction n with
  | zero => simp [wordSum]
  | succ n ih =>
    have hword := laneWord_lt rd (a + 4 * n) 0 4 (by omega)
    rw [wordSum]
    omega

/-- The bound of R111: the seed, the head and tail words, and at most 1023 body words. -/
theorem accumulate_lt (rd : Nat → Byte) (seed off len : Nat) (hseed : seed < 2 ^ 16) (hlen : len ≤ 4092) :
    accumulate rd seed off len < 2 ^ 43 := by
  obtain ⟨hhead, -⟩ := headCount_spec off len
  simp only [accumulate]
  set c := headCount off len
  have hheadWord := laneWord_lt rd off (off % 4) c hhead
  have hbody := wordSum_le rd (off + c) ((len - c) / 4)
  have htail := laneWord_lt rd (off + c + 4 * ((len - c) / 4)) 0 ((len - c) % 4) (by omega)
  omega

end Sys2Proof.Machine

namespace Sys2Proof.Claims

open Sys2Proof.Machine

/-- Settles O18, one invariant at a time. -/
theorem invariantsHoldAtReset : Obligations.InvariantsHoldAtReset :=
  ⟨reset_memoryInv, reset_tableInv, reset_errorInv, reset_resultInv⟩

/-- Settles O23, by the cases of a step: no command and no other host action writes the parameters. -/
theorem parametersNeverChange : Obligations.ParametersNeverChange := by
  intro s t hstep
  rcases step_cases hstep with rfl | ⟨rest, hserved⟩
  · rfl
  · exact hserved.params_eq

/-- Settles O46, by the big-endian form of a field's bytes. -/
theorem fieldAccessIsBigEndian : Obligations.FieldAccessIsBigEndian := by
  constructor
  · intro s b k
    refine ⟨?_, ?_, ?_⟩
    · simp [State.memRead_toNat, bigEndian_bytes_succ]
    · simp [State.memRead_toNat, bigEndian_bytes_succ]
    · rw [State.memRead_toNat s b k 4 le_rfl]
      simp only [bigEndian_bytes_succ, bigEndian_bytes_zero, Nat.add_zero]
      ring
  · intro s b k n v hn
    refine ⟨fun j hj => State.byte_memWrite_field s b k n j v hj, fun b' k' houtside => ?_,
      State.memRead_memWrite s b k n v hn⟩
    rw [State.byte_memWrite, if_neg houtside]

/-- Settles O44: the accumulator is the lane sum, and its words keep it below the register's width. -/
theorem accumulatorNeverWraps : Obligations.AccumulatorNeverWraps := by
  intro s t b off len hlegal hrange hexec
  obtain ⟨-, -, hsize, -⟩ := hlegal
  have hbound : laneSum s b off len < 2 ^ 43 := by
    rw [laneSum_eq_laneTotal, ← accumulate_eq_laneTotal]
    exact accumulate_lt _ _ _ _ s.params.csumSeed.isLt (by omega)
  have hrun : execCsum b off len s = .next (runChecksum b off len s) := if_neg (by omega)
  cases hrun.symm.trans hexec
  refine ⟨hbound, ?_⟩
  rw [runChecksum_csAcc, accumulate_eq_laneTotal, ← laneSum_eq_laneTotal, BitVec.toNat_ofNat]
  exact Nat.mod_eq_of_lt (by omega)

end Sys2Proof.Claims

/-! PROOFS of the state statements: what a command can do, what each kind of state change leaves alone, and the four
invariants under every step (10_state.md R24 to R49; 20_memory.md R62; 41_lpm.md R127 to R133; 60_exceptions.md
R211). -/

namespace Sys2Proof.Machine

open Sys2Proof.Claims

/-! What a predicate needs for every step to keep it. -/

/-- The predicate does not see the host's script and the bus's answer, and every way of serving an action keeps it. -/
structure KeptByStep (P : State → Prop) : Prop where
  access : ∀ s rest r, P s → P { s with script := rest, resp := r }
  command : ∀ i s, P s → Ends P (exec i s)
  illegal : ∀ w s, P s → P (refuse w .illegal s)
  register : ∀ r v s, P s → P (writeReg s r v)
  window : ∀ b i v s, i < s.params.fbSize → P s → P (s.writeByte b i v)
  reset : ∀ s, P s → P (hardwareReset s)

theorem KeptByStep.served {P : State → Prop} (hP : KeptByStep P) {s t : State} (hs : P s) (h : Served s t) : P t := by
  cases h with
  | answered r => exact hP.access _ _ _ hs
  | ran w i u _ hexec => exact hP.access _ _ _ (hP.command i s hs u hexec)
  | illegal w e _ => exact hP.access _ _ _ (hP.illegal w s hs)
  | register r v => exact hP.access _ _ _ (hP.register r v s hs)
  | window b i v hi => exact hP.access _ _ _ (hP.window b i v s hi hs)
  | reset => exact hP.reset s hs

theorem KeptByStep.step {P : State → Prop} (hP : KeptByStep P) {s t : State} (hs : P s) (h : step s = .next t) :
    P t := by
  rcases step_cases h with rfl | ⟨rest, hserved⟩
  · exact hs
  · exact hP.served (hP.access s rest s.resp hs) hserved

/-! What a command can do. -/

/-- The next states of the commands that look up, check or rewrite frames. -/
inductive Processed (s : State) : State → Prop
  | routeLookedUp (r : Option Nat) : Processed s (writeLpmResult r s)
  | arpLookedUp (r : Option Nat) : Processed s (writeArpResult r s)
  | checksummed (b : Buf) (off len : Nat) : Processed s (runChecksum b off len s)
  | fieldWritten (b : Buf) (f : Field) : Processed s (writeField b f s)
  | bufferCleared (b : Buf) : Processed s (s.clearBuf b)
  /-- `IPCS` or `ICMPCS`, whose fields lie in the headers' 42 bytes. -/
  | checksumRefreshed (b : Buf) (fld off len : Nat) : fld + 2 ≤ 42 → Processed s (refreshChecksum b fld off len s)
  | replied (ty : Byte) : Processed s (makeReply ty s)
  | forwarded : Processed s (forward s)

/-- The next states of a command, by what they write: commands with the same effect share a case. -/
inductive Executed (i : Instr) (s : State) : State → Prop
  /-- Refused: out of range, out of phase or table full (60_exceptions.md R212). -/
  | refused (c : RefuseCode) : c ≠ .illegal → Executed i s (refuse (encode i) c s)
  /-- `SRST`. -/
  | cleared : i = .srst → Executed i s (clearRegisters s)
  /-- `NOP`, a table read or a field read: only the data registers. -/
  | dataRead (d0 d1 d2 d3 : Word) : Executed i s { s with dr0 := d0, dr1 := d1, dr2 := d2, dr3 := d3 }
  | routeLoaded (d m n : Word) (e : Half) : s.built = false → s.rtLen.toNat ≠ s.params.rtCap →
      Executed i s
        { s with rt := Store.put s.rt s.rtLen.toNat ⟨d &&& m, m, n, e⟩, rtLen := s.rtLen + 1 }
  | arpLoaded (e : ArpEntry) : s.atLen.toNat ≠ s.params.atCap →
      Executed i s { s with arpt := Store.put s.arpt s.atLen.toNat e, atLen := s.atLen + 1 }
  | ifaceLoaded (id : Nat) (e : IfEntry) : id < s.params.nIf → Executed i s { s with ifa := Store.put s.ifa id e }
  /-- `BUILD`. -/
  | tableBuilt :
      Executed i s
        { s with rt := Store.replaceFront s.rt (sortByKey s.builds s.routes), built := true, builds := s.builds + 1 }
  | processed {t : State} : Processed s t → Executed i s t

theorem executed_readField (i : Instr) (b : Buf) (f : Field) (s : State) : Executed i s (readField b f s) := by
  cases f <;> exact .dataRead _ _ s.dr2 s.dr3

/-- Everything a command can do. -/
theorem exec_executed (i : Instr) (s : State) : Ends (Executed i s) (exec i s) := by
  have hrange : Ends (Executed i s) (.next (refuse (encode i) .range s)) := .next (.refused .range nofun)
  have hphase : Ends (Executed i s) (.next (refuse (encode i) .phase s)) := .next (.refused .phase nofun)
  have hfull : Ends (Executed i s) (.next (refuse (encode i) .full s)) := .next (.refused .full nofun)
  cases i with
  | nop => exact .next (.dataRead s.dr0 s.dr1 s.dr2 s.dr3)
  | srst => exact .next (.cleared rfl)
  | rtload =>
    simp only [exec, execRtload]
    split_ifs with hbuilt hcap
    · exact hphase
    · exact hfull
    · exact .next (.routeLoaded _ _ _ _ (by simpa using hbuilt) hcap)
  | atload =>
    simp only [exec, execAtload]
    split_ifs with hbuilt hcap
    · exact hphase
    · exact hfull
    · exact .next (.arpLoaded _ hcap)
  | ifload id =>
    simp only [exec, execIfload]
    split_ifs with hbuilt hid
    · exact hphase
    · exact hrange
    · exact .next (.ifaceLoaded id _ (by omega))
  | build => exact .ite hphase (.next .tableBuilt)
  | rtread => exact .ite hrange (.next (.dataRead _ _ _ _))
  | atread => exact .ite hrange (.next (.dataRead _ _ _ s.dr3))
  | ifread id => exact .ite hrange (.next (.dataRead _ _ s.dr2 s.dr3))
  | rtlookup => exact .ite (.next (.processed (.routeLookedUp _))) hphase
  | arplookup => exact .ite (.next (.processed (.arpLookedUp _))) hphase
  | csum b off len => exact .ite hrange (.next (.processed (.checksummed b off len)))
  | rdf b f =>
    simp only [exec, execRdf]
    split
    · exact hrange
    · exact .next (executed_readField _ b _ s)
  | wrf b f =>
    simp only [exec, execWrf]
    split
    · exact hrange
    · exact .next (.processed (.fieldWritten b _))
  | bufclr b => exact .next (.processed (.bufferCleared b))
  | ipcs b => exact .next (.processed (.checksumRefreshed b 24 _ _ (by omega)))
  | icmpcs b => exact .next (.processed (.checksumRefreshed b 36 _ _ (by omega)))
  | mkreply ty => exact .next (.processed (.replied ty))
  | fwd => exact .ite (.next (.processed .forwarded)) hphase

/-! The memory invariant. -/

/-- Every field lies in the headers' 42 bytes (42_codec.md R150). -/
theorem fieldOffset_add_fieldBytes_le (f : Field) : fieldOffset f + fieldBytes f ≤ 42 := by
  cases f <;> decide

/-- The 42 bytes of the three headers fit each buffer (00_scope.md R6). -/
theorem MemoryInv.headers_le {s : State} (h : MemoryInv s) : 42 ≤ s.params.fbSize := by
  obtain ⟨-, hsize, -⟩ := h.legal
  exact hsize

/-- A write inside the headers' 42 bytes. -/
theorem MemoryInv.writeHeader {s : State} (h : MemoryInv s) (b : Buf) (a : Nat) (l : List Byte)
    (ha : a + l.length ≤ 42) : MemoryInv (s.writeBytes b a l) :=
  h.writeBytes b a l (ha.trans h.headers_le)

theorem MemoryInv.writeHeaderByte {s : State} (h : MemoryInv s) (b : Buf) (a : Nat) (v : Byte) (ha : a < 42) :
    MemoryInv (s.writeByte b a v) :=
  h.writeByte b a v (ha.trans_le h.headers_le)

theorem MemoryInv.writeHeaderField {s : State} (h : MemoryInv s) (b : Buf) (a n : Nat) (v : Word) (ha : a + n ≤ 42) :
    MemoryInv (s.memWrite b a n v) :=
  h.memWrite b a n v (ha.trans h.headers_le)

theorem MemoryInv.writeMac {s : State} (h : MemoryInv s) (b : Buf) (off : Nat) (hoff : off + 6 ≤ 42) :
    MemoryInv (writeMac b off s) :=
  (h.writeHeaderField b off 4 _ (by omega)).writeHeaderField b (off + 4) 2 _ (by omega)

theorem MemoryInv.writeField {s : State} (h : MemoryInv s) (b : Buf) (f : Field) : MemoryInv (writeField b f s) := by
  have hfield := fieldOffset_add_fieldBytes_le f
  cases f with
  | ethDst => exact h.writeMac b _ hfield
  | ethSrc => exact h.writeMac b _ hfield
  | ipVer => exact h.writeHeaderByte b 14 _ (by omega)
  | ipIhl => exact h.writeHeaderByte b 14 _ (by omega)
  | _ => exact h.writeHeaderField b _ _ _ hfield

theorem MemoryInv.runChecksum {s : State} (h : MemoryInv s) (b : Buf) (off len : Nat) :
    MemoryInv (runChecksum b off len s) :=
  h.congr rfl rfl rfl

theorem MemoryInv.refreshChecksum {s : State} (h : MemoryInv s) (b : Buf) (fld off len : Nat) (hfld : fld + 2 ≤ 42) :
    MemoryInv (refreshChecksum b fld off len s) :=
  ((h.writeHeaderField b fld 2 0 hfld).runChecksum b off len).writeHeaderField b fld 2 _ hfld

theorem MemoryInv.replyEthernet {s : State} (h : MemoryInv s) : MemoryInv (replyEthernet s) :=
  ((h.writeHeader .tx 0 _ (by simp)).writeHeader .tx 6 _ (by simp)).writeHeaderField .tx 12 2 _ (by omega)

theorem MemoryInv.replyIpv4 {s : State} (h : MemoryInv s) : MemoryInv (replyIpv4 s) :=
  have h1 := (h.writeHeaderByte .tx 14 0x45 (by omega)).writeHeaderByte .tx 15 0x00 (by omega)
  have h2 := h1.writeHeaderField .tx 16 2 (BitVec.ofNat 32 (Config.ipHlen + Config.icmpHlen)) (by omega)
  have h3 := (h2.writeHeader .tx 18 (s.bytes .rx 18 2) (by simp)).writeHeaderField .tx 20 2 0x0000 (by omega)
  have h4 :=
    (h3.writeHeaderByte .tx 22 s.params.replyTtl (by omega)).writeHeaderByte .tx 23 Config.ipprotoIcmp (by omega)
  (h4.writeHeader .tx 26 (s.bytes .rx 30 4) (by simp)).writeHeader .tx 30 (s.bytes .rx 26 4) (by simp)

theorem MemoryInv.replyIcmp {s : State} (h : MemoryInv s) (ty : Byte) : MemoryInv (replyIcmp ty s) :=
  ((h.writeHeaderByte .tx 34 ty (by omega)).writeHeaderByte .tx 35 _ (by omega)).writeHeader .tx 38 _ (by simp)

theorem MemoryInv.makeReply {s : State} (h : MemoryInv s) (ty : Byte) : MemoryInv (makeReply ty s) := by
  have hip : MemoryInv (refreshIpChecksum .tx (Machine.replyIpv4 (Machine.replyEthernet (s.clearBuf .tx)))) :=
    (h.clearBuf .tx).replyEthernet.replyIpv4.refreshChecksum .tx 24 _ _ (by omega)
  have hicmp := (hip.replyIcmp ty).refreshChecksum .tx 36 (Config.ethHlen + Config.ipHlen) Config.icmpHlen (by omega)
  simp only [Machine.makeReply, refreshIcmpChecksum]
  generalize Machine.refreshChecksum .tx 36 _ _ _ = s3 at hicmp ⊢
  exact hicmp.congr rfl rfl rfl

theorem MemoryInv.writeLpmResult {s : State} (h : MemoryInv s) (r : Option Nat) : MemoryInv (writeLpmResult r s) :=
  h.congr (writeLpmResult_params r s) (writeLpmResult_rxb r s) (writeLpmResult_txb r s)

theorem MemoryInv.writeArpResult {s : State} (h : MemoryInv s) (r : Option Nat) : MemoryInv (writeArpResult r s) :=
  h.congr (writeArpResult_params r s) (writeArpResult_rxb r s) (writeArpResult_txb r s)

theorem MemoryInv.fwdReply {s : State} (h : MemoryInv s) (ty : Byte) (d : Disposition) : MemoryInv (fwdReply ty d s) := by
  have hreply := h.makeReply ty
  simp only [Machine.fwdReply]
  generalize Machine.makeReply ty s = s1 at hreply ⊢
  exact hreply.congr rfl rfl rfl

theorem MemoryInv.fwdMutate {s : State} (h : MemoryInv s) : MemoryInv (fwdMutate s) :=
  (h.writeHeaderByte .rx 22 _ (by omega)).refreshChecksum .rx 24 _ _ (by omega)

theorem MemoryInv.fwdEgress {s : State} (h : MemoryInv s) (r : Nat) : MemoryInv (fwdEgress r s) := by
  have hmutated := h.fwdMutate
  simp only [Machine.fwdEgress]
  generalize Machine.fwdMutate s = s1 at hmutated ⊢
  have hresolved := hmutated.writeArpResult (arpLookup s1 (fwdDest s))
  generalize Machine.writeArpResult _ s1 = s2 at hresolved ⊢
  split
  · exact hresolved.congr rfl rfl rfl
  · next j _ =>
    exact (hresolved.writeHeader .rx 0 (s2.arp j).mac.bytes (by simp [Mac.bytes])).congr rfl rfl rfl

theorem MemoryInv.fwdRoute {s : State} (h : MemoryInv s) : MemoryInv (fwdRoute s) := by
  have hrouted := h.writeLpmResult (lookup s (fwdDest s))
  simp only [Machine.fwdRoute]
  generalize Machine.writeLpmResult _ s = s1 at hrouted ⊢
  split
  · exact hrouted.fwdReply _ _
  · split_ifs
    · have hlocal : MemoryInv { s1 with ifHit := true } := hrouted.congr rfl rfl rfl
      exact hlocal.fwdReply _ _
    · exact hrouted.fwdEgress _

theorem MemoryInv.forward {s : State} (h : MemoryInv s) : MemoryInv (forward s) := by
  have hstart : MemoryInv (fwdStart s) := h.congr rfl rfl rfl
  have hvalidated := hstart.runChecksum .rx Config.ethHlen Config.ipHlen
  simp only [Machine.forward]
  generalize Machine.runChecksum .rx Config.ethHlen Config.ipHlen (fwdStart s) = s1 at hvalidated ⊢
  split_ifs
  · exact hvalidated.congr rfl rfl rfl
  · exact hvalidated.fwdReply _ _
  · exact hvalidated.fwdRoute

theorem MemoryInv.processed {s t : State} (h : MemoryInv s) (ht : Processed s t) : MemoryInv t := by
  cases ht with
  | routeLookedUp r => exact h.writeLpmResult r
  | arpLookedUp r => exact h.writeArpResult r
  | checksummed b off len => exact h.runChecksum b off len
  | fieldWritten b f => exact h.writeField b f
  | bufferCleared b => exact h.clearBuf b
  | checksumRefreshed b fld off len hfld => exact h.refreshChecksum b fld off len hfld
  | replied ty => exact h.makeReply ty
  | forwarded => exact h.forward

theorem MemoryInv.executed {i : Instr} {s t : State} (h : MemoryInv s) (ht : Executed i s t) : MemoryInv t := by
  cases ht with
  | processed ht => exact h.processed ht
  | _ => exact h.congr rfl rfl rfl

theorem memoryInv_keptByStep : KeptByStep MemoryInv where
  access := fun _ _ _ h => h.congr rfl rfl rfl
  command := fun i s h t ht => h.executed (exec_executed i s t ht)
  illegal := fun _ _ h => h.congr rfl rfl rfl
  register := fun r v s h => by
    cases r with
    | status => simp only [writeReg]; split_ifs <;> exact h.congr rfl rfl rfl
    | _ => exact h.congr rfl rfl rfl
  window := fun b i v _ hi h => h.writeByte b i v hi
  reset := fun _ h => ⟨h.legal, rfl, rfl, List.forall_mem_nil _, List.forall_mem_nil _⟩

end Sys2Proof.Machine

namespace Sys2Proof.Claims

open Sys2Proof.Machine

/-- Settles O19: every write of a command stays in the headers' 42 bytes or in the buffer it clears. -/
theorem stepKeepsMemoryInvariant : Obligations.StepKeepsMemoryInvariant :=
  fun _ _ hinv hstep => memoryInv_keptByStep.step hinv hstep

end Sys2Proof.Claims

/-! What each state change leaves alone, as one of the frames of the statements. -/

namespace Sys2Proof.Claims

open Sys2Proof.Machine

theorem OnlyBuffers.onlyBuffersAndChecksum {s t : State} (h : OnlyBuffers s t) : OnlyBuffersAndChecksum s t := by
  unfold OnlyBuffers at h
  generalize t.rxb = rx, t.txb = tx at h
  subst h
  rfl

theorem OnlyBuffersAndChecksum.onlyForwardState {s t : State} (h : OnlyBuffersAndChecksum s t) :
    OnlyForwardState s t := by
  unfold OnlyBuffersAndChecksum at h
  generalize t.rxb = rx, t.txb = tx, t.csAcc = acc, t.csFold = fold, t.csOdd = odd, t.csRes = res, t.csZero = zero at h
  subst h
  rfl

theorem OnlyForwardState.trans {s t u : State} (h : OnlyForwardState s t) (h' : OnlyForwardState t u) :
    OnlyForwardState s u := by
  unfold OnlyForwardState at h h' ⊢
  conv_lhs => rw [h', h]

end Sys2Proof.Claims

namespace Sys2Proof.Machine

open Sys2Proof.Claims

theorem onlyBuffers_setBuf (s : State) (b : Buf) (m : Memory) : OnlyBuffers s (s.setBuf b m) := by
  cases b <;> rfl

theorem onlyBuffers_writeMac (b : Buf) (off : Nat) (s : State) : OnlyBuffers s (writeMac b off s) := by
  cases b <;> rfl

theorem onlyBuffers_writeField (b : Buf) (f : Field) (s : State) : OnlyBuffers s (writeField b f s) := by
  cases f with
  | ethDst => exact onlyBuffers_writeMac b _ s
  | ethSrc => exact onlyBuffers_writeMac b _ s
  | _ => exact onlyBuffers_setBuf s b _

theorem onlyBuffersAndChecksum_runChecksum (b : Buf) (off len : Nat) (s : State) :
    OnlyBuffersAndChecksum s (runChecksum b off len s) := rfl

theorem onlyBuffersAndChecksum_refreshChecksum (b : Buf) (fld off len : Nat) (s : State) :
    OnlyBuffersAndChecksum s (refreshChecksum b fld off len s) :=
  refreshChecksum_frame b fld off len s

theorem onlyForwardState_makeReply (ty : Byte) (s : State) : OnlyForwardState s (makeReply ty s) := by
  obtain ⟨m, acc, f, o, r, z, h⟩ := makeReply_frame ty s
  rw [h]
  rfl

theorem onlyForwardState_writeLpmResult (r : Option Nat) (s : State) : OnlyForwardState s (writeLpmResult r s) := by
  cases r <;> rfl

theorem onlyForwardState_writeArpResult (r : Option Nat) (s : State) : OnlyForwardState s (writeArpResult r s) := by
  cases r <;> rfl

theorem onlyForwardState_fwdReply (ty : Byte) (d : Disposition) (s : State) : OnlyForwardState s (fwdReply ty d s) := by
  have hreply := onlyForwardState_makeReply ty s
  simp only [fwdReply]
  generalize makeReply ty s = s1 at hreply ⊢
  exact hreply.trans rfl

theorem onlyForwardState_fwdMutate (s : State) : OnlyForwardState s (fwdMutate s) :=
  (onlyBuffers_setBuf s .rx _).onlyBuffersAndChecksum.onlyForwardState.trans
    (onlyBuffersAndChecksum_refreshChecksum .rx _ _ _ _).onlyForwardState

theorem onlyForwardState_fwdEgress (r : Nat) (s : State) : OnlyForwardState s (fwdEgress r s) := by
  have hmutated := onlyForwardState_fwdMutate s
  simp only [fwdEgress]
  generalize fwdMutate s = s1 at hmutated ⊢
  have hresolved := hmutated.trans (onlyForwardState_writeArpResult (arpLookup s1 (fwdDest s)) s1)
  generalize writeArpResult _ s1 = s2 at hresolved ⊢
  split
  · exact hresolved.trans rfl
  · exact hresolved.trans rfl

theorem onlyForwardState_fwdRoute (s : State) : OnlyForwardState s (fwdRoute s) := by
  have hrouted := onlyForwardState_writeLpmResult (lookup s (fwdDest s)) s
  simp only [fwdRoute]
  generalize writeLpmResult _ s = s1 at hrouted ⊢
  split
  · exact hrouted.trans (onlyForwardState_fwdReply _ _ s1)
  · split_ifs
    · have hlocal : OnlyForwardState s { s1 with ifHit := true } := hrouted.trans rfl
      exact hlocal.trans (onlyForwardState_fwdReply _ _ _)
    · exact hrouted.trans (onlyForwardState_fwdEgress _ s1)

/-- `FWD` writes what R189 lists and nothing else. -/
theorem onlyForwardState_forward (s : State) : OnlyForwardState s (forward s) := by
  have hstart : OnlyForwardState s (fwdStart s) := rfl
  have hvalidated := hstart.trans
    (onlyBuffersAndChecksum_runChecksum .rx Config.ethHlen Config.ipHlen _).onlyForwardState
  simp only [forward]
  generalize runChecksum .rx Config.ethHlen Config.ipHlen (fwdStart s) = s1 at hvalidated ⊢
  split_ifs
  · exact hvalidated.trans rfl
  · exact hvalidated.trans (onlyForwardState_fwdReply _ _ s1)
  · exact hvalidated.trans (onlyForwardState_fwdRoute s1)

/-- What lookups, checksums, the codec and `FWD` write is all among what `FWD` may write. -/
theorem Processed.onlyForwardState {s t : State} (h : Processed s t) : OnlyForwardState s t := by
  cases h with
  | routeLookedUp r => exact onlyForwardState_writeLpmResult r s
  | arpLookedUp r => exact onlyForwardState_writeArpResult r s
  | checksummed b off len => exact (onlyBuffersAndChecksum_runChecksum b off len s).onlyForwardState
  | fieldWritten b f => exact (onlyBuffers_writeField b f s).onlyBuffersAndChecksum.onlyForwardState
  | bufferCleared b => exact (onlyBuffers_setBuf s b _).onlyBuffersAndChecksum.onlyForwardState
  | checksumRefreshed b fld off len _ => exact (onlyBuffersAndChecksum_refreshChecksum b fld off len s).onlyForwardState
  | replied ty => exact onlyForwardState_makeReply ty s
  | forwarded => exact onlyForwardState_forward s

/-! The error registers. -/

/-- `ERRS`, `ERR_CODE` and `ERRCMD` (10_state.md R26). -/
def State.errors (s : State) : Bool × Byte × Word := (s.errs, s.errCode, s.errCmd)

theorem State.errors_eq_iff {s t : State} :
    t.errors = s.errors ↔ t.errs = s.errs ∧ t.errCode = s.errCode ∧ t.errCmd = s.errCmd := by
  simp [State.errors]

theorem Processed.errors_eq {s t : State} (h : Processed s t) : t.errors = s.errors := by
  rw [h.onlyForwardState]
  rfl

/-- Only a refusal and `SRST` write the error registers. -/
theorem Executed.errors_cases {i : Instr} {s t : State} (h : Executed i s t) :
    (∃ c, c ≠ .illegal ∧ t = refuse (encode i) c s) ∨ t.errors = s.errors ∨ (i = .srst ∧ t = clearRegisters s) := by
  cases h with
  | refused c hc => exact .inl ⟨c, hc, rfl⟩
  | cleared hi => exact .inr (.inr ⟨hi, rfl⟩)
  | processed h => exact .inr (.inl h.errors_eq)
  | _ => exact .inr (.inl rfl)

theorem ErrorInv.congr {s t : State} (h : ErrorInv s) (ht : t.errors = s.errors) : ErrorInv t := by
  obtain ⟨herrs, hcode, hcmd⟩ := State.errors_eq_iff.1 ht
  refine ⟨fun hclear => ?_, fun hlatched => ?_⟩
  · rw [hcode, hcmd]
    exact h.clear (herrs ▸ hclear)
  · rw [hcode]
    exact h.latched (herrs ▸ hlatched)

theorem errorInv_refuse (w : Word) (c : RefuseCode) (s : State) : ErrorInv (refuse w c s) :=
  ⟨nofun, fun _ => ⟨c, rfl⟩⟩

/-- Acknowledged, cleared by `SRST` or by hardware reset. -/
theorem errorInv_of_cleared {s : State} (h : s.errors = State.reset.errors) : ErrorInv s :=
  reset_errorInv.congr h

theorem ErrorInv.executed {i : Instr} {s t : State} (h : ErrorInv s) (ht : Executed i s t) : ErrorInv t := by
  rcases ht.errors_cases with ⟨c, -, rfl⟩ | hkept | ⟨-, rfl⟩
  · exact errorInv_refuse _ c s
  · exact h.congr hkept
  · exact errorInv_of_cleared rfl

theorem ErrorInv.writeReg {s : State} (h : ErrorInv s) (r : Reg) (v : Word) : ErrorInv (writeReg s r v) := by
  cases r with
  | status =>
    simp only [Machine.writeReg]
    split_ifs
    · exact errorInv_of_cleared rfl
    · exact h
  | _ => exact h.congr rfl

theorem errorInv_keptByStep : KeptByStep ErrorInv where
  access := fun _ _ _ h => h.congr rfl
  command := fun i s h t ht => h.executed (exec_executed i s t ht)
  illegal := fun w s _ => errorInv_refuse w .illegal s
  register := fun r v _ h => h.writeReg r v
  window := fun b _ _ _ _ h => h.congr (by cases b <;> rfl)
  reset := fun _ _ => errorInv_of_cleared rfl

end Sys2Proof.Machine

namespace Sys2Proof.Claims

open Sys2Proof.Machine

/-- A refusal with one of the three codes a command raises is the outcome that the statements name. -/
theorem next_refuse_eq_refusedAs (i : Instr) (c : RefuseCode) (s : State) :
    .next (refuse (encode i) c s) = refusedAs i (refuseNumber c).toNat s := by
  cases c <;> rfl

/-- Settles O14, by what a command can do to the error registers. -/
theorem refusalsArePrecise : Obligations.RefusalsArePrecise := by
  intro i s t hexec
  rcases (exec_executed i s t hexec).errors_cases with ⟨c, hc, rfl⟩ | hkept | ⟨hi, rfl⟩
  · refine .inl ⟨(refuseNumber c).toNat, ?_, hexec.trans (next_refuse_eq_refusedAs i c s)⟩
    cases c with
    | illegal => exact absurd rfl hc
    | range => exact .inl rfl
    | phase => exact .inr (.inl rfl)
    | full => exact .inr (.inr rfl)
  · exact .inr (.inl (State.errors_eq_iff.1 hkept))
  · exact .inr (.inr ⟨hi, rfl, rfl, rfl⟩)

/-- Settles O21: a refusal latches its own code, and everything else that writes the registers clears all three. -/
theorem stepKeepsErrorInvariant : Obligations.StepKeepsErrorInvariant :=
  fun _ _ hinv hstep => errorInv_keptByStep.step hinv hstep

end Sys2Proof.Claims

namespace Sys2Proof.Machine

open Sys2Proof.Claims

/-- A host write to a register reaches the data, frame and error registers. -/
theorem writeReg_frame (s : State) (r : Reg) (v : Word) :
    writeReg s r v =
      { s with
        dr0 := (writeReg s r v).dr0, dr1 := (writeReg s r v).dr1, dr2 := (writeReg s r v).dr2
        dr3 := (writeReg s r v).dr3, rxLen := (writeReg s r v).rxLen, rxIf := (writeReg s r v).rxIf
        txLen := (writeReg s r v).txLen, txIf := (writeReg s r v).txIf, errs := (writeReg s r v).errs
        errCode := (writeReg s r v).errCode, errCmd := (writeReg s r v).errCmd } := by
  cases r with
  | status =>
    simp only [writeReg]
    split_ifs <;> rfl
  | _ => rfl

/-! The result registers. -/

/-- The registers that `ResultInv` speaks of, every other field as after reset (10_state.md R31, R32, R46, R47). -/
def State.results (s : State) : State :=
  { State.reset with
    disp := s.disp, lpmHit := s.lpmHit, lpmIdx := s.lpmIdx, lpmPfx := s.lpmPfx, lpmMask := s.lpmMask
    lpmNhop := s.lpmNhop, lpmEif := s.lpmEif, arpHit := s.arpHit, arpIdx := s.arpIdx, arpIp := s.arpIp
    arpMacHi := s.arpMacHi, arpMacLo := s.arpMacLo, outValid := s.outValid, outSel := s.outSel, outLen := s.outLen
    outIf := s.outIf }

theorem resultInv_results_iff {s : State} : ResultInv s.results ↔ ResultInv s :=
  ⟨fun h => ⟨h.disp, h.lpmMiss, h.arpMiss, h.noFrame⟩, fun h => ⟨h.disp, h.lpmMiss, h.arpMiss, h.noFrame⟩⟩

theorem ResultInv.congr {s t : State} (h : ResultInv s) (ht : t.results = s.results) : ResultInv t := by
  rw [← resultInv_results_iff, ht]
  exact resultInv_results_iff.2 h

theorem ResultInv.of_onlyBuffersAndChecksum {s t : State} (h : ResultInv s) (ht : OnlyBuffersAndChecksum s t) :
    ResultInv t :=
  h.congr (by rw [ht]; rfl)

theorem ResultInv.setDisp {s : State} (h : ResultInv s) (d : Disposition) :
    ResultInv { s with disp := dispCode d } :=
  ⟨⟨d, rfl⟩, h.lpmMiss, h.arpMiss, h.noFrame⟩

/-- An outbound frame described: a valid descriptor has any values. -/
theorem ResultInv.describe {s : State} (h : ResultInv s) (d : Disposition) (sel : Bool) (len outIf : Half) :
    ResultInv { s with outValid := true, outSel := sel, outLen := len, outIf := outIf, disp := dispCode d } :=
  ⟨⟨d, rfl⟩, h.lpmMiss, h.arpMiss, nofun⟩

theorem ResultInv.writeLpmResult {s : State} (h : ResultInv s) (r : Option Nat) : ResultInv (writeLpmResult r s) := by
  cases r with
  | none => exact ⟨h.disp, fun _ => ⟨rfl, rfl, rfl, rfl, rfl⟩, h.arpMiss, h.noFrame⟩
  | some i => exact ⟨h.disp, nofun, h.arpMiss, h.noFrame⟩

theorem ResultInv.writeArpResult {s : State} (h : ResultInv s) (r : Option Nat) : ResultInv (writeArpResult r s) := by
  cases r with
  | none => exact ⟨h.disp, h.lpmMiss, fun _ => ⟨rfl, rfl, rfl, rfl⟩, h.noFrame⟩
  | some i => exact ⟨h.disp, h.lpmMiss, nofun, h.noFrame⟩

theorem ResultInv.makeReply {s : State} (h : ResultInv s) (ty : Byte) : ResultInv (makeReply ty s) := by
  obtain ⟨m, acc, f, o, r, z, hframe⟩ := makeReply_frame ty s
  rw [hframe]
  exact h.congr rfl

/-- `FWD` starts from cleared result registers (43_forward.md R181), whatever they held. -/
theorem resultInv_fwdStart (s : State) : ResultInv (fwdStart s) :=
  reset_resultInv.congr rfl

theorem ResultInv.fwdReply {s : State} (h : ResultInv s) (ty : Byte) (d : Disposition) : ResultInv (fwdReply ty d s) :=
  (h.makeReply ty).describe d true _ _

theorem ResultInv.fwdMutate {s : State} (h : ResultInv s) : ResultInv (fwdMutate s) :=
  (h.of_onlyBuffersAndChecksum (onlyBuffers_setBuf s .rx _).onlyBuffersAndChecksum).of_onlyBuffersAndChecksum
    (onlyBuffersAndChecksum_refreshChecksum .rx _ _ _ _)

theorem ResultInv.fwdEgress {s : State} (h : ResultInv s) (r : Nat) : ResultInv (fwdEgress r s) := by
  have hmutated := h.fwdMutate
  simp only [Machine.fwdEgress]
  generalize Machine.fwdMutate s = s1 at hmutated ⊢
  have hresolved := hmutated.writeArpResult (arpLookup s1 (fwdDest s))
  generalize Machine.writeArpResult _ s1 = s2 at hresolved ⊢
  split
  · exact hresolved.setDisp .droppedNoArp
  · next j _ =>
    have haddressed : ResultInv (s2.writeBytes .rx 0 (s2.arp j).mac.bytes) := hresolved.congr rfl
    exact haddressed.describe .forwarded false _ _

theorem ResultInv.fwdRoute {s : State} (h : ResultInv s) : ResultInv (fwdRoute s) := by
  have hrouted := h.writeLpmResult (lookup s (fwdDest s))
  simp only [Machine.fwdRoute]
  generalize Machine.writeLpmResult _ s = s1 at hrouted ⊢
  split
  · exact hrouted.fwdReply _ _
  · split_ifs
    · have hlocal : ResultInv { s1 with ifHit := true } := hrouted.congr rfl
      exact hlocal.fwdReply _ _
    · exact hrouted.fwdEgress _

theorem resultInv_forward (s : State) : ResultInv (forward s) := by
  have hvalidated := (resultInv_fwdStart s).of_onlyBuffersAndChecksum
    (onlyBuffersAndChecksum_runChecksum .rx Config.ethHlen Config.ipHlen _)
  simp only [forward]
  generalize runChecksum .rx Config.ethHlen Config.ipHlen (fwdStart s) = s1 at hvalidated ⊢
  split_ifs
  · exact hvalidated.setDisp .droppedChecksum
  · exact hvalidated.fwdReply _ _
  · exact hvalidated.fwdRoute

theorem ResultInv.processed {s t : State} (h : ResultInv s) (ht : Processed s t) : ResultInv t := by
  cases ht with
  | routeLookedUp r => exact h.writeLpmResult r
  | arpLookedUp r => exact h.writeArpResult r
  | checksummed b off len => exact h.of_onlyBuffersAndChecksum (onlyBuffersAndChecksum_runChecksum b off len s)
  | fieldWritten b f => exact h.of_onlyBuffersAndChecksum (onlyBuffers_writeField b f s).onlyBuffersAndChecksum
  | bufferCleared b => exact h.of_onlyBuffersAndChecksum (onlyBuffers_setBuf s b _).onlyBuffersAndChecksum
  | checksumRefreshed b fld off len _ =>
    exact h.of_onlyBuffersAndChecksum (onlyBuffersAndChecksum_refreshChecksum b fld off len s)
  | replied ty => exact h.makeReply ty
  | forwarded => exact resultInv_forward s

theorem ResultInv.executed {i : Instr} {s t : State} (h : ResultInv s) (ht : Executed i s t) : ResultInv t := by
  cases ht with
  | cleared _ => exact reset_resultInv.congr rfl
  | processed ht => exact h.processed ht
  | _ => exact h.congr rfl

theorem resultInv_keptByStep : KeptByStep ResultInv where
  access := fun _ _ _ h => h.congr rfl
  command := fun i s h t ht => h.executed (exec_executed i s t ht)
  illegal := fun _ _ h => h.congr rfl
  register := fun r v s h => h.congr (by rw [writeReg_frame s r v]; rfl)
  window := fun b _ _ s _ h => h.of_onlyBuffersAndChecksum (onlyBuffers_setBuf s b _).onlyBuffersAndChecksum
  reset := fun _ _ => reset_resultInv.congr rfl

end Sys2Proof.Machine

namespace Sys2Proof.Claims

open Sys2Proof.Machine

/-- Settles O22: each lookup writes its registers together, and `FWD` starts from cleared ones. -/
theorem stepKeepsResultInvariant : Obligations.StepKeepsResultInvariant :=
  fun _ _ hinv hstep => resultInv_keptByStep.step hinv hstep

end Sys2Proof.Claims

namespace Sys2Proof.Machine

open Sys2Proof.Claims

/-! Sorting by key (41_lpm.md R127 to R129). -/

/-- An entry's key as one number: the route's address weighs more than its mask, as R128 compares them. -/
def routeKey (e : RouteEntry) : Nat := e.pfx.toNat * 2 ^ 32 + e.mask.toNat

theorem keyLe_iff (x y : RouteEntry) : keyLe x y = true ↔ routeKey x ≤ routeKey y := by
  have hx := x.mask.isLt
  have hy := y.mask.isLt
  simp only [keyLe, Bool.or_eq_true, Bool.and_eq_true, decide_eq_true_eq, BitVec.lt_def, BitVec.le_def,
    ← BitVec.toNat_inj, routeKey]
  omega

theorem routeKey_eq_iff (x y : RouteEntry) : routeKey x = routeKey y ↔ x.pfx = y.pfx ∧ x.mask = y.mask := by
  have hx := x.mask.isLt
  have hy := y.mask.isLt
  simp only [← BitVec.toNat_inj, routeKey]
  omega

/-- Key first, rank second. -/
theorem rankedLe_iff (x y : RouteEntry × Nat) :
    rankedLe x y = true ↔ routeKey x.1 < routeKey y.1 ∨ (routeKey x.1 = routeKey y.1 ∧ x.2 ≤ y.2) := by
  rw [rankedLe]
  split_ifs with hsame
  · have hkey := (routeKey_eq_iff x.1 y.1).2 hsame
    rw [decide_eq_true_eq]
    omega
  · have hkey := mt (routeKey_eq_iff x.1 y.1).1 hsame
    rw [keyLe_iff]
    omega

theorem insertRanked_eq_orderedInsert (x : RouteEntry × Nat) (l : List (RouteEntry × Nat)) :
    insertRanked x l = l.orderedInsert (fun x y => rankedLe x y = true) x := by
  induction l with
  | nil => rfl
  | cons y t ih => rw [insertRanked, List.orderedInsert_cons, ih]

theorem sortRanked_eq_insertionSort (l : List (RouteEntry × Nat)) :
    sortRanked l = l.insertionSort (fun x y => rankedLe x y = true) := by
  induction l with
  | nil => rfl
  | cons x t ih => rw [sortRanked, List.insertionSort_cons, ih, insertRanked_eq_orderedInsert]

theorem pairwise_sortRanked (l : List (RouteEntry × Nat)) :
    (sortRanked l).Pairwise (fun x y => rankedLe x y = true) := by
  have htotal : Std.Total (fun x y : RouteEntry × Nat => rankedLe x y = true) :=
    ⟨fun x y => by simp only [rankedLe_iff]; omega⟩
  have htrans : IsTrans _ (fun x y : RouteEntry × Nat => rankedLe x y = true) :=
    ⟨fun x y z => by simp only [rankedLe_iff]; omega⟩
  rw [sortRanked_eq_insertionSort]
  exact List.pairwise_insertionSort _ l

theorem sortedByKey_eq_true_iff (l : List RouteEntry) :
    sortedByKey l = true ↔ l.Pairwise (fun x y => keyLe x y = true) := by
  have htrans : Trans (fun x y => keyLe x y = true) (fun x y => keyLe x y = true) (fun x y => keyLe x y = true) :=
    ⟨fun {x y z} => by simp only [keyLe_iff]; omega⟩
  rw [← List.isChain_iff_pairwise]
  induction l using sortedByKey.induct with
  | case1 => simp [sortedByKey]
  | case2 => simp [sortedByKey]
  | case3 x y t ih =>
    rw [sortedByKey, Bool.and_eq_true, List.isChain_cons_cons]
    exact and_congr_right fun _ => ih

/-- `SortByKey` loses no entry. -/
theorem sortByKey_perm (n : Nat) (l : List RouteEntry) : (sortByKey n l).Perm l := by
  rw [sortByKey]
  split_ifs
  · rfl
  · rw [sortRanked_eq_insertionSort]
    have hperm := (List.perm_insertionSort (fun x y => rankedLe x y = true)
      (l.zip ((List.range l.length).map (Config.tieRank n)))).map Prod.fst
    rwa [List.map_fst_zip (by simp)] at hperm

/-- `SortByKey` sorts by key. -/
theorem pairwise_sortByKey (n : Nat) (l : List RouteEntry) :
    (sortByKey n l).Pairwise (fun x y => keyLe x y = true) := by
  rw [sortByKey]
  split_ifs with hsorted
  · exact (sortedByKey_eq_true_iff l).1 hsorted
  · refine (pairwise_sortRanked _).map Prod.fst fun x y hxy => ?_
    rw [rankedLe_iff] at hxy
    rw [keyLe_iff]
    omega

@[simp] theorem length_sortByKey (n : Nat) (l : List RouteEntry) : (sortByKey n l).length = l.length :=
  (sortByKey_perm n l).length_eq

/-! The tables' invariant. -/

/-- What `TableInv` speaks of, every other field as after reset (10_state.md R41 to R43). -/
def State.tables (s : State) : State :=
  { State.reset with
    params := s.params, rt := s.rt, arpt := s.arpt, ifa := s.ifa, rtLen := s.rtLen, atLen := s.atLen
    built := s.built, powerUps := s.powerUps }

theorem tableInv_tables_iff {s : State} : TableInv s.tables ↔ TableInv s :=
  ⟨fun h => { h with legal := h.legal }, fun h => { h with legal := h.legal }⟩

theorem TableInv.congr {s t : State} (h : TableInv s) (ht : t.tables = s.tables) : TableInv t := by
  rw [← tableInv_tables_iff, ht]
  exact tableInv_tables_iff.2 h

theorem TableInv.of_onlyForwardState {s t : State} (h : TableInv s) (ht : OnlyForwardState s t) : TableInv t :=
  h.congr (by rw [ht]; rfl)

/-- A table length below its capacity does not wrap (00_scope.md R6). -/
theorem toNat_add_one_of_lt_cap {len : Word} {cap : Nat} (hlen : len.toNat < cap) (hcap : cap ≤ 2 ^ 31 - 1) :
    (len + 1).toNat = len.toNat + 1 := by
  have hone : (1 : Word).toNat = 1 := rfl
  rw [BitVec.toNat_add, hone]
  exact Nat.mod_eq_of_lt (by omega)

/-- The entry written after the loaded ones is loaded, and so are those before it. -/
theorem Store.isSome_get?_put_of_lt_succ {α : Type} {m : Store α} {n : Nat} {v : α}
    (h : ∀ i < n, (Store.get? m i).isSome) : ∀ i < n + 1, (Store.get? (Store.put m n v) i).isSome := by
  intro i hi
  rw [Store.get?_put]
  split_ifs with heq
  · rfl
  · exact h i (by omega)

/-- What `RTLOAD` stores is masked (41_lpm.md R121). -/
theorem premasked_and (d m n : Word) (e : Half) : Premasked ⟨d &&& m, m, n, e⟩ := by
  simp [Premasked, BitVec.and_assoc]

theorem TableInv.routeLoaded {s : State} (h : TableInv s) (d m n : Word) (e : Half) (hbuilt : s.built = false)
    (hfull : s.rtLen.toNat ≠ s.params.rtCap) :
    TableInv { s with rt := Store.put s.rt s.rtLen.toNat ⟨d &&& m, m, n, e⟩, rtLen := s.rtLen + 1 } := by
  obtain ⟨-, -, -, -, hcap, -⟩ := h.legal
  have hroom : s.rtLen.toNat < s.params.rtCap := lt_of_le_of_ne h.rtLen hfull
  have hlen := toNat_add_one_of_lt_cap hroom hcap
  refine { h with
    rtWf := Store.wf_put _ _ _ h.rtWf
    rtBelow := Store.below_put _ _ _ _ h.rtBelow hroom
    rtLen := hlen.le.trans hroom
    rtStored := by rw [hlen]; exact Store.isSome_get?_put_of_lt_succ h.rtStored
    premasked := fun i hi => ?_
    sorted := fun hrun => absurd hrun (by simp [hbuilt]) }
  have hroute := State.route_put s s.rtLen.toNat i ⟨d &&& m, m, n, e⟩
  by_cases heq : i = s.rtLen.toNat
  · rw [if_pos heq] at hroute
    have hmasked := premasked_and d m n e
    rw [← hroute] at hmasked
    exact hmasked
  · rw [if_neg heq] at hroute
    have hmasked := h.premasked i (by rw [hlen] at hi; omega)
    rw [← hroute] at hmasked
    exact hmasked

theorem TableInv.arpLoaded {s : State} (h : TableInv s) (e : ArpEntry) (hfull : s.atLen.toNat ≠ s.params.atCap) :
    TableInv { s with arpt := Store.put s.arpt s.atLen.toNat e, atLen := s.atLen + 1 } := by
  obtain ⟨-, -, -, -, -, -, hcap, -⟩ := h.legal
  have hroom : s.atLen.toNat < s.params.atCap := lt_of_le_of_ne h.atLen hfull
  have hlen := toNat_add_one_of_lt_cap hroom hcap
  exact { h with
    atWf := Store.wf_put _ _ _ h.atWf
    atBelow := Store.below_put _ _ _ _ h.atBelow hroom
    atLen := hlen.le.trans hroom
    atStored := by rw [hlen]; exact Store.isSome_get?_put_of_lt_succ h.atStored }

theorem TableInv.ifaceLoaded {s : State} (h : TableInv s) (id : Nat) (e : IfEntry) (hid : id < s.params.nIf) :
    TableInv { s with ifa := Store.put s.ifa id e } :=
  { h with
    ifaWf := Store.wf_put _ _ _ h.ifaWf
    ifaBelow := Store.below_put _ _ _ _ h.ifaBelow hid }

/-- A loaded entry after `BUILD` is the entry of the sorted list at its index. -/
theorem State.route_replaceFront_sortByKey (s : State) (n i : Nat) (hi : i < s.rtLen.toNat) :
    ({ s with rt := Store.replaceFront s.rt (sortByKey n s.routes) } : State).route i =
      (sortByKey n s.routes)[i]'(by simpa using hi) := by
  rw [State.route_replaceFront, dif_pos]

theorem TableInv.tableBuilt {s : State} (h : TableInv s) :
    TableInv
      { s with rt := Store.replaceFront s.rt (sortByKey s.builds s.routes), built := true, builds := s.builds + 1 } := by
  have hlength : (sortByKey s.builds s.routes).length = s.rtLen.toNat := by simp
  have hroute := s.route_replaceFront_sortByKey s.builds
  refine { h with
    rtWf := Store.wf_replaceFront _ _ h.rtWf
    rtBelow := Store.below_replaceFront _ _ _ h.rtBelow (hlength.le.trans h.rtLen)
    rtStored := fun i hi => ?_
    premasked := fun i hi => ?_
    sorted := fun _ i j hij hj => ?_ }
  · rw [Store.get?_replaceFront, if_pos (hlength ▸ hi), List.getElem?_eq_getElem (hlength ▸ hi)]
    rfl
  · have hmem : (sortByKey s.builds s.routes)[i]'(hlength ▸ hi) ∈ s.routes :=
      (sortByKey_perm s.builds s.routes).subset (List.getElem_mem _)
    obtain ⟨k, hk, heq⟩ := List.mem_map.1 hmem
    have hmasked := h.premasked k (List.mem_range.1 hk)
    rw [heq, ← hroute i hi] at hmasked
    exact hmasked
  · have hsorted := List.pairwise_iff_getElem.1 (pairwise_sortByKey s.builds s.routes) i j (hlength ▸ hij.trans hj)
      (hlength ▸ hj) hij
    rw [← hroute i (hij.trans hj), ← hroute j hj] at hsorted
    exact hsorted

/-- `SRST` empties the tables and keeps the storage of RT and AT (44_system.md R201). -/
theorem TableInv.clearRegisters {s : State} (h : TableInv s) : TableInv (clearRegisters s) :=
  { h with
    ifaWf := rfl
    ifaBelow := List.forall_mem_nil _
    rtLen := Nat.zero_le _
    atLen := Nat.zero_le _
    rtStored := fun i hi => absurd hi i.not_lt_zero
    atStored := fun i hi => absurd hi i.not_lt_zero
    premasked := fun i hi => absurd hi i.not_lt_zero
    sorted := nofun }

/-- Hardware reset empties tables and storage and keeps the parameters. -/
theorem TableInv.hardwareReset {s : State} (h : TableInv s) : TableInv (hardwareReset s) :=
  { h.clearRegisters with
    rtWf := rfl
    atWf := rfl
    rtBelow := List.forall_mem_nil _
    atBelow := List.forall_mem_nil _
    rtStored := fun i hi => absurd hi i.not_lt_zero
    atStored := fun i hi => absurd hi i.not_lt_zero
    premasked := fun i hi => absurd hi i.not_lt_zero
    sorted := nofun }

theorem TableInv.executed {i : Instr} {s t : State} (h : TableInv s) (ht : Executed i s t) : TableInv t := by
  cases ht with
  | cleared _ => exact h.clearRegisters
  | routeLoaded d m n e hbuilt hfull => exact h.routeLoaded d m n e hbuilt hfull
  | arpLoaded e hfull => exact h.arpLoaded e hfull
  | ifaceLoaded id e hid => exact h.ifaceLoaded id e hid
  | tableBuilt => exact h.tableBuilt
  | processed ht => exact h.of_onlyForwardState ht.onlyForwardState
  | refused => exact h.congr rfl
  | dataRead => exact h.congr rfl

theorem tableInv_keptByStep : KeptByStep TableInv where
  access := fun _ _ _ h => h.congr rfl
  command := fun i s h t ht => h.executed (exec_executed i s t ht)
  illegal := fun _ _ h => h.congr rfl
  register := fun r v s h => h.congr (by rw [writeReg_frame s r v]; rfl)
  window := fun b _ _ s _ h => 
    h.of_onlyForwardState (onlyBuffers_setBuf s b _).onlyBuffersAndChecksum.onlyForwardState
  reset := fun _ h => h.hardwareReset

end Sys2Proof.Machine

namespace Sys2Proof.Claims

open Sys2Proof.Machine

/-- Settles O20: a load writes the first free place, `BUILD` permutes the loaded entries into key order, and no other
action writes a table but the two resets, which empty them. -/
theorem stepKeepsTableInvariant : Obligations.StepKeepsTableInvariant :=
  fun _ _ hinv hstep => tableInv_keptByStep.step hinv hstep

end Sys2Proof.Claims

namespace Sys2Proof.Machine

open Sys2Proof.Claims

/-! The lookup on disjoint ranges (41_lpm.md R131, R133). -/

/-- Values with no bit in common are joined by a sum. -/
theorem toNat_or_of_and_eq_zero {x y : Word} (h : x &&& y = 0#32) : (x ||| y).toNat = x.toNat + y.toNat := by
  rw [← BitVec.add_eq_or_of_and_eq_zero x y h, BitVec.toNat_add_of_and_eq_zero h]

/-- An address is its part under the mask and the part beside it. -/
theorem toNat_eq_and_add_and_not (d m : Word) : d.toNat = (d &&& m).toNat + (d &&& ~~~m).toNat := by
  have hdisjoint : (d &&& m) &&& (d &&& ~~~m) = 0#32 := by
    ext i hi
    cases hm : m[i] <;> simp [hm]
  have hjoin : (d &&& m) ||| (d &&& ~~~m) = d := by
    ext i hi
    cases hm : m[i] <;> simp [hm]
  rw [← toNat_or_of_and_eq_zero hdisjoint, hjoin]

/-- The range of a masked entry ends as far above its first address as the mask leaves room. -/
theorem lastAddress_toNat {e : RouteEntry} (h : Premasked e) :
    (lastAddress e).toNat = e.pfx.toNat + (~~~e.mask).toNat := by
  refine toNat_or_of_and_eq_zero ?_
  rw [← h]
  ext i hi
  cases hm : e.mask[i] <;> simp [hm]

theorem and_toNat_le_left (d m : Word) : (d &&& m).toNat ≤ d.toNat := by
  rw [BitVec.toNat_and]
  exact Nat.and_le_left

theorem and_toNat_le_right (d m : Word) : (d &&& m).toNat ≤ m.toNat := by
  rw [BitVec.toNat_and]
  exact Nat.and_le_right

/-- A matching address lies in the entry's range. -/
theorem mem_range_of_matches {e : RouteEntry} {d : Word} (h : Premasked e) (hd : Matches e d) :
    e.pfx ≤ d ∧ d ≤ lastAddress e := by
  have hsplit := toNat_eq_and_add_and_not d e.mask
  have hrest := and_toNat_le_right d (~~~e.mask)
  have hlast := lastAddress_toNat h
  rw [hd] at hsplit
  exact ⟨by rw [BitVec.le_def]; omega, by rw [BitVec.le_def]; omega⟩

/-- Below an entry's range, the masked address is below the range too. -/
theorem and_mask_lt_of_lt_pfx {e : RouteEntry} {d : Word} (hd : d < e.pfx) : d &&& e.mask < e.pfx := by
  have hle := and_toNat_le_left d e.mask
  rw [BitVec.lt_def] at hd ⊢
  omega

/-- Above an entry's range, the masked address is still above its first address. -/
theorem pfx_lt_and_mask_of_lastAddress_lt {e : RouteEntry} {d : Word} (h : Premasked e) (hd : lastAddress e < d) :
    e.pfx < d &&& e.mask := by
  have hsplit := toNat_eq_and_add_and_not d e.mask
  have hrest := and_toNat_le_right d (~~~e.mask)
  have hlast := lastAddress_toNat h
  rw [BitVec.lt_def] at hd ⊢
  omega

/-- The binary search finds the entry that matches when every entry before it sends the search up and every entry after
it sends the search down. -/
theorem probe_eq_some {rt : Nat → RouteEntry} {d : Word} {len i : Nat} (hmatch : Matches (rt i) d)
    (hbefore : ∀ j < i, (rt j).pfx < d &&& (rt j).mask)
    (hafter : ∀ j, i < j → j < len → d &&& (rt j).mask < (rt j).pfx) (fuel lo hi : Nat) (hlo : lo ≤ i) (hhi : i < hi)
    (hlen : hi ≤ len) (hfuel : hi - lo ≤ fuel) : probe rt d fuel lo hi = some i := by
  induction fuel generalizing lo hi with
  | zero => omega
  | succ fuel ih =>
    rw [probe, if_neg (by omega)]
    simp only
    have hmid : lo ≤ lo + (hi - 1 - lo) / 2 ∧ lo + (hi - 1 - lo) / 2 < hi := by omega
    generalize lo + (hi - 1 - lo) / 2 = mid at hmid ⊢
    rcases Nat.lt_trichotomy mid i with hlt | rfl | hgt
    · have hup := hbefore mid hlt
      rw [if_neg (BitVec.ne_of_lt hup).symm, if_neg (BitVec.lt_asymm hup)]
      exact ih (mid + 1) hi hlt hhi hlen (by omega)
    · exact if_pos hmatch
    · have hdown := hafter mid hgt (by omega)
      rw [if_neg (BitVec.ne_of_lt hdown), if_pos hdown]
      exact ih lo mid hlo hgt (by omega) (by omega)

/-- The scan stops at once when the run does not go on. -/
theorem scanRun_eq_best {rt : Nat → RouteEntry} {len : Nat} {d p : Word} {i : Nat}
    (h : ¬(i + 1 < len ∧ (rt (i + 1)).pfx = p)) (fuel best : Nat) : scanRun rt len d p fuel i best = best := by
  cases fuel with
  | zero => rfl
  | succ fuel => rw [scanRun, if_neg h]

/-- The lookup is the search's entry when no later entry belongs to its run. -/
theorem lookup_eq_some {s : State} {d : Word} {i : Nat} (hi : i < s.rtLen.toNat) (hmatch : Matches (s.route i) d)
    (hbefore : ∀ j < i, (s.route j).pfx < d &&& (s.route j).mask)
    (hafter : ∀ j, i < j → j < s.rtLen.toNat → d &&& (s.route j).mask < (s.route j).pfx)
    (hrun : ∀ j, i < j → j < s.rtLen.toNat → (s.route j).pfx ≠ (s.route i).pfx) : lookup s d = some i := by
  have hprobe : probe s.route d s.rtLen.toNat 0 s.rtLen.toNat = some i :=
    probe_eq_some hmatch hbefore hafter _ 0 _ (by omega) hi le_rfl (by omega)
  have hscan := scanRun_eq_best (rt := s.route) (d := d) (fun h => hrun (i + 1) (by omega) h.1 h.2) s.rtLen.toNat i
  rw [lookup, lookupIn, hprobe]
  exact congrArg some hscan

/-- The entries' ranges are pairwise disjoint (41_lpm.md R133 item 4). -/
def DisjointRanges (s : State) : Prop :=
  ∀ i < s.rtLen.toNat, ∀ j < s.rtLen.toNat, i ≠ j →
    lastAddress (s.route i) < (s.route j).pfx ∨ lastAddress (s.route j) < (s.route i).pfx

/-- In a sorted table of disjoint ranges, each range lies wholly before the next. -/
theorem lastAddress_lt_pfx {s : State} (hsorted : SortedTable s)
    (hmasked : ∀ i < s.rtLen.toNat, Premasked (s.route i)) (hdisjoint : DisjointRanges s) {i j : Nat} (hij : i < j)
    (hj : j < s.rtLen.toNat) : lastAddress (s.route i) < (s.route j).pfx := by
  refine (hdisjoint i (hij.trans hj) j hj hij.ne).resolve_right fun hswapped => ?_
  have hlast := lastAddress_toNat (hmasked j hj)
  have hkey : (s.route i).pfx.toNat ≤ (s.route j).pfx.toNat := by
    rcases hsorted i j hij hj with hlt | ⟨heq, -⟩
    · exact (BitVec.lt_def.1 hlt).le
    · rw [heq]
  rw [BitVec.lt_def] at hswapped
  omega

theorem lookup_of_disjointRanges {s : State} (hsorted : SortedTable s)
    (hmasked : ∀ i < s.rtLen.toNat, Premasked (s.route i)) (hdisjoint : DisjointRanges s) {d : Word} {i : Nat}
    (hi : i < s.rtLen.toNat) (hmatch : Matches (s.route i) d) : lookup s d = some i := by
  obtain ⟨hfirst, hlast⟩ := mem_range_of_matches (hmasked i hi) hmatch
  rw [BitVec.le_def] at hfirst hlast
  have hbefore (j : Nat) (hj : j < i) : lastAddress (s.route j) < d := by
    have hrange := lastAddress_lt_pfx hsorted hmasked hdisjoint hj hi
    rw [BitVec.lt_def] at hrange ⊢
    omega
  have hafter (j : Nat) (hij : i < j) (hj : j < s.rtLen.toNat) : d < (s.route j).pfx := by
    have hrange := lastAddress_lt_pfx hsorted hmasked hdisjoint hij hj
    rw [BitVec.lt_def] at hrange ⊢
    omega
  refine lookup_eq_some hi hmatch (fun j hj => ?_) (fun j hij hj => ?_) (fun j hij hj heq => ?_)
  · exact pfx_lt_and_mask_of_lastAddress_lt (hmasked j (hj.trans hi)) (hbefore j hj)
  · exact and_mask_lt_of_lt_pfx (hafter j hij hj)
  · have habove := hafter j hij hj
    rw [heq, BitVec.lt_def] at habove
    omega

end Sys2Proof.Machine

namespace Sys2Proof.Claims

open Sys2Proof.Machine

/-- Settles O36: the other entries' ranges lie wholly before or after the address, so the search is steered to the
entry that matches. It is enough that the entries are masked; that the masks are contiguous is not used. -/
theorem lookupIsExactOnDisjointRanges : Obligations.LookupIsExactOnDisjointRanges := by
  intro s hsorted hentries hdisjoint d
  have hmasked (i : Nat) (hi : i < s.rtLen.toNat) : Premasked (s.route i) := (hentries i hi).2
  have hhit (i : Nat) (hi : i < s.rtLen.toNat) (hmatch : Matches (s.route i) d) : lookup s d = some i :=
    lookup_of_disjointRanges hsorted hmasked hdisjoint hi hmatch
  refine ⟨hhit, fun hmiss i hi hmatch => ?_⟩
  rw [hhit i hi hmatch] at hmiss
  exact nomatch hmiss

end Sys2Proof.Claims

namespace Sys2Proof.Machine

/-! The register map (10_state.md R24, R25; 20_memory.md R62). -/

/-- The byte offset of each register (10_state.md R25). -/
def regOffset : Reg → Nat
  | .cmd => 0x00
  | .status => 0x04
  | .err => 0x08
  | .errcmd => 0x0C
  | .dr0 => 0x10
  | .dr1 => 0x14
  | .dr2 => 0x18
  | .dr3 => 0x1C
  | .rxLen => 0x20
  | .rxIf => 0x24
  | .txLen => 0x28
  | .txIf => 0x2C
  | .rtLen => 0x30
  | .atLen => 0x34
  | .csRes => 0x38
  | .csFold => 0x3C
  | .csAccLo => 0x40
  | .csAccHi => 0x44
  | .lpmIdx => 0x48
  | .lpmPrefix => 0x4C
  | .lpmMask => 0x50
  | .lpmNhop => 0x54
  | .lpmEif => 0x58
  | .arpIdx => 0x5C
  | .arpIp => 0x60
  | .arpMacHi => 0x64
  | .arpMacLo => 0x68
  | .disp => 0x6C
  | .outLen => 0x70
  | .outIf => 0x74

/-- The map places each register at its offset and at no other. -/
theorem regAt_eq_some_iff (off : Nat) (r : Reg) : regAt off = some r ↔ regOffset r = off := by
  constructor
  · intro h
    unfold regAt at h
    split at h <;> cases h <;> rfl
  · rintro rfl
    cases r <;> rfl

theorem regOffset_le (r : Reg) : regOffset r ≤ 0x74 := by
  cases r <;> decide

/-- Above the last register the offsets are reserved. -/
theorem regAt_eq_none_of_lt {off : Nat} (h : 0x74 < off) : regAt off = none := by
  rw [Option.eq_none_iff_forall_ne_some]
  intro r hr
  have hoff := (regAt_eq_some_iff off r).1 hr
  have hle := regOffset_le r
  omega

/-- Every aligned word access up to 0xFC reaches a register or a reserved offset. -/
theorem target_word (p : Params) {off : Nat} (haligned : off % 4 = 0) (hoff : off ≤ 0xFC) :
    target p .word off = some (match regAt off with | some r => .reg r | none => .reserved) := by
  rw [target, if_pos (by omega), if_pos ⟨rfl, haligned⟩]
  cases regAt off <;> rfl

theorem target_regOffset (p : Params) (r : Reg) : target p .word (regOffset r) = some (.reg r) := by
  cases r <;> rfl

/-- A word read returns the register at the offset, and 0 where there is none. -/
theorem hostRead_word (s : State) {off : Nat} (haligned : off % 4 = 0) (hoff : off ≤ 0xFC) :
    hostRead .word off s = .word (match regAt off with | some r => readReg s r | none => 0) := by
  rw [hostRead, target_word s.params haligned hoff]
  cases regAt off <;> rfl

theorem hostRead_regOffset (s : State) (r : Reg) : hostRead .word (regOffset r) s = .word (readReg s r) := by
  rw [hostRead, target_regOffset]

/-- Reserved offsets read as 0. -/
theorem hostRead_reserved (s : State) {off : Nat} (haligned : off % 4 = 0) (habove : 0x74 < off) (hoff : off ≤ 0xFC) :
    hostRead .word off s = .word 0 := by
  rw [hostRead_word s haligned hoff, regAt_eq_none_of_lt habove]

/-- A word write to a register other than `CMD`. -/
theorem hostWrite_regOffset (s : State) {r : Reg} (hr : r ≠ .cmd) (v : Word) :
    hostWrite .word (regOffset r) v s = .next { writeReg s r v with resp := .ack } := by
  rw [hostWrite, target_regOffset]
  cases r with
  | cmd => exact absurd rfl hr
  | _ => rfl

/-- The registers that a host write does not change: all but `CMD`, `STATUS` and the RW registers. -/
theorem writeReg_eq_self {r : Reg} (s : State) (v : Word)
    (h : regOffset r = 0x08 ∨ regOffset r = 0x0C ∨ 0x30 ≤ regOffset r) : writeReg s r v = s := by
  cases r with
  | cmd | status | dr0 | dr1 | dr2 | dr3 | rxLen | rxIf | txLen | txIf => simp [regOffset] at h
  | _ => rfl

/-- A word write to a read-only register or a reserved offset is taken and ignored. -/
theorem hostWrite_readOnly (s : State) {off : Nat} (v : Word) (haligned : off % 4 = 0) (hoff : off ≤ 0xFC)
    (h : off = 0x08 ∨ off = 0x0C ∨ 0x30 ≤ off) : hostWrite .word off v s = .next { s with resp := .ack } := by
  cases hreg : regAt off with
  | none => rw [hostWrite, target_word s.params haligned hoff, hreg]
  | some r =>
    obtain rfl := (regAt_eq_some_iff off r).1 hreg
    have hcmd : r ≠ .cmd := by
      rintro rfl
      simp [regOffset] at h
    rw [hostWrite_regOffset s hcmd v, writeReg_eq_self s v h]

/-- A flag's weight is its bit. -/
theorem flagBit_eq (f : Bool) (n : Nat) : flagBit f n = f.toNat * 2 ^ n := by
  cases f <;> simp [flagBit]

/-- `STATUS` is the list of its flags, bit 0 first. -/
theorem statusWord_eq (s : State) :
    statusWord s =
      (BitVec.ofBoolListLE
        [s.built, s.errs, s.csZero, s.csOdd, s.lpmHit, s.arpHit, s.ifHit, s.outValid, s.outSel]).setWidth 32 := by
  apply BitVec.eq_of_toNat_eq
  simp only [statusWord, flagBit_eq, BitVec.ofBoolListLE, BitVec.toNat_ofNat, BitVec.toNat_setWidth,
    BitVec.toNat_concat, List.length_nil, Nat.zero_mod]
  congr 1
  ring

theorem getLsbD_statusWord (s : State) (k : Nat) :
    (statusWord s).getLsbD k =
      [s.built, s.errs, s.csZero, s.csOdd, s.lpmHit, s.arpHit, s.ifHit, s.outValid, s.outSel].getD k false := by
  rw [statusWord_eq, BitVec.getLsbD_setWidth, BitVec.getLsbD_ofBoolListLE]
  by_cases hk : k < 32
  · simp only [hk, decide_true, Bool.true_and]
  · rw [List.getD_eq_default _ _ (by simp; omega), Bool.and_false]

end Sys2Proof.Machine

namespace Sys2Proof.Claims

open Sys2Proof.Machine

/-- Settles O6: an action at the head of the script that writes a legal word to `CMD` is issued and acknowledged. -/
theorem stepRunsTheDecodedCommand : Obligations.StepRunsTheDecodedCommand := by
  refine ⟨fun s w i rest hscript hdecode => ?_, answer_next, step_nil⟩
  rw [step_cons s _ rest hscript, perform, hostWrite_cmd, issue_ok hdecode]

/-- Settles O8: a read goes through the register map, a write to a RW register stores it. -/
theorem registerAccesses : Obligations.RegisterAccesses := by
  refine ⟨fun s off rest hscript haligned hoff => ?_, fun s v rest off hscript => ?_⟩
  · rw [step_cons s _ rest hscript, perform, hostRead_word _ haligned hoff]
    cases regAt off <;> rfl
  · have hstep : step s = hostWrite .word off v { s with script := rest } := step_cons s _ rest hscript
    have hwrite (r : Reg) (hr : r ≠ .cmd) (h : off = regOffset r) :
        step s = .next { writeReg { s with script := rest } r v with resp := .ack } := by
      rw [hstep, h, hostWrite_regOffset _ hr v]
    have htrunc : v.setWidth 16 = v.extractLsb' 0 16 := BitVec.setWidth_eq_extractLsb' (by omega)
    refine ⟨hwrite .dr0 nofun, hwrite .dr1 nofun, hwrite .dr2 nofun, hwrite .dr3 nofun, ?_, ?_, ?_, ?_, ?_⟩
    · rw [← htrunc]; exact hwrite .rxLen nofun
    · rw [← htrunc]; exact hwrite .rxIf nofun
    · rw [← htrunc]; exact hwrite .txLen nofun
    · rw [← htrunc]; exact hwrite .txIf nofun
    · intro haligned hoff
      rw [hstep, hostWrite_readOnly _ v haligned (by omega) (by omega)]

/-- A register narrower than a word reads as its bits below zeros. -/
theorem setWidth_eq_zero_append {w n : Nat} (x : BitVec n) : x.setWidth (w + n) = 0#w ++ x := by
  apply BitVec.eq_of_toNat_eq
  rw [BitVec.toNat_setWidth_of_le (by omega), BitVec.toNat_append]
  simp

/-- Settles O9: the map register by register, the reserved offsets together. -/
theorem registerReadsFollowTheMap : Obligations.RegisterReadsFollowTheMap := by
  intro s
  have hread (r : Reg) (v : Word) (h : readReg s r = v) : hostRead .word (regOffset r) s = .word v :=
    h ▸ hostRead_regOffset s r
  have hbyte (x : Byte) : x.setWidth 32 = 0#24 ++ x := setWidth_eq_zero_append x
  have hhalf (x : Half) : x.setWidth 32 = 0#16 ++ x := setWidth_eq_zero_append x
  have hnibble (x : BitVec 4) : x.setWidth 32 = 0#28 ++ x := setWidth_eq_zero_append x
  exact ⟨hread .cmd _ rfl, hread .status _ rfl, hread .err _ (hbyte _), hread .errcmd _ rfl,
    hread .dr0 _ rfl, hread .dr1 _ rfl, hread .dr2 _ rfl, hread .dr3 _ rfl,
    hread .rxLen _ (hhalf _), hread .rxIf _ (hhalf _), hread .txLen _ (hhalf _), hread .txIf _ (hhalf _),
    hread .rtLen _ rfl, hread .atLen _ rfl, hread .csRes _ (hhalf _), hread .csFold _ (hhalf _),
    ⟨s.csAcc.extractLsb' 0 32, s.csAcc.extractLsb' 32 32,
      (BitVec.extractLsb'_append_extractLsb' (w := 32) (len := 32)).symm,
      hread .csAccLo _ rfl, hread .csAccHi _ rfl⟩,
    hread .lpmIdx _ rfl, hread .lpmPrefix _ rfl, hread .lpmMask _ rfl, hread .lpmNhop _ rfl, hread .lpmEif _ (hhalf _),
    hread .arpIdx _ rfl, hread .arpIp _ rfl, hread .arpMacHi _ rfl, hread .arpMacLo _ rfl,
    hread .disp _ (hnibble _), hread .outLen _ (hhalf _), hread .outIf _ (hhalf _),
    fun off habove hoff haligned => hostRead_reserved s haligned (by omega) hoff⟩

/-- Settles O10, by the list of flags that `STATUS` is. -/
theorem statusWordHoldsTheFlags : Obligations.StatusWordHoldsTheFlags := by
  intro s
  simp only [getLsbD_statusWord]
  refine ⟨rfl, rfl, rfl, rfl, rfl, rfl, rfl, rfl, rfl, fun k hk => ?_⟩
  exact List.getD_eq_default _ _ hk

end Sys2Proof.Claims

namespace Sys2Proof.Machine

open Sys2Proof.Claims

/-! The buffer windows and the undefined accesses (20_memory.md R61, R63, R64). -/

/-- Where the window of a buffer begins (20_memory.md R61). -/
def windowBase : Buf → Nat
  | .rx => 0x1000
  | .tx => 0x2000

/-- A byte access in a window reaches its byte; the windows are apart because neither is longer than 0x1000. -/
theorem target_window {p : Params} (hsize : p.fbSize ≤ 0x1000) (b : Buf) {i : Nat} (hi : i < p.fbSize) :
    target p .byte (windowBase b + i) = some (.window b i) := by
  cases b with
  | rx =>
    rw [windowBase, target, if_neg (by omega), if_pos (by omega), if_pos rfl, Nat.add_sub_cancel_left]
  | tx =>
    rw [windowBase, target, if_neg (by omega), if_neg (by omega), if_pos (by omega), if_pos rfl,
      Nat.add_sub_cancel_left]

/-- No target outside the aligned words up to 0xFC and the bytes of the two windows. -/
theorem target_eq_none {p : Params} {wd : Width} {off : Nat} (hreg : ¬(wd = .word ∧ off % 4 = 0 ∧ off ≤ 0xFC))
    (hrx : ¬(wd = .byte ∧ 0x1000 ≤ off ∧ off < 0x1000 + p.fbSize))
    (htx : ¬(wd = .byte ∧ 0x2000 ≤ off ∧ off < 0x2000 + p.fbSize)) : target p wd off = none := by
  unfold target
  split_ifs with hlow hword hinRx hbyteRx hinTx hbyteTx
  · obtain ⟨rfl, haligned⟩ := hword
    exact absurd ⟨rfl, haligned, by omega⟩ hreg
  · rfl
  · exact absurd ⟨hbyteRx, hinRx⟩ hrx
  · rfl
  · exact absurd ⟨hbyteTx, hinTx⟩ htx
  · rfl
  · rfl

/-- A step that serves a byte read in a window answers the byte. -/
theorem step_read_window {s : State} {b : Buf} {i : Nat} {rest : List HostAction} (hsize : s.params.fbSize ≤ 0x1000)
    (hi : i < s.params.fbSize) (hscript : s.script = .read .byte (windowBase b + i) :: rest) :
    step s = .next { s with script := rest, resp := .byte (s.byte b i) } := by
  rw [step_cons s _ rest hscript, perform, hostRead, target_window hsize b hi]
  rfl

/-- A step that serves a byte write in a window writes the byte. -/
theorem step_write_window {s : State} {b : Buf} {i : Nat} {v : Word} {rest : List HostAction}
    (hsize : s.params.fbSize ≤ 0x1000) (hi : i < s.params.fbSize)
    (hscript : s.script = .write .byte (windowBase b + i) v :: rest) :
    step s = .next ({ s with script := rest, resp := .ack }.writeByte b i (v.extractLsb' 0 8)) := by
  rw [step_cons s _ rest hscript, perform, hostWrite, target_window hsize b hi]
  cases b <;> rfl

/-- A written byte leaves every other byte of both buffers. -/
theorem keepsBytesOutside_writeByte (s : State) (b : Buf) (i : Nat) (v : Byte) :
    KeepsBytesOutside b i 1 s (s.writeByte b i v) := by
  intro b' k houtside
  rw [State.byte_writeByte, if_neg]
  rintro ⟨rfl, rfl⟩
  exact houtside ⟨rfl, le_rfl, Nat.lt_succ_self _⟩

end Sys2Proof.Machine

namespace Sys2Proof.Claims

open Sys2Proof.Machine

/-- Settles O11, for both windows at once: `setBuf` replaces one buffer and nothing else. -/
theorem bufferAccesses : Obligations.BufferAccesses := by
  intro s i v rest hlegal hi
  obtain ⟨-, -, hle, -⟩ := hlegal
  have hsize : s.params.fbSize ≤ 0x1000 := by omega
  have hwrite (b : Buf) (hscript : s.script = .write .byte (windowBase b + i) v :: rest) :
      ∃ t, step s = .next t ∧ t.byte b i = v.extractLsb' 0 8 ∧ KeepsBytesOutside b i 1 s t ∧
        t = { s with script := rest, resp := .ack }.setBuf b (t.buf b) := by
    refine ⟨_, step_write_window hsize hi hscript, ?_,
      keepsBytesOutside_writeByte { s with script := rest, resp := .ack } b i _, ?_⟩
    · rw [State.byte_writeByte, if_pos ⟨rfl, rfl⟩]
    · rw [State.writeByte, State.buf_setBuf_self]
  exact ⟨step_read_window hsize hi (b := .rx), step_read_window hsize hi (b := .tx), hwrite .rx, hwrite .tx⟩

/-- Settles O12: such an access has no target in the address map. -/
theorem otherAccessesGetABusError : Obligations.OtherAccessesGetABusError := by
  intro s wd off v rest hreg hrx htx
  have hnone : target s.params wd off = none := target_eq_none hreg hrx htx
  constructor <;> intro hscript
  · rw [step_cons s _ rest hscript, perform, hostRead, hnone]
  · rw [step_cons s _ rest hscript, perform, hostWrite, hnone]

end Sys2Proof.Claims

/-! PROOFS of the encoding statements: the decoder and the encoder are each the opcode map of 30_encoding.md R80 to R84, so
they are inverse to each other. -/

namespace Sys2Proof

open Sys2Proof.Claims Sys2Proof.Laws.OpcodeField

/-! The opcode map: the must-be-zero bits of each row, and its instruction with the operands of a word. -/

/-- The highest and the lowest of the bits that the format of a command requires to be zero (30_encoding.md R81). -/
def mustBeZeroRange : Instr → Nat × Nat
  | .nop | .srst | .rtload | .atload | .build | .rtread | .atread | .rtlookup | .arplookup | .fwd => (25, 0)
  | .ifload _ | .ifread _ => (25, 12)
  | .mkreply _ => (25, 8)
  | .bufclr _ | .ipcs _ | .icmpcs _ => (24, 0)
  | .rdf _ _ | .wrf _ _ => (24, 5)
  | .csum _ _ _ => (24, 24)

/-- The word has the opcode of the instruction's row, and the bits that the row's format requires to be zero are
(30_encoding.md R84 steps 1 and 2). -/
def InRow (w : Word) (i : Instr) : Prop :=
  opField w = opcodeOf i ∧ zeroBits w (mustBeZeroRange i).1 (mustBeZeroRange i).2 = true

/-- The instruction's row with the operands that the word carries (30_encoding.md R83, R84 step 3). -/
def withOperandsOf (w : Word) : Instr → Instr
  | .ifload _ => .ifload (bField w)
  | .ifread _ => .ifread (bField w)
  | .csum _ _ _ => .csum (bufField w) (aField w) (bField w)
  | .rdf _ _ => .rdf (bufField w) (w.extractLsb' 0 5).toNat
  | .wrf _ _ => .wrf (bufField w) (w.extractLsb' 0 5).toNat
  | .bufclr _ => .bufclr (bufField w)
  | .ipcs _ => .ipcs (bufField w)
  | .icmpcs _ => .icmpcs (bufField w)
  | .mkreply _ => .mkreply (w.extractLsb' 0 8)
  | i => i

@[simp] theorem opcodeOf_withOperandsOf (w : Word) (i : Instr) : opcodeOf (withOperandsOf w i) = opcodeOf i := by
  cases i <;> rfl

@[simp] theorem mustBeZeroRange_withOperandsOf (w : Word) (i : Instr) :
    mustBeZeroRange (withOperandsOf w i) = mustBeZeroRange i := by
  cases i <;> rfl

@[simp] theorem opcodeRow_withOperandsOf (w : Word) (i : Instr) : opcodeRow (withOperandsOf w i) = opcodeRow i := by
  cases i <;> rfl

@[simp] theorem withOperandsOf_withOperandsOf (w : Word) (i : Instr) :
    withOperandsOf w (withOperandsOf w i) = withOperandsOf w i := by
  cases i <;> rfl

@[simp] theorem inRow_withOperandsOf (w : Word) (i : Instr) : InRow w (withOperandsOf w i) ↔ InRow w i := by
  simp [InRow]

/-- The decoder's fields are the places of R80 and R83. -/
theorem withOperandsOf_eq_self_iff (w : Word) (i : Instr) : withOperandsOf w i = i ↔ OperandsAt w i := by
  have hbuf : bufAt w = bufField w := (bufField_eq w).symm
  have hb : w.toNat % 2 ^ 12 = bField w := (lowBits_eq w 12).symm
  have ha : w.toNat / 2 ^ 12 % 2 ^ 12 = aField w := (aField_eq w).symm
  have hlow (n : Nat) : w.toNat % 2 ^ n = (w.extractLsb' 0 n).toNat := (lowBits_eq w n).symm
  cases i with
  | nop | srst | rtload | atload | build | rtread | atread | rtlookup | arplookup | fwd =>
    simp only [withOperandsOf, OperandsAt]
  | ifload id | ifread id => simp only [withOperandsOf, OperandsAt, hb, Instr.ifload.injEq, Instr.ifread.injEq, eq_comm]
  | csum b off len => simp only [withOperandsOf, OperandsAt, hbuf, ha, hb, Instr.csum.injEq, eq_comm]
  | rdf b f | wrf b f =>
    simp only [withOperandsOf, OperandsAt, hbuf, hlow, Instr.rdf.injEq, Instr.wrf.injEq, eq_comm]
  | bufclr b | ipcs b | icmpcs b =>
    simp only [withOperandsOf, OperandsAt, hbuf, Instr.bufclr.injEq, Instr.ipcs.injEq, Instr.icmpcs.injEq, eq_comm]
  | mkreply t => simp only [withOperandsOf, OperandsAt, hlow, Instr.mkreply.injEq, BitVec.toNat_inj, eq_comm]

/-! The decoder. -/

/-- One instruction of every row of the map. -/
def opcodeMap : List Instr :=
  [.nop, .srst, .rtload, .atload, .ifload 0, .build, .rtread, .atread, .ifread 0, .rtlookup, .arplookup, .csum .rx 0 0,
    .rdf .rx 0, .wrf .rx 0, .bufclr .rx, .ipcs .rx, .icmpcs .rx, .mkreply 0, .fwd]

theorem legalWhen_eq_ok_iff (ok : Bool) (w : Word) (i j : Instr) :
    legalWhen ok w i = .ok j ↔ ok = true ∧ i = j := by
  cases ok <;> simp [legalWhen]

/-- A word with an opcode of the map is the row's instruction, if its must-be-zero bits are zero. -/
theorem decode_of_opField_eq {w : Word} {i : Instr} (h : opField w = opcodeOf i) :
    decode w = legalWhen (zeroBits w (mustBeZeroRange i).1 (mustBeZeroRange i).2) w (withOperandsOf w i) := by
  cases i <;> simp only [decode, h, opcodeOf] <;> rfl

/-- A word with no opcode of the map is illegal. -/
theorem decode_of_unassigned {w : Word} (h : opField w ∉ opcodeMap.map opcodeOf) :
    decode w = .error (.unassignedOpcode (opField w)) := by
  unfold decode
  split
  case h_20 => rfl
  all_goals exact absurd (by simp [*, opcodeMap, opcodeOf]) h

/-- What the decoder accepts: a word of the instruction's row that carries the instruction's operands. -/
theorem decode_eq_ok_iff (w : Word) (i : Instr) : decode w = .ok i ↔ InRow w i ∧ OperandsAt w i := by
  rw [← withOperandsOf_eq_self_iff]
  constructor
  · intro h
    by_cases hop : opField w ∈ opcodeMap.map opcodeOf
    · obtain ⟨j, -, hj⟩ := List.mem_map.1 hop
      rw [decode_of_opField_eq hj.symm, legalWhen_eq_ok_iff] at h
      obtain ⟨hzero, rfl⟩ := h
      have hrow : InRow w j := ⟨hj.symm, hzero⟩
      simpa using hrow
    · rw [decode_of_unassigned hop] at h
      exact nomatch h
  · rintro ⟨⟨hop, hzero⟩, hoperands⟩
    rw [decode_of_opField_eq hop, legalWhen_eq_ok_iff]
    exact ⟨hzero, hoperands⟩

/-! The encoder. -/

/-- The numbers that an instruction's word holds in the fields `s`, `A` and `B` (30_encoding.md R80, R81). -/
def operandFields : Instr → Nat × Nat × Nat
  | .nop | .srst | .rtload | .atload | .build | .rtread | .atread | .rtlookup | .arplookup | .fwd => (0, 0, 0)
  | .ifload id | .ifread id => (0, 0, id)
  | .mkreply t => (0, 0, t.toNat)
  | .bufclr b | .ipcs b | .icmpcs b => (b.sBit, 0, 0)
  | .rdf b f | .wrf b f => (b.sBit, 0, f)
  | .csum b off len => (b.sBit, off, len)

theorem encode_eq_pack (i : Instr) :
    encode i = pack (opcodeOf i) (operandFields i).1 (operandFields i).2.1 (operandFields i).2.2 := by
  cases i <;> rfl

theorem opcodeOf_lt (i : Instr) : opcodeOf i < 64 := by
  cases i <;> simp only [opcodeOf] <;> omega

/-- The fields of a well-formed instruction fit their places in the word. -/
theorem operandFields_lt {i : Instr} (h : i.wellFormed = true) :
    (operandFields i).1 < 2 ∧ (operandFields i).2.1 < 4096 ∧ (operandFields i).2.2 < 4096 := by
  cases i with
  | nop | srst | rtload | atload | build | rtread | atread | rtlookup | arplookup | fwd => decide
  | ifload id | ifread id =>
    have hid : id < 4096 := of_decide_eq_true h
    simp only [operandFields]
    omega
  | mkreply t =>
    have ht := t.isLt
    simp only [operandFields]
    omega
  | bufclr b | ipcs b | icmpcs b =>
    have hs := sBit_lt b
    simp only [operandFields]
    omega
  | rdf b f | wrf b f =>
    have hs := sBit_lt b
    have hf : f < 32 := of_decide_eq_true h
    simp only [operandFields]
    omega
  | csum b off len =>
    have hs := sBit_lt b
    obtain ⟨hoff, hlen⟩ : off < 4096 ∧ len < 4096 := by simpa [Instr.wellFormed] using h
    exact ⟨hs, hoff, hlen⟩

theorem eq_bufAt_iff (w : Word) (b : Buf) : b = bufAt w ↔ w.toNat / 2 ^ 25 % 2 = b.sBit := by
  unfold bufAt
  split_ifs with h <;> cases b <;> simp [Buf.sBit] <;> omega

/-- The word holds the numbers `s`, `a` and `b` in its fields, and bit 24 is zero (30_encoding.md R80). -/
def FieldsAre (w : Word) (s a b : Nat) : Prop :=
  w.toNat / 2 ^ 25 % 2 = s ∧ w.toNat / 2 ^ 24 % 2 = 0 ∧ w.toNat / 2 ^ 12 % 2 ^ 12 = a ∧ w.toNat % 2 ^ 12 = b

/-- The word packed from an opcode and fields that fit is the word with this opcode and these fields. -/
theorem pack_eq_iff {op s a b : Nat} (hop : op < 64) (hs : s < 2) (ha : a < 4096) (hb : b < 4096) (w : Word) :
    pack op s a b = w ↔ opField w = op ∧ FieldsAre w s a b := by
  rw [← BitVec.toNat_inj, toNat_pack, opField_eq, FieldsAre]
  have := w.isLt
  omega

/-- A word has the fields of a well-formed instruction when its must-be-zero bits are zero and the others are the operands
(30_encoding.md R81). -/
theorem fieldsAre_operandFields_iff (w : Word) (i : Instr) :
    i.wellFormed = true ∧ FieldsAre w (operandFields i).1 (operandFields i).2.1 (operandFields i).2.2 ↔
      zeroBits w (mustBeZeroRange i).1 (mustBeZeroRange i).2 = true ∧ OperandsAt w i := by
  rw [zeroBits_iff]
  cases i with
  | nop | srst | rtload | atload | build | rtread | atread | rtlookup | arplookup | fwd =>
    simp only [Instr.wellFormed, FieldsAre, operandFields, mustBeZeroRange, OperandsAt, true_and, and_true]
    omega
  | ifload id | ifread id =>
    simp only [Instr.wellFormed, FieldsAre, operandFields, mustBeZeroRange, OperandsAt, decide_eq_true_iff]
    omega
  | mkreply t =>
    simp only [Instr.wellFormed, FieldsAre, operandFields, mustBeZeroRange, OperandsAt, true_and]
    have := t.isLt
    omega
  | bufclr b | ipcs b | icmpcs b =>
    simp only [Instr.wellFormed, FieldsAre, operandFields, mustBeZeroRange, OperandsAt, eq_bufAt_iff, true_and]
    omega
  | rdf b f | wrf b f =>
    simp only [Instr.wellFormed, FieldsAre, operandFields, mustBeZeroRange, OperandsAt, eq_bufAt_iff, decide_eq_true_iff]
    omega
  | csum b off len =>
    simp only [Instr.wellFormed, FieldsAre, operandFields, mustBeZeroRange, OperandsAt, eq_bufAt_iff, decide_eq_true_iff,
      Bool.and_eq_true]
    omega

/-- What the encoder makes of a well-formed instruction: the word of its row that carries its operands. -/
theorem encode_eq_iff (w : Word) (i : Instr) :
    i.wellFormed = true ∧ encode i = w ↔ InRow w i ∧ OperandsAt w i := by
  have hfields (h : i.wellFormed = true) : encode i = w ↔ opField w = opcodeOf i ∧
      FieldsAre w (operandFields i).1 (operandFields i).2.1 (operandFields i).2.2 := by
    obtain ⟨hs, ha, hb⟩ := operandFields_lt h
    rw [encode_eq_pack, pack_eq_iff (opcodeOf_lt i) hs ha hb]
  rw [and_congr_right hfields, and_left_comm, fieldsAre_operandFields_iff, InRow, and_assoc]

/-- The decoder accepts exactly the words of the well-formed instructions. -/
theorem decode_eq_ok_iff_encode_eq (w : Word) (i : Instr) :
    decode w = .ok i ↔ i.wellFormed = true ∧ encode i = w := by
  rw [decode_eq_ok_iff, encode_eq_iff]

/-! Match and mask (30_encoding.md R82). -/

/-- The word whose bits `lo` to `lo + n - 1` are one. -/
def onesAt (lo n : Nat) : Word := (BitVec.allOnes n).setWidth 32 <<< lo

theorem getLsbD_onesAt (lo n k : Nat) : (onesAt lo n).getLsbD k = decide (k < 32 ∧ lo ≤ k ∧ k < lo + n) := by
  simp only [onesAt, BitVec.getLsbD_shiftLeft, BitVec.getLsbD_setWidth, BitVec.getLsbD_allOnes]
  grind

/-- The mask of a row is its opcode bits and its must-be-zero bits, the match its opcode. -/
theorem opcodeRow_eq (i : Instr) :
    opcodeRow i =
      (BitVec.ofNat 32 (opcodeOf i) <<< 26,
        onesAt 26 6 ||| onesAt (mustBeZeroRange i).2 ((mustBeZeroRange i).1 + 1 - (mustBeZeroRange i).2)) := by
  cases i <;> simp only [opcodeRow, opcodeOf, mustBeZeroRange] <;> decide

theorem mustBeZeroRange_lt (i : Instr) : (mustBeZeroRange i).1 < 26 := by
  cases i <;> simp only [mustBeZeroRange] <;> omega

theorem zeroBits_iff_getLsbD (w : Word) (hi lo : Nat) :
    zeroBits w hi lo = true ↔ ∀ k, lo ≤ k → k ≤ hi → w.getLsbD k = false := by
  rw [zeroBits, decide_eq_true_iff, BitVec.eq_of_getLsbD_eq_iff]
  simp only [BitVec.getLsbD_extractLsb', BitVec.ofNat_eq_ofNat, BitVec.getLsbD_zero]
  constructor
  · intro h k hlo hhi
    simpa [show k - lo < hi + 1 - lo by omega, Nat.add_sub_cancel' hlo] using h (k - lo) (by omega)
  · intro h k hk
    rw [h (lo + k) (by omega) (by omega), Bool.and_false]

theorem opField_eq_iff_getLsbD (w : Word) {op : Nat} (hop : op < 64) :
    opField w = op ↔ ∀ k < 6, w.getLsbD (26 + k) = op.testBit k := by
  have hfield : opField w = op ↔ w.extractLsb' 26 6 = BitVec.ofNat 6 op := by
    rw [← BitVec.toNat_inj, BitVec.toNat_ofNat, Nat.mod_eq_of_lt hop, opField]
  rw [hfield, BitVec.eq_of_getLsbD_eq_iff]
  refine forall₂_congr fun k hk => ?_
  rw [BitVec.getLsbD_extractLsb', BitVec.getLsbD_ofNat, decide_eq_true hk, Bool.true_and, Bool.true_and]

/-- The opcode and must-be-zero bits of a word are those of the match, bit by bit. -/
theorem and_mask_eq_iff (w : Word) {op hi lo : Nat} (hop : op < 64) (hhi : hi < 26) :
    w &&& (onesAt 26 6 ||| onesAt lo (hi + 1 - lo)) = BitVec.ofNat 32 op <<< 26 ↔
      opField w = op ∧ zeroBits w hi lo = true := by
  rw [opField_eq_iff_getLsbD w hop, zeroBits_iff_getLsbD]
  have hmask (k : Nat) : (onesAt 26 6 ||| onesAt lo (hi + 1 - lo)).getLsbD k =
      decide (k < 32 ∧ (26 ≤ k ∨ lo ≤ k ∧ k ≤ hi)) := by
    rw [BitVec.getLsbD_or, getLsbD_onesAt, getLsbD_onesAt, ← Bool.decide_or, decide_eq_decide]
    omega
  have hmatch (k : Nat) : (BitVec.ofNat 32 op <<< 26).getLsbD k = (decide (k < 32 ∧ 26 ≤ k) && op.testBit (k - 26)) := by
    simp only [BitVec.getLsbD_shiftLeft, BitVec.getLsbD_ofNat]
    grind
  constructor
  · intro h
    have hbit (k : Nat) := congrArg (·.getLsbD k) h
    simp only [BitVec.getLsbD_and, hmask, hmatch] at hbit
    constructor
    · intro k hk
      simpa [show 26 + k < 32 by omega] using hbit (26 + k)
    · intro k hlo hk
      simpa [show k < 32 by omega, show ¬26 ≤ k by omega, hlo, hk] using hbit k
  · rintro ⟨hopcode, hzero⟩
    apply BitVec.eq_of_getLsbD_eq
    intro k hk
    rw [BitVec.getLsbD_and, hmask, hmatch]
    by_cases hhigh : 26 ≤ k
    · simpa [hk, hhigh, Nat.add_sub_cancel' hhigh] using hopcode (k - 26) (by omega)
    · by_cases hlow : lo ≤ k ∧ k ≤ hi
      · simp [hhigh, hzero k hlow.1 hlow.2]
      · simp [hhigh, hlow]

/-- The words of a row are those that satisfy its match and mask. -/
theorem inRow_iff_match (w : Word) (i : Instr) : InRow w i ↔ w &&& (opcodeRow i).2 = (opcodeRow i).1 := by
  rw [opcodeRow_eq, and_mask_eq_iff w (opcodeOf_lt i) (mustBeZeroRange_lt i), InRow]

end Sys2Proof

namespace Sys2Proof.Claims

open Sys2Proof.Machine

/-- Settles O1: the word of a well-formed instruction is one that the decoder accepts. -/
theorem decodeOfEncode : Obligations.DecodeOfEncode :=
  fun i hwf => (decode_eq_ok_iff_encode_eq (encode i) i).2 ⟨hwf, rfl⟩

/-- Settles O2: the decoder accepts nothing but the words of well-formed instructions. -/
theorem encodeOfDecode : Obligations.EncodeOfDecode := by
  intro w i hdecode
  obtain ⟨hwf, hword⟩ := (decode_eq_ok_iff_encode_eq w i).1 hdecode
  exact ⟨hword, hwf⟩

/-- Settles O3: a row's match and mask say which words are in it, and `withOperandsOf` fills in a word's operands. -/
theorem decoderFollowsTheOpcodeMap : Obligations.DecoderFollowsTheOpcodeMap := by
  refine ⟨fun w i hdecode => ?_, fun w i hmatch => ?_, fun w hop => decode_of_unassigned hop⟩
  · obtain ⟨hrow, hoperands⟩ := (decode_eq_ok_iff w i).1 hdecode
    exact ⟨(inRow_iff_match w i).1 hrow, hoperands⟩
  · refine ⟨withOperandsOf w i, (decode_eq_ok_iff _ _).2 ⟨?_, ?_⟩, opcodeRow_withOperandsOf w i⟩
    · rw [inRow_withOperandsOf, inRow_iff_match, hmatch]
    · rw [← withOperandsOf_eq_self_iff, withOperandsOf_withOperandsOf]

/-- Settles O4: each word is the encoding of its command. -/
theorem sampleWordsDecode : Obligations.SampleWordsDecode :=
  ⟨decodeOfEncode (.ifload 2) rfl, decodeOfEncode (.csum .rx 14 20) rfl, decodeOfEncode (.csum .tx 34 8) rfl,
    decodeOfEncode (.rdf .rx 9) rfl, decodeOfEncode (.wrf .tx 13) rfl, decodeOfEncode (.icmpcs .tx) rfl,
    decodeOfEncode (.mkreply 11) rfl, decodeOfEncode .fwd rfl⟩

/-- Settles O5: a word that does not decode is issued as a refusal and acknowledged. -/
theorem illegalWordsAreRefused : Obligations.IllegalWordsAreRefused := by
  refine ⟨fun s w e rest hscript hdecode => ?_, fun w => ?_, decodeOfEncode .nop rfl, ?_⟩
  · rw [step_cons s _ rest hscript, perform, hostWrite_cmd, issue_error hdecode]
    rfl
  · cases h : decode w with
    | ok i => exact .inl ⟨i, rfl⟩
    | error e => exact .inr ⟨e, rfl⟩
  · exact ⟨_, decode_of_unassigned (by decide)⟩

end Sys2Proof.Claims

/-! PROOFS of the checksum statements: `Fold16` is arithmetic modulo 65535, where 256 is its own inverse, so that the lanes of
the accumulator and the byte places of the logical sum weigh the same up to the swap at an odd start (40_checksum.md R106 to
R112). -/

namespace Sys2Proof.Machine

open Sys2Proof.Claims

/-! `Fold16` (40_checksum.md R108). -/

/-- The fold is the number up to 65535 that is congruent and is zero exactly when the argument is. -/
theorem fold16_eq_iff (x y : Nat) : fold16 x = y ↔ y ≤ 65535 ∧ (y = 0 ↔ x = 0) ∧ y ≡ x [MOD 65535] := by
  unfold fold16 Nat.ModEq
  split_ifs <;> omega

theorem fold16_spec (x : Nat) : fold16 x ≤ 65535 ∧ (fold16 x = 0 ↔ x = 0) ∧ fold16 x ≡ x [MOD 65535] :=
  (fold16_eq_iff x _).1 rfl

theorem fold16_congr {x y : Nat} (hzero : x = 0 ↔ y = 0) (hmod : x ≡ y [MOD 65535]) : fold16 x = fold16 y := by
  obtain ⟨hle, hyzero, hymod⟩ := fold16_spec y
  exact (fold16_eq_iff x _).2 ⟨hle, hyzero.trans hzero.symm, hymod.trans hmod.symm⟩

theorem fold16_of_le {x : Nat} (h : x ≤ 65535) : fold16 x = x := (fold16_eq_iff x x).2 ⟨h, Iff.rfl, rfl⟩

/-- Replacing `h * 2^(16j) + l` by `h + l` keeps the fold. -/
theorem fold16_carry (h l j : Nat) : fold16 (h * 2 ^ (16 * j) + l) = fold16 (h + l) := by
  apply fold16_congr
  · simp
  · have hpow : 2 ^ (16 * j) ≡ 1 [MOD 65535] := by
      rw [pow_mul, ← one_pow j]
      exact Nat.ModEq.pow j rfl
    simpa using (hpow.mul_left h).add_right l

theorem fold16_carryFold (x : Nat) : fold16 (carryFold x) = fold16 x := by
  have hsplit : x / 2 ^ 16 * 2 ^ (16 * 1) + x % 2 ^ 16 = x := Nat.div_add_mod' x (2 ^ 16)
  rw [← hsplit, fold16_carry, hsplit, carryFold, Nat.add_comm]

/-- A 64-bit number is one word after its 32-bit halves are added and three carries are folded in. -/
theorem fold16_eq_carryFold {x : Nat} (h : x < 2 ^ 64) :
    fold16 x = carryFold (carryFold (carryFold (x % 2 ^ 32 + x / 2 ^ 32))) := by
  have hhalves : fold16 x = fold16 (x % 2 ^ 32 + x / 2 ^ 32) := by
    rw [Nat.add_comm, ← fold16_carry _ _ 2, Nat.div_add_mod' x (2 ^ 32)]
  have hword : carryFold (carryFold (carryFold (x % 2 ^ 32 + x / 2 ^ 32))) ≤ 65535 := by
    unfold carryFold
    omega
  rw [← fold16_of_le hword, fold16_carryFold, fold16_carryFold, fold16_carryFold, hhalves]

theorem bswap16_toNat (v : Half) : (bswap16 v).toNat = v.toNat % 256 * 256 + v.toNat / 256 := by
  have hv := v.isLt
  have hlow : v.toNat / 256 % 256 < 2 ^ 8 := by omega
  simp only [bswap16, BitVec.toNat_append, BitVec.extractLsb'_toNat, Nat.shiftRight_eq_div_pow, pow_zero, Nat.div_one,
    Nat.reducePow]
  rw [← Nat.shiftLeft_add_eq_or_of_lt hlow, Nat.shiftLeft_eq]
  omega

theorem bswap16_bswap16 (v : Half) : bswap16 (bswap16 v) = v := by
  have hv := v.isLt
  rw [← BitVec.toNat_inj, bswap16_toNat, bswap16_toNat]
  omega

/-- The swap of a fold is the fold after one more place of 256. -/
theorem bswap16_fold16 (x : Nat) : bswap16 (BitVec.ofNat 16 (fold16 x)) = BitVec.ofNat 16 (fold16 (256 * x)) := by
  obtain ⟨hle, hzero, hmod⟩ := fold16_spec x
  have hswap : fold16 (256 * x) = fold16 x % 256 * 256 + fold16 x / 256 := by
    unfold Nat.ModEq at hmod
    rw [fold16_eq_iff]
    unfold Nat.ModEq
    omega
  have hfold : fold16 x % 2 ^ 16 = fold16 x := Nat.mod_eq_of_lt (by omega)
  rw [← BitVec.toNat_inj, hswap, bswap16_toNat, BitVec.toNat_ofNat, BitVec.toNat_ofNat, hfold]
  exact (Nat.mod_eq_of_lt (by omega)).symm

/-! The complement of a fold (40_checksum.md R106, R109). -/

theorem not_ofNat_fold16 (x : Nat) : ~~~(BitVec.ofNat 16 (fold16 x)) = complementOfFold x := by
  obtain ⟨hle, -⟩ := fold16_spec x
  rw [← BitVec.toNat_inj, complementOfFold, BitVec.toNat_not, BitVec.toNat_ofNat, BitVec.toNat_ofNat]
  omega

theorem complementOfFold_toNat (x : Nat) : (complementOfFold x).toNat = 65535 - fold16 x := by
  rw [complementOfFold, BitVec.toNat_ofNat]
  omega

theorem complementOfFold_eq_zero_iff (x : Nat) : complementOfFold x = 0 ↔ 0 < x ∧ x % 65535 = 0 := by
  obtain ⟨hle, hzero, hmod⟩ := fold16_spec x
  unfold Nat.ModEq at hmod
  rw [← BitVec.toNat_inj, complementOfFold_toNat, show (0 : Half).toNat = 0 from rfl]
  omega

theorem complementOfFold_eq_ones_iff (x : Nat) : complementOfFold x = 0xFFFF ↔ x = 0 := by
  obtain ⟨hle, hzero, -⟩ := fold16_spec x
  rw [← BitVec.toNat_inj, complementOfFold_toNat, show (0xFFFF : Half).toNat = 65535 from rfl]
  omega

/-- A sum and the complement of its fold together fold to all ones (40_checksum.md R112). -/
theorem complementOfFold_add_complementOfFold (x : Nat) : complementOfFold (x + (complementOfFold x).toNat) = 0 := by
  obtain ⟨hle, hzero, hmod⟩ := fold16_spec x
  unfold Nat.ModEq at hmod
  rw [complementOfFold_eq_zero_iff, complementOfFold_toNat]
  omega

/-! Sums of bytes at powers of 256. -/

/-- The `n` bytes from index `a`, byte `j` of them at weight `256 ^ e j`. -/
def byteTotal (rd : Nat → Byte) (a : Nat) (e : Nat → Nat) (n : Nat) : Nat :=
  ((List.range n).map fun j => (rd (a + j)).toNat * 256 ^ e j).sum

theorem laneTotal_eq_byteTotal (rd : Nat → Byte) (a n : Nat) :
    laneTotal rd a n = byteTotal rd a (fun j => 3 - (a + j) % 4) n := rfl

@[simp] theorem byteTotal_zero (rd : Nat → Byte) (a : Nat) (e : Nat → Nat) : byteTotal rd a e 0 = 0 := rfl

theorem byteTotal_succ (rd : Nat → Byte) (a : Nat) (e : Nat → Nat) (n : Nat) :
    byteTotal rd a e (n + 1) = byteTotal rd a e n + (rd (a + n)).toNat * 256 ^ e n := by
  simp [byteTotal, List.range_succ]

theorem byteTotal_add (rd : Nat → Byte) (a : Nat) (e : Nat → Nat) (m n : Nat) :
    byteTotal rd a e (m + n) = byteTotal rd a e m + byteTotal rd (a + m) (fun j => e (m + j)) n := by
  induction n with
  | zero => simp
  | succ n ih => rw [← Nat.add_assoc, byteTotal_succ, byteTotal_succ, ih, Nat.add_assoc a m n, Nat.add_assoc]

theorem byteTotal_congr {rd rd' : Nat → Byte} {a : Nat} (e : Nat → Nat) {n : Nat}
    (h : ∀ j < n, rd (a + j) = rd' (a + j)) : byteTotal rd a e n = byteTotal rd' a e n := by
  unfold byteTotal
  congr 1
  exact List.map_congr_left fun j hj => by rw [h j (List.mem_range.1 hj)]

/-- The total is zero when every byte is, whatever the weights. -/
theorem byteTotal_eq_zero_iff (rd : Nat → Byte) (a : Nat) (e : Nat → Nat) (n : Nat) :
    byteTotal rd a e n = 0 ↔ ∀ j < n, rd (a + j) = 0 := by
  simp [byteTotal, List.sum_eq_zero_iff, BitVec.toNat_eq]

/-- 256 is its own inverse modulo 65535: only the parity of an exponent counts. -/
theorem pow256_modEq {a b : Nat} (h : a % 2 = b % 2) : 256 ^ a ≡ 256 ^ b [MOD 65535] := by
  have hparity (n : Nat) : 256 ^ n ≡ 256 ^ (n % 2) [MOD 65535] := by
    have hsquares : (256 ^ 2) ^ (n / 2) ≡ 1 ^ (n / 2) [MOD 65535] := Nat.ModEq.pow _ rfl
    calc 256 ^ n = (256 ^ 2) ^ (n / 2) * 256 ^ (n % 2) := by rw [← pow_mul, ← pow_add, Nat.div_add_mod]
      _ ≡ 1 ^ (n / 2) * 256 ^ (n % 2) [MOD 65535] := hsquares.mul_right _
      _ = 256 ^ (n % 2) := by rw [one_pow, one_mul]
  calc 256 ^ a ≡ 256 ^ (a % 2) [MOD 65535] := hparity a
    _ = 256 ^ (b % 2) := by rw [h]
    _ ≡ 256 ^ b [MOD 65535] := (hparity b).symm

/-- Raising every weight by `p` places multiplies the total by `256 ^ p`, up to the parity of the places. -/
theorem byteTotal_modEq (rd : Nat → Byte) (a p : Nat) {e e' : Nat → Nat} (h : ∀ j, (p + e j) % 2 = e' j % 2) (n : Nat) :
    256 ^ p * byteTotal rd a e n ≡ byteTotal rd a e' n [MOD 65535] := by
  induction n with
  | zero => rfl
  | succ n ih =>
    have hbyte := (pow256_modEq (h n)).mul_left (rd (a + n)).toNat
    rw [byteTotal_succ, byteTotal_succ, mul_add, mul_left_comm, ← pow_add]
    exact ih.add hbyte

/-! The logical sum (40_checksum.md R107). -/

/-- The bytes of the 16-bit words counted from `a`: the first and every second one is a more significant byte. -/
def logicalTotal (rd : Nat → Byte) (a n : Nat) : Nat := byteTotal rd a (fun j => 1 - j % 2) n

/-- An even number of bytes is whole words, so the places after them are counted anew. -/
theorem logicalTotal_add (rd : Nat → Byte) (a m n : Nat) :
    logicalTotal rd a (2 * m + n) = logicalTotal rd a (2 * m) + logicalTotal rd (a + 2 * m) n := by
  have hplaces : (fun j => 1 - (2 * m + j) % 2) = fun j => 1 - j % 2 := by
    funext j
    omega
  rw [logicalTotal, byteTotal_add, hplaces, logicalTotal, logicalTotal]

/-- Whole words inside a range of `n` bytes, one summand each; none of them misses its last byte. -/
theorem sum_words_eq_logicalTotal (rd : Nat → Byte) (a : Nat) {m n : Nat} (h : 2 * m ≤ n) :
    ((List.range m).map fun k => (rd (a + 2 * k)).toNat * 256 +
      (if 2 * k + 1 < n then (rd (a + (2 * k + 1))).toNat else 0)).sum = logicalTotal rd a (2 * m) := by
  induction m with
  | zero => rfl
  | succ m ih =>
    have hwhole : 2 * m + 1 < n := by omega
    rw [List.range_succ, List.map_append, List.sum_append, ih (by omega), Nat.mul_succ, logicalTotal_add]
    simp [logicalTotal, byteTotal_succ, hwhole, Nat.add_assoc]

theorem logicalSum_eq_logicalTotal (s : State) (b : Buf) (off len : Nat) :
    logicalSum s b off len = s.params.csumSeed.toNat + logicalTotal (s.byte b) off len := by
  rw [logicalSum]
  congr 1
  obtain ⟨m, rfl | rfl⟩ := len.even_or_odd'
  · rw [show (2 * m + 1) / 2 = m by omega, sum_words_eq_logicalTotal _ _ le_rfl]
  · rw [show (2 * m + 1 + 1) / 2 = m + 1 by omega, List.range_succ, List.map_append, List.sum_append,
      sum_words_eq_logicalTotal _ _ (by omega), logicalTotal_add]
    simp [logicalTotal, byteTotal_succ]

theorem seed_add_byteTotal_eq_zero_iff (s : State) (b : Buf) (off : Nat) (e : Nat → Nat) (len : Nat) :
    s.params.csumSeed.toNat + byteTotal (s.byte b) off e len = 0 ↔
      s.params.csumSeed = 0 ∧ ∀ j < len, s.byte b (off + j) = 0 := by
  rw [Nat.add_eq_zero_iff, byteTotal_eq_zero_iff, BitVec.toNat_eq]
  rfl

theorem logicalSum_eq_zero_iff (s : State) (b : Buf) (off len : Nat) :
    logicalSum s b off len = 0 ↔ s.params.csumSeed = 0 ∧ ∀ j < len, s.byte b (off + j) = 0 := by
  rw [logicalSum_eq_logicalTotal]
  exact seed_add_byteTotal_eq_zero_iff s b off _ len

theorem laneSum_eq_zero_iff_logicalSum_eq_zero (s : State) (b : Buf) (off len : Nat) :
    laneSum s b off len = 0 ↔ logicalSum s b off len = 0 :=
  (seed_add_byteTotal_eq_zero_iff s b off _ len).trans (logicalSum_eq_zero_iff s b off len).symm

theorem seedLegal_congr {s t : State} (h : SeedLegal s) (hparams : t.params = s.params) : SeedLegal t := by
  rw [SeedLegal, hparams]
  exact h

/-- Up to one place at an odd start, the accumulator is the logical sum: a legal seed is 0 modulo 65535, and a byte's lane and
its place in a logical word differ by the start's parity. -/
theorem laneSum_modEq_logicalSum {s : State} (hseed : SeedLegal s) (b : Buf) (off len : Nat) :
    256 ^ (off % 2) * laneSum s b off len ≡ logicalSum s b off len [MOD 65535] := by
  have hseedMod : s.params.csumSeed.toNat ≡ 0 [MOD 65535] := by
    rcases hseed with h | h <;> rw [h] <;> rfl
  rw [laneSum_eq_laneTotal, logicalSum_eq_logicalTotal, mul_add]
  refine Nat.ModEq.add ((hseedMod.mul_left _).trans hseedMod.symm) ?_
  exact byteTotal_modEq (s.byte b) off (off % 2) (fun j => by omega) len

theorem fold16_laneSum {s : State} (hseed : SeedLegal s) (b : Buf) (off len : Nat) :
    fold16 (256 ^ (off % 2) * laneSum s b off len) = fold16 (logicalSum s b off len) := by
  refine fold16_congr ?_ (laneSum_modEq_logicalSum hseed b off len)
  rw [Nat.mul_eq_zero, laneSum_eq_zero_iff_logicalSum_eq_zero, or_iff_right (by positivity)]

/-! The result of the checksum. -/

theorem accumulate_eq_laneSum (s : State) (b : Buf) (off len : Nat) :
    accumulate (s.byte b) s.params.csumSeed.toNat off len = laneSum s b off len := by
  rw [accumulate_eq_laneTotal, laneSum_eq_laneTotal]

/-- The swap at an odd start (40_checksum.md R106). -/
def swapAtOdd (off : Nat) (v : Half) : Half := if off % 2 = 1 then bswap16 v else v

theorem swapAtOdd_swapAtOdd (off : Nat) (v : Half) : swapAtOdd off (swapAtOdd off v) = v := by
  unfold swapAtOdd
  split_ifs
  · exact bswap16_bswap16 v
  · rfl

/-- The fold of the accumulator, swapped at an odd start, is the fold of the logical sum. -/
theorem swapAtOdd_fold_laneSum {s : State} (hseed : SeedLegal s) (b : Buf) (off len : Nat) :
    swapAtOdd off (BitVec.ofNat 16 (fold16 (laneSum s b off len))) =
      BitVec.ofNat 16 (fold16 (logicalSum s b off len)) := by
  rw [← fold16_laneSum hseed, swapAtOdd]
  split_ifs with hodd
  · rw [hodd, bswap16_fold16, pow_one]
  · rw [Nat.mod_two_ne_one.1 hodd, pow_zero, one_mul]

theorem checksumOf_eq_not_swapAtOdd (s : State) (b : Buf) (off len : Nat) :
    checksumOf s b off len = ~~~swapAtOdd off (BitVec.ofNat 16 (fold16 (laneSum s b off len))) := by
  simp [checksumOf, finish, oddFlag, swapAtOdd, accumulate_eq_laneSum]

/-- The closed form (40_checksum.md R107). -/
theorem checksumOf_eq_complementOfFold {s : State} (hseed : SeedLegal s) (b : Buf) (off len : Nat) :
    checksumOf s b off len = complementOfFold (logicalSum s b off len) := by
  rw [checksumOf_eq_not_swapAtOdd, swapAtOdd_fold_laneSum hseed, not_ofNat_fold16]

/-- The checksum reads the bytes of its range and the seed. -/
theorem checksumOf_congr {s t : State} {b : Buf} {off len : Nat} (hparams : t.params = s.params)
    (hbytes : ∀ j < len, t.byte b (off + j) = s.byte b (off + j)) : checksumOf t b off len = checksumOf s b off len := by
  have hsum : laneSum t b off len = laneSum s b off len := by
    rw [laneSum_eq_laneTotal, laneSum_eq_laneTotal, hparams]
    congr 1
    exact byteTotal_congr _ hbytes
  rw [checksumOf_eq_not_swapAtOdd, checksumOf_eq_not_swapAtOdd, hsum]

theorem exec_csum_of_le {s : State} {off len : Nat} (b : Buf) (h : off + len ≤ s.params.fbSize) :
    exec (.csum b off len) s = .next (runChecksum b off len s) :=
  if_neg (by omega)

/-! The stored checksum validates (40_checksum.md R112). -/

/-- A logical sum around a 16-bit field that stands at an even distance from the start. -/
theorem logicalSum_around_field (s : State) (b : Buf) (off m n : Nat) :
    logicalSum s b off (2 * m + (2 + n)) = s.params.csumSeed.toNat + logicalTotal (s.byte b) off (2 * m) +
      (s.memRead b (off + 2 * m) 2).toNat + logicalTotal (s.byte b) (off + 2 * m + 2) n := by
  have hfield : (s.memRead b (off + 2 * m) 2).toNat = logicalTotal (s.byte b) (off + 2 * m) (2 * 1) := by
    rw [State.memRead_toNat _ _ _ _ (by omega)]
    simp [bigEndian_bytes_succ, logicalTotal, byteTotal_succ]
  rw [logicalSum_eq_logicalTotal, logicalTotal_add, logicalTotal_add _ _ 1, hfield]
  simp only [Nat.add_assoc, Nat.mul_one]

/-- Writing the field replaces its number in the logical sum. -/
theorem logicalSum_memWrite (s : State) (b : Buf) {off len k : Nat} (v : Word) (hstart : off ≤ k)
    (hend : k + 2 ≤ off + len) (heven : (k - off) % 2 = 0) :
    logicalSum (s.memWrite b k 2 v) b off len + (s.memRead b k 2).toNat =
      logicalSum s b off len + v.toNat % 2 ^ 16 := by
  obtain ⟨m, rfl⟩ : ∃ m, k = off + 2 * m := ⟨(k - off) / 2, by omega⟩
  obtain ⟨n, rfl⟩ : ∃ n, len = 2 * m + (2 + n) := ⟨len - 2 * m - 2, by omega⟩
  have hkept (i : Nat) (hi : i < off + 2 * m ∨ off + 2 * m + 2 ≤ i) :
      (s.memWrite b (off + 2 * m) 2 v).byte b i = s.byte b i := by
    rw [State.byte_memWrite, if_neg (by omega)]
  have hbefore : logicalTotal ((s.memWrite b (off + 2 * m) 2 v).byte b) off (2 * m) =
      logicalTotal (s.byte b) off (2 * m) := byteTotal_congr _ fun j hj => hkept _ (by omega)
  have hafter : logicalTotal ((s.memWrite b (off + 2 * m) 2 v).byte b) (off + 2 * m + 2) n =
      logicalTotal (s.byte b) (off + 2 * m + 2) n := byteTotal_congr _ fun j _ => hkept _ (by omega)
  rw [logicalSum_around_field, logicalSum_around_field, hbefore, hafter, State.memWrite_params,
    State.memRead_memWrite _ _ _ _ _ (by omega)]
  omega

theorem checksumOf_stored {s : State} (hseed : SeedLegal s) (b : Buf) {off len k : Nat} (hstart : off ≤ k)
    (hend : k + 2 ≤ off + len) (heven : (k - off) % 2 = 0) :
    checksumOf
      ((s.memWrite b k 2 0).memWrite b k 2 ((checksumOf (s.memWrite b k 2 0) b off len).setWidth 32)) b off len = 0 := by
  set u := s.memWrite b k 2 0 with hu
  have hseedU : SeedLegal u := seedLegal_congr hseed (State.memWrite_params s b k 2 0)
  set c := checksumOf u b off len with hc
  have hseedT : SeedLegal (u.memWrite b k 2 (c.setWidth 32)) := seedLegal_congr hseedU (State.memWrite_params u b k 2 _)
  have hzeroed : (u.memRead b k 2).toNat = 0 := by rw [hu, State.memRead_memWrite _ _ _ _ _ (by omega)]; rfl
  have hvalue : (c.setWidth 32).toNat % 2 ^ 16 = c.toNat := by
    have := c.isLt
    rw [BitVec.toNat_setWidth]
    omega
  have hstored := logicalSum_memWrite u b (c.setWidth 32) hstart hend heven
  rw [hzeroed, hvalue, Nat.add_zero] at hstored
  rw [checksumOf_eq_complementOfFold hseedT, hstored, hc, checksumOf_eq_complementOfFold hseedU]
  exact complementOfFold_add_complementOfFold _

/-- After `refreshChecksum` the range validates. -/
theorem checksumOf_refreshChecksum {s : State} (hseed : SeedLegal s) (b : Buf) {off len k : Nat} (hstart : off ≤ k)
    (hend : k + 2 ≤ off + len) (heven : (k - off) % 2 = 0) :
    checksumOf (refreshChecksum b k off len s) b off len = 0 := by
  rw [← checksumOf_stored hseed b hstart hend heven]
  refine checksumOf_congr (by simp) fun j _ => ?_
  simp only [refreshChecksum, State.byte_memWrite, runChecksum_byte, runChecksum_csRes]

/-! The headers that the block writes (42_codec.md R167; 43_forward.md R188, R191). -/

theorem refreshIpChecksum_validates {s : State} (hseed : SeedLegal s) (b : Buf) : ValidHeader (refreshIpChecksum b s) b :=
  checksumOf_refreshChecksum hseed b (off := 14) (len := 20) (by omega) (by omega) (by omega)

theorem refreshIcmpChecksum_validates {s : State} (hseed : SeedLegal s) (b : Buf) :
    checksumOf (refreshIcmpChecksum b s) b 34 8 = 0 :=
  checksumOf_refreshChecksum hseed b (off := 34) (len := 8) (by omega) (by omega) (by omega)

@[simp] theorem replyIcmp_params (ty : Byte) (s : State) : (replyIcmp ty s).params = s.params := by simp [replyIcmp]

/-- The ICMP header and its checksum are written outside the IPv4 header. -/
theorem icmpHeader_byte_of_lt (ty : Byte) (s : State) {k : Nat} (hk : k < 34) :
    (refreshIcmpChecksum .tx (replyIcmp ty s)).byte .tx k = s.byte .tx k := by
  rw [refreshIcmpChecksum, refreshChecksum_byte, if_neg (by omega), if_neg (by omega), replyIcmp, State.byte_writeBytes,
    if_neg (by omega), State.byte_writeByte, if_neg (by omega), State.byte_writeByte, if_neg (by omega)]

/-- The reply's headers up to the IPv4 checksum, as `makeReply` fills them in (42_codec.md R167). -/
def replyHeaders (s : State) : State := refreshIpChecksum .tx (replyIpv4 (replyEthernet (s.clearBuf .tx)))

theorem byte_setTxDescriptor (s : State) (len i : Half) (b : Buf) (k : Nat) :
    ({ s with txLen := len, txIf := i } : State).byte b k = s.byte b k := by
  cases b <;> rfl

theorem makeReply_byte (ty : Byte) (s : State) (k : Nat) :
    (makeReply ty s).byte .tx k = (refreshIcmpChecksum .tx (replyIcmp ty (replyHeaders s))).byte .tx k :=
  byte_setTxDescriptor _ _ _ .tx k

theorem replyFilled_params (s : State) : (replyIpv4 (replyEthernet (s.clearBuf .tx))).params = s.params := by
  obtain ⟨m, h⟩ := replyHeaders_tx s
  rw [h]

theorem replyHeaders_params (s : State) : (replyHeaders s).params = s.params := by
  rw [replyHeaders, refreshIpChecksum, refreshChecksum_params, replyFilled_params]

theorem makeReply_ipHeader_validates {s : State} (hseed : SeedLegal s) (ty : Byte) : ValidHeader (makeReply ty s) .tx := by
  have hvalid : ValidHeader (replyHeaders s) .tx :=
    refreshIpChecksum_validates (seedLegal_congr hseed (replyFilled_params s)) .tx
  rw [ValidHeader, ← hvalid]
  refine checksumOf_congr (by rw [makeReply_params, replyHeaders_params]) fun j _ => ?_
  rw [makeReply_byte, icmpHeader_byte_of_lt ty _ (by omega)]

theorem makeReply_icmpHeader_validates {s : State} (hseed : SeedLegal s) (ty : Byte) :
    checksumOf (makeReply ty s) .tx 34 8 = 0 := by
  have hparams : (replyIcmp ty (replyHeaders s)).params = s.params :=
    (replyIcmp_params ty _).trans (replyHeaders_params s)
  rw [← refreshIcmpChecksum_validates (seedLegal_congr hseed hparams) .tx]
  refine checksumOf_congr ?_ fun j _ => makeReply_byte ty s _
  rw [makeReply_params, refreshIcmpChecksum, refreshChecksum_params, hparams]

theorem fwdMutate_validates {s : State} (hseed : SeedLegal s) : ValidHeader (fwdMutate s) .rx :=
  refreshIpChecksum_validates (seedLegal_congr hseed (State.writeByte_params s .rx 22 _)) .rx

/-- After the mutation, the forward path writes the destination MAC and no other byte. -/
theorem fwdEgress_byte_of_le (r : Nat) (s : State) {k : Nat} (hk : 6 ≤ k) :
    (fwdEgress r s).byte .rx k = (fwdMutate s).byte .rx k := by
  simp only [fwdEgress]
  generalize fwdMutate s = s1
  have hresolved (a : Option Nat) : (writeArpResult a s1).byte .rx k = s1.byte .rx k := writeArpResult_byte a s1 .rx k
  cases arpLookup s1 (fwdDest s) with
  | none => exact hresolved none
  | some j =>
    rw [← hresolved (some j)]
    generalize writeArpResult (some j) s1 = s2
    have hmac : (s2.writeBytes .rx 0 (s2.arp j).mac.bytes).byte .rx k = s2.byte .rx k := by
      rw [State.byte_writeBytes, if_neg (by simp [Mac.bytes]; omega)]
    exact hmac

theorem fwdEgress_validates {s : State} (hseed : SeedLegal s) (r : Nat) : ValidHeader (fwdEgress r s) .rx := by
  rw [ValidHeader, ← fwdMutate_validates hseed]
  refine checksumOf_congr (by rw [fwdEgress_params, fwdMutate_params]) fun j _ => ?_
  exact fwdEgress_byte_of_le r s (by omega)

/-- The dispositions of the forward path: forwarded, or dropped for want of an ARP entry (43_forward.md R188). -/
def IsForwardDisp (d : BitVec 4) : Prop := d = 1 ∨ d = 7

theorem fwdReply_disp (ty : Byte) (d : Disposition) (s : State) : (fwdReply ty d s).disp = dispCode d := rfl

/-- A reply reports its own disposition. -/
theorem not_isForwardDisp_fwdReply (ty : Byte) (s : State) {d : Disposition} (hd : ¬IsForwardDisp (dispCode d)) :
    ¬IsForwardDisp (fwdReply ty d s).disp := by
  rw [fwdReply_disp]
  exact hd

/-- Behind a route, dispositions 1 and 7 come from the forward path. -/
theorem fwdRoute_validates {s : State} (hseed : SeedLegal s) (hdisp : IsForwardDisp (fwdRoute s).disp) :
    ValidHeader (fwdRoute s) .rx := by
  have hunreach : ¬IsForwardDisp (dispCode .destUnreachSent) := by unfold IsForwardDisp; decide
  have hecho : ¬IsForwardDisp (dispCode .echoReplied) := by unfold IsForwardDisp; decide
  simp only [fwdRoute] at hdisp ⊢
  generalize lookup s (fwdDest s) = route at hdisp ⊢
  cases route with
  | none => exact absurd hdisp (not_isForwardDisp_fwdReply _ _ hunreach)
  | some r =>
    have hseedRouted := seedLegal_congr hseed (writeLpmResult_params (some r) s)
    generalize writeLpmResult (some r) s = s1 at hdisp hseedRouted ⊢
    by_cases hlocal : localFlag s1 (fwdDest s) = true
    · simp only [if_pos hlocal] at hdisp
      exact absurd hdisp (not_isForwardDisp_fwdReply _ _ hecho)
    · simp only [if_neg hlocal]
      exact fwdEgress_validates hseedRouted r

/-- Dispositions 1 and 7 come from the forward path, behind a valid header and a TTL of at least 2. -/
theorem forward_validates {s : State} (hseed : SeedLegal s) (hdisp : IsForwardDisp (forward s).disp) :
    ValidHeader (forward s) .rx := by
  have hdropped : ¬IsForwardDisp (dispCode .droppedChecksum) := by unfold IsForwardDisp; decide
  have hexpired : ¬IsForwardDisp (dispCode .timeExceededSent) := by unfold IsForwardDisp; decide
  have hseedStart := seedLegal_congr (seedLegal_congr hseed (fwdStart_params s))
    (runChecksum_params .rx Config.ethHlen Config.ipHlen (fwdStart s))
  simp only [forward] at hdisp ⊢
  generalize runChecksum .rx Config.ethHlen Config.ipHlen (fwdStart s) = s1 at hseedStart hdisp ⊢
  by_cases hbad : s1.csRes ≠ 0
  · rw [if_pos hbad] at hdisp
    exact absurd hdisp hdropped
  · rw [if_neg hbad] at hdisp ⊢
    by_cases httl : s1.byte .rx 22 ≤ 1
    · rw [if_pos httl] at hdisp
      exact absurd hdisp (not_isForwardDisp_fwdReply _ _ hexpired)
    · rw [if_neg httl] at hdisp ⊢
      exact fwdRoute_validates hseedStart hdisp

end Sys2Proof.Machine

namespace Sys2Proof.Claims

open Sys2Proof.Machine

/-- Settles O40: the head, body and tail of the accumulator are the lane sum, and the other registers follow from it. -/
theorem csumLatchesTheLaneSum : Obligations.CsumLatchesTheLaneSum := by
  refine ⟨fun w hop hbit => ?_, fun s b off len => ⟨fun hrange => ?_, fun hrange => ?_⟩⟩
  · have hzero : zeroBits w 24 24 = false := by
      rw [Bool.eq_false_iff, Ne, zeroBits_iff_getLsbD]
      exact fun h => absurd ((h 24 le_rfl le_rfl).symm.trans hbit) (by decide)
    exact ⟨_, (decode_of_opField_eq (i := .csum .rx 0 0) hop).trans (by rw [mustBeZeroRange, hzero]; rfl)⟩
  · exact (if_pos hrange).trans (next_refuse_eq_refusedAs _ .range s)
  · refine ⟨_, exec_csum_of_le b hrange, ?_, ?_, rfl, ?_, rfl, fun b' k => runChecksum_byte b off len s b' k, rfl⟩
    · rw [runChecksum_csAcc, accumulate_eq_laneSum]
    · rw [runChecksum_csFold, accumulate_eq_laneSum]
    · rw [runChecksum_csRes, runChecksum_csFold, accumulate_eq_laneSum]
      exact checksumOf_eq_not_swapAtOdd s b off len

/-- Settles O41: modulo 65535 the swap at an odd start is one place of 256, which turns lanes into byte places. -/
theorem checksumClosedForm : Obligations.ChecksumClosedForm := by
  intro s b off len hseed hrange
  refine ⟨_, exec_csum_of_le b hrange, checksumOf_eq_complementOfFold hseed b off len, ?_⟩
  rw [runChecksum_csFold, accumulate_eq_laneSum, ← swapAtOdd_swapAtOdd off (BitVec.ofNat 16 _),
    swapAtOdd_fold_laneSum hseed, swapAtOdd]

/-- Settles O42, from what determines the fold: its range, its zero and its residue. -/
theorem foldIsTheCarryFold : Obligations.FoldIsTheCarryFold := by
  refine ⟨fun x => rfl, fun x hpos => ?_, fun x => ?_, fold16_carry, fun x hx => fold16_eq_carryFold hx⟩
  · obtain ⟨hle, hzero, -⟩ := fold16_spec x
    omega
  · obtain ⟨-, -, hmod⟩ := fold16_spec x
    exact hmod

/-- Settles O43, by the closed form: the complement is all ones at the sum 0, and 0 at its positive multiples of 65535. -/
theorem checksumValuesAtZero : Obligations.ChecksumValuesAtZero := by
  intro s b off len hseed
  have hones : checksumOf s b off len = 0xFFFF ↔ s.params.csumSeed = 0 ∧ ∀ j < len, s.byte b (off + j) = 0 := by
    rw [checksumOf_eq_complementOfFold hseed, complementOfFold_eq_ones_iff, logicalSum_eq_zero_iff]
  refine ⟨hones, fun hseedOnes hres => ?_, ?_⟩
  · obtain ⟨hseedZero, -⟩ := hones.1 hres
    exact absurd (hseedOnes.symm.trans hseedZero) (by decide)
  · rw [checksumOf_eq_complementOfFold hseed, complementOfFold_eq_zero_iff]

/-- Settles O45: the stored result adds the complement of the fold to the logical sum. -/
theorem storedChecksumValidates : Obligations.StoredChecksumValidates :=
  fun _ b _ _ _ hseed hstart hend heven => checksumOf_stored hseed b hstart hend heven

/-- Settles O58: every write after a refreshed checksum stands outside the range it covers. -/
theorem writtenHeadersValidate : Obligations.WrittenHeadersValidate := by
  constructor
  · intro s t u v ty hseed hsize hreply hip hicmp
    obtain rfl : makeReply ty s = t := Host.Outcome.next.inj hreply
    have hrange : 42 ≤ (makeReply ty s).params.fbSize := by simpa using hsize
    have hipValid : checksumOf (makeReply ty s) .tx 14 20 = 0 := makeReply_ipHeader_validates hseed ty
    cases (exec_csum_of_le .tx (by omega)).symm.trans hip
    cases (exec_csum_of_le .tx (by omega)).symm.trans hicmp
    rw [runChecksum_csZero, runChecksum_csZero, hipValid, makeReply_icmpHeader_validates hseed ty]
    exact ⟨rfl, rfl⟩
  · intro s t hseed hbuilt hexec hdisp
    have hforward : exec .fwd s = .next (forward s) := if_pos hbuilt
    cases hforward.symm.trans hexec
    exact forward_validates hseed hdisp

end Sys2Proof.Claims

/-! PROOFS of the table statements: the model's lookup is the algorithm of 41_lpm.md R131, and what the lookup guarantees
is read off that algorithm; the loads, reads and `BUILD`; the phases (41_lpm.md R121 to R140; 60_exceptions.md R218). -/

namespace Sys2Proof.Machine

open Sys2Proof.Claims

/-! The fuel of the lookup's loops (41_lpm.md R131, R137). -/

/-- The midpoint of an interval of two halves leaves less than half of it on each side. -/
theorem halves_lt_two_pow {fuel lo hi : Nat} (h : hi - lo < 2 ^ (fuel + 1)) (hne : ¬hi ≤ lo) :
    lo + (hi - 1 - lo) / 2 - lo < 2 ^ fuel ∧ hi - (lo + (hi - 1 - lo) / 2 + 1) < 2 ^ fuel := by
  rw [pow_succ] at h
  omega

/-- With `fuel` probes for an interval of less than `2 ^ fuel` entries, the search is that of R131. -/
theorem search_probe (rt : Nat → RouteEntry) (d : Word) (fuel lo hi : Nat) (h : hi - lo < 2 ^ fuel) :
    Search rt d lo ((hi : Int) - 1) (probe rt d fuel lo hi) := by
  induction fuel generalizing lo hi with
  | zero =>
    rw [pow_zero] at h
    exact .exhausted _ _ (by omega)
  | succ fuel ih =>
    rw [probe]
    split_ifs with hempty
    · exact .exhausted _ _ (by omega)
    · obtain ⟨hlow, hhigh⟩ := halves_lt_two_pow h hempty
      have hmid : ((lo + (hi - 1 - lo) / 2 : Nat) : Int) = lo + ((hi : Int) - 1 - lo) / 2 := by omega
      simp only
      generalize lo + (hi - 1 - lo) / 2 = mid at hlow hhigh hmid ⊢
      split_ifs with hhit hdown
      · exact .hit _ _ mid (by omega) hmid hhit
      · exact .down _ _ mid _ (by omega) hmid (BitVec.lt_def.1 hdown) (ih lo mid hlow)
      · have hne := mt BitVec.toNat_inj.1 hhit
        rw [BitVec.lt_def] at hdown
        exact .up _ _ mid _ (by omega) hmid (by omega) (by exact_mod_cast ih (mid + 1) hi hhigh)

/-- More probes than the halving needs change nothing. -/
theorem probe_eq_of_fuel_le (rt : Nat → RouteEntry) (d : Word) {fuel fuel' lo hi : Nat} (h : hi - lo < 2 ^ fuel)
    (hfuel : fuel ≤ fuel') : probe rt d fuel' lo hi = probe rt d fuel lo hi := by
  induction fuel generalizing fuel' lo hi with
  | zero =>
    rw [pow_zero] at h
    cases fuel' with
    | zero => rfl
    | succ fuel' => exact if_pos (by omega)
  | succ fuel ih =>
    obtain ⟨k, rfl⟩ := Nat.exists_eq_add_of_le' hfuel
    rw [← Nat.add_assoc, probe, probe]
    split_ifs with hempty
    · rfl
    · obtain ⟨hlow, hhigh⟩ := halves_lt_two_pow h hempty
      simp only [ih hlow (Nat.le_add_left fuel k), ih hhigh (Nat.le_add_left fuel k)]

/-- With as many moves as there are later entries, the scan is that of R131. -/
theorem scan_scanRun (rt : Nat → RouteEntry) (d p : Word) {len fuel i : Nat} (best : Nat) (h : len - 1 - i ≤ fuel) :
    Scan rt len d p i best (scanRun rt len d p fuel i best) := by
  induction fuel generalizing i best with
  | zero => exact .done _ _ (by omega)
  | succ fuel ih =>
    rw [scanRun]
    split_ifs with hrun hmatch
    · exact .better _ _ _ hrun.1 hrun.2 hmatch (ih _ (by omega))
    · exact .skip _ _ _ hrun.1 hrun.2 hmatch (ih _ (by omega))
    · exact .done _ _ hrun

/-- More moves than there are later entries change nothing. -/
theorem scanRun_eq_of_fuel_le (rt : Nat → RouteEntry) (d p : Word) {len fuel fuel' i : Nat} (best : Nat)
    (h : len - 1 - i ≤ fuel) (hfuel : fuel ≤ fuel') :
    scanRun rt len d p fuel' i best = scanRun rt len d p fuel i best := by
  induction fuel generalizing fuel' i best with
  | zero => exact scanRun_eq_best (by omega) _ _
  | succ fuel ih =>
    obtain ⟨k, rfl⟩ := Nat.exists_eq_add_of_le' hfuel
    rw [← Nat.add_assoc, scanRun, scanRun]
    split_ifs with hrun
    · exact ih _ (by omega) (Nat.le_add_left fuel k)
    · exact ih _ (by omega) (Nat.le_add_left fuel k)
    · rfl

/-! What the lookup reads: the keys of the loaded entries. -/

/-- Two tables of `len` entries with the same key at every index. -/
def SameKeys (rt rt' : Nat → RouteEntry) (len : Nat) : Prop := ∀ i < len, SameKey (rt i) (rt' i)

theorem probe_congr {rt rt' : Nat → RouteEntry} {len : Nat} (h : SameKeys rt rt' len) (d : Word) (fuel : Nat)
    {lo hi : Nat} (hhi : hi ≤ len) : probe rt d fuel lo hi = probe rt' d fuel lo hi := by
  induction fuel generalizing lo hi with
  | zero => rfl
  | succ fuel ih =>
    rw [probe, probe]
    split_ifs with hempty
    · rfl
    · obtain ⟨hpfx, hmask⟩ := h (lo + (hi - 1 - lo) / 2) (by omega)
      simp only [hpfx, hmask, ih hhi, ih (show lo + (hi - 1 - lo) / 2 ≤ len by omega)]

theorem scanRun_congr {rt rt' : Nat → RouteEntry} {len : Nat} (h : SameKeys rt rt' len) (d p : Word)
    (fuel i best : Nat) : scanRun rt len d p fuel i best = scanRun rt' len d p fuel i best := by
  induction fuel generalizing i best with
  | zero => rfl
  | succ fuel ih =>
    rw [scanRun, scanRun]
    by_cases hlen : i + 1 < len
    · obtain ⟨hpfx, hmask⟩ := h (i + 1) hlen
      simp only [hpfx, hmask, ih]
    · rw [if_neg (fun hrun => hlen hrun.1), if_neg (fun hrun => hlen hrun.1)]

end Sys2Proof.Machine

namespace Sys2Proof.Claims

open Sys2Proof.Machine

/-! What the algorithm of R131 finds. -/

variable {rt : Nat → RouteEntry} {d p : Word}

/-- What the search finds lies in its interval and matches. -/
theorem Search.found {lo hi : Int} {r : Option Nat} (h : Search rt d lo hi r) {f : Nat} (hr : r = some f) :
    lo ≤ f ∧ f ≤ hi ∧ Matches (rt f) d := by
  induction h with
  | exhausted => cases hr
  | hit lo hi mid hle hmid hmatch =>
    cases hr
    exact ⟨by omega, by omega, hmatch⟩
  | down lo hi mid r hle hmid _ _ ih =>
    obtain ⟨hlow, hhigh, hmatch⟩ := ih hr
    exact ⟨hlow, by omega, hmatch⟩
  | up lo hi mid r hle hmid _ _ ih =>
    obtain ⟨hlow, hhigh, hmatch⟩ := ih hr
    exact ⟨by omega, hhigh, hmatch⟩

/-- The search does not fail while matching indices `a` to `b` lie in its interval, every index before them sends it up
and every index after them sends it down. -/
theorem Search.ne_none {a b : Nat} {len : Int} (hab : a ≤ b) (hmatch : ∀ j, a ≤ j → j ≤ b → Matches (rt j) d)
    (hbefore : ∀ j < a, (rt j).pfx < d &&& (rt j).mask)
    (hafter : ∀ j, b < j → j < len → d &&& (rt j).mask < (rt j).pfx) {lo hi : Int} {r : Option Nat}
    (h : Search rt d lo hi r) (hlo : lo ≤ a) (hhi : b ≤ hi) (hlen : hi < len) : r ≠ none := by
  induction h with
  | exhausted => omega
  | hit => exact Option.some_ne_none _
  | down lo hi mid r hle hmid hk _ ih =>
    have hge : ¬mid < a := fun hlt => absurd (BitVec.lt_def.1 (hbefore mid hlt)) (by omega)
    have hgt : ¬mid ≤ b := fun hle => by
      rw [hmatch mid (by omega) hle] at hk
      exact absurd hk (lt_irrefl _)
    exact ih hlo (by omega) (by omega)
  | up lo hi mid r hle hmid hk _ ih =>
    have hle : ¬b < mid := fun hlt => absurd (BitVec.lt_def.1 (hafter mid hlt (by omega))) (by omega)
    have hlt : ¬a ≤ mid := fun hge => by
      rw [hmatch mid hge (by omega)] at hk
      exact absurd hk (lt_irrefl _)
    exact ih (by omega) hhi hlen

/-- The scan ends with the best it had or with a later matching entry of the run. -/
theorem Scan.result {len i best r : Nat} (h : Scan rt len d p i best r) :
    r = best ∨ (i < r ∧ r < len ∧ (rt r).pfx = p ∧ Matches (rt r) d) := by
  induction h with
  | done => exact .inl rfl
  | better i best r hlen hpfx hmatch _ ih =>
    rcases ih with rfl | ⟨hlt, hr⟩
    · exact .inr ⟨Nat.lt_succ_self i, hlen, hpfx, hmatch⟩
    · exact .inr ⟨by omega, hr⟩
  | skip i best r _ _ _ _ ih =>
    rcases ih with rfl | ⟨hlt, hr⟩
    · exact .inl rfl
    · exact .inr ⟨by omega, hr⟩

/-- The scan passes no matching entry of a run without gaps. -/
theorem Scan.le_result {len i best r : Nat} (h : Scan rt len d p i best r)
    (hrun : ∀ j k, i < k → k ≤ j → j < len → (rt j).pfx = p → (rt k).pfx = p) {j : Nat} (hij : i < j) (hj : j < len)
    (hpfx : (rt j).pfx = p) (hmatch : Matches (rt j) d) : j ≤ r := by
  induction h with
  | done i best hend => exact absurd ⟨by omega, hrun j (i + 1) (by omega) hij hj hpfx⟩ hend
  | better i best r _ _ _ hscan ih =>
    rcases Nat.eq_or_lt_of_le (Nat.succ_le_of_lt hij) with rfl | hlt
    · rcases hscan.result with rfl | ⟨hgt, -⟩ <;> omega
    · exact ih (fun j k hk => hrun j k (by omega)) hlt
  | skip i best r _ _ hskip _ ih =>
    rcases Nat.eq_or_lt_of_le (Nat.succ_le_of_lt hij) with rfl | hlt
    · exact absurd hmatch hskip
    · exact ih (fun j k hk => hrun j k (by omega)) hlt

end Sys2Proof.Claims

namespace Sys2Proof.Machine

open Sys2Proof.Claims

/-! The lookup in the block's routing table. -/

/-- The lookup in any table, as the algorithm of R131. -/
theorem lookupIn_cases (rt : Nat → RouteEntry) (len : Nat) (d : Word) :
    (lookupIn rt len d = none ∧ Search rt d 0 ((len : Int) - 1) none) ∨
      ∃ found r, lookupIn rt len d = some r ∧ Search rt d 0 ((len : Int) - 1) (some found) ∧
        Scan rt len d (rt found).pfx found found r := by
  have hsearch := search_probe rt d len 0 len (by simpa using Nat.lt_two_pow_self)
  cases hprobe : probe rt d len 0 len with
  | none =>
    rw [hprobe] at hsearch
    exact .inl ⟨by rw [lookupIn, hprobe], hsearch⟩
  | some found =>
    rw [hprobe] at hsearch
    exact .inr ⟨found, _, by rw [lookupIn, hprobe], hsearch, scan_scanRun rt d _ found (by omega)⟩

/-- The lookup reads nothing but the keys of the loaded entries. -/
theorem lookupIn_congr {rt rt' : Nat → RouteEntry} {len : Nat} (h : SameKeys rt rt' len) (d : Word) :
    lookupIn rt len d = lookupIn rt' len d := by
  have hsearch := search_probe rt d len 0 len (by simpa using Nat.lt_two_pow_self)
  rw [lookupIn, lookupIn, ← probe_congr h d len le_rfl]
  cases hprobe : probe rt d len 0 len with
  | none => rfl
  | some found =>
    obtain ⟨-, hfound, -⟩ := hsearch.found hprobe
    obtain ⟨hpfx, -⟩ := h found (by omega)
    simp only [hpfx, scanRun_congr h]

/-- The index of a lookup is loaded and matches. -/
theorem lookup_matches {s : State} {d : Word} {r : Nat} (h : lookup s d = some r) :
    r < s.rtLen.toNat ∧ Matches (s.route r) d := by
  rcases lookupIn_cases s.route s.rtLen.toNat d with ⟨hnone, -⟩ | ⟨found, r', hsome, hsearch, hscan⟩
  · exact absurd (h.symm.trans hnone) (Option.some_ne_none r)
  · obtain rfl := Option.some.inj (h.symm.trans hsome)
    obtain ⟨-, hlt, hmatch⟩ := hsearch.found rfl
    rcases hscan.result with rfl | ⟨-, hlen, -, hmatch'⟩
    · exact ⟨by omega, hmatch⟩
    · exact ⟨hlen, hmatch'⟩

end Sys2Proof.Machine

namespace Sys2Proof.Claims

open Sys2Proof.Machine

/-! Sorted tables (41_lpm.md R128). -/

theorem KeyLE.pfx_le {x y : RouteEntry} (h : KeyLE x y) : x.pfx.toNat ≤ y.pfx.toNat := by
  rcases h with hlt | ⟨heq, -⟩
  · exact (BitVec.lt_def.1 hlt).le
  · rw [heq]

theorem KeyLE.mask_le {x y : RouteEntry} (h : KeyLE x y) (heq : x.pfx = y.pfx) : x.mask ≤ y.mask := by
  rcases h with hlt | ⟨-, hmask⟩
  · exact absurd heq (BitVec.ne_of_lt hlt)
  · exact hmask

theorem keyLe_eq_true_iff (x y : RouteEntry) : keyLe x y = true ↔ KeyLE x y := by
  simp [keyLe, KeyLE]

/-- Entries that stand in key order both ways have one key. -/
theorem KeyLE.sameKey {x y : RouteEntry} (h : KeyLE x y) (h' : KeyLE y x) : SameKey x y := by
  rw [← keyLe_eq_true_iff, keyLe_iff] at h h'
  exact (routeKey_eq_iff x y).1 (le_antisymm h h')

theorem SortedTable.pfx_le {s : State} (h : SortedTable s) {i j : Nat} (hij : i ≤ j) (hj : j < s.rtLen.toNat) :
    (s.route i).pfx.toNat ≤ (s.route j).pfx.toNat := by
  rcases Nat.eq_or_lt_of_le hij with rfl | hlt
  · exact le_rfl
  · exact (h i j hlt hj).pfx_le

/-- The entries of one run stand together. -/
theorem SortedTable.pfx_eq_between {s : State} (h : SortedTable s) {i j k : Nat} (hik : i ≤ k) (hkj : k ≤ j)
    (hj : j < s.rtLen.toNat) (heq : (s.route j).pfx = (s.route i).pfx) : (s.route k).pfx = (s.route i).pfx := by
  have hlow := h.pfx_le hik (by omega)
  have hhigh := h.pfx_le hkj hj
  rw [heq] at hhigh
  exact BitVec.eq_of_toNat_eq (le_antisymm hhigh hlow)

/-- In a sorted table the lookup's index is the last of the matching entries of its run, and its mask the greatest
(41_lpm.md R133 item 1). -/
theorem SortedTable.lookup_best {s : State} (hsorted : SortedTable s) {d : Word} {r j : Nat} (h : lookup s d = some r)
    (hj : j < s.rtLen.toNat) (hpfx : (s.route j).pfx = (s.route r).pfx) (hmatch : Matches (s.route j) d) :
    j ≤ r ∧ (s.route j).mask ≤ (s.route r).mask := by
  obtain ⟨hr, -⟩ := lookup_matches h
  have hlast : j ≤ r := by
    rcases lookupIn_cases s.route s.rtLen.toNat d with ⟨hnone, -⟩ | ⟨found, r', hsome, -, hscan⟩
    · exact absurd (h.symm.trans hnone) (Option.some_ne_none r)
    · obtain rfl := Option.some.inj (h.symm.trans hsome)
      obtain ⟨hfound, hrun⟩ : found ≤ r ∧ (s.route r).pfx = (s.route found).pfx := by
        rcases hscan.result with rfl | ⟨hlt, -, hrun, -⟩
        · exact ⟨le_rfl, rfl⟩
        · exact ⟨hlt.le, hrun⟩
      by_cases hjf : j ≤ found
      · exact hjf.trans hfound
      · exact hscan.le_result (fun j k hk hkj hj => hsorted.pfx_eq_between hk.le hkj hj) (by omega) hj
          (hpfx.trans hrun) hmatch
  refine ⟨hlast, ?_⟩
  rcases Nat.eq_or_lt_of_le hlast with rfl | hlt
  · exact BitVec.le_refl _
  · exact (hsorted j r hlt hr).mask_le hpfx

/-- Settles O32, by the fuel bounds of the search and the scan. -/
theorem lookupFollowsTheAlgorithm : Obligations.LookupFollowsTheAlgorithm :=
  fun s d => lookupIn_cases s.route s.rtLen.toNat d

/-- Settles O34: the scan goes on to the end of the run, and a sorted run's masks rise. -/
theorem lookupReturnsTheBestOfItsRun : Obligations.LookupReturnsTheBestOfItsRun := by
  intro s d hsorted
  refine ⟨fun r hr => ?_, fun hno => ?_⟩
  · obtain ⟨hlt, hmatch⟩ := lookup_matches hr
    exact ⟨hlt, hmatch, fun j hj hpfx hmatchj => hsorted.lookup_best hr hj hpfx hmatchj⟩
  · cases hr : lookup s d with
    | none => rfl
    | some r =>
      obtain ⟨hlt, hmatch⟩ := lookup_matches hr
      exact absurd hmatch (hno r hlt)

/-- Settles O35: the entries beside the matching run steer the search into it, and the scan takes its last. -/
theorem lookupIsLongestMatchUnderConditions : Obligations.LookupIsLongestMatchUnderConditions := by
  intro s d lo hi hsorted hle hhi hrun hbefore hafter
  have hmem {j : Nat} (hj : j < s.rtLen.toNat) (hmatch : Matches (s.route j) d) : lo ≤ j ∧ j ≤ hi := by
    refine ⟨not_lt.1 fun hlt => ?_, not_lt.1 fun hgt => ?_⟩
    · exact BitVec.ne_of_lt (hbefore j hlt) hmatch.symm
    · exact BitVec.ne_of_lt (hafter j hgt hj) hmatch
  have hpfx {j : Nat} (hlo : lo ≤ j) (hjhi : j ≤ hi) : (s.route j).pfx = (s.route lo).pfx := (hrun j hlo hjhi).2
  have hlookup : lookup s d = some hi := by
    rcases lookupIn_cases s.route s.rtLen.toNat d with ⟨-, hnone⟩ | ⟨-, r, hsome, -, -⟩
    · exact absurd rfl (hnone.ne_none (len := s.rtLen.toNat) hle (fun j hlo hjhi => (hrun j hlo hjhi).1) hbefore
        (fun j hgt hj => hafter j hgt (by omega)) (by omega) (by omega) (by omega))
    · obtain ⟨hlt, hmatch⟩ := lookup_matches hsome
      obtain ⟨hlo, hrhi⟩ := hmem hlt hmatch
      obtain ⟨hhir, -⟩ := hsorted.lookup_best hsome hhi ((hpfx hle le_rfl).trans (hpfx hlo hrhi).symm)
        (hrun hi hle le_rfl).1
      rw [← le_antisymm hrhi hhir]
      exact hsome
  refine ⟨hlookup, fun j hj hmatch => ?_⟩
  obtain ⟨hlo, hjhi⟩ := hmem hj hmatch
  exact (hsorted.lookup_best hlookup hj ((hpfx hlo hjhi).trans (hpfx hle le_rfl).symm) hmatch).2

/-- Settles O37, by running the lookup on the three tables. -/
theorem lookupIsNotLongestMatchInGeneral : Obligations.LookupIsNotLongestMatchInGeneral :=
  ⟨rfl, rfl, rfl, rfl, rfl, rfl⟩

/-- Settles O38: each probe halves the interval, and each move of the scan leaves one entry less. -/
theorem lookupCostIsBounded : Obligations.LookupCostIsBounded := by
  refine ⟨fun rt d len fuel _ hfuel => ?_, fun rt d p len fuel found _ hfuel => ?_, fun rt rt' d len hsame => ?_⟩
  · exact probe_eq_of_fuel_le rt d (by simpa using Nat.lt_log2_self) hfuel
  · exact scanRun_eq_of_fuel_le rt d p found le_rfl hfuel
  · exact lookupIn_congr (fun i hi => by rw [hsame i hi]; exact ⟨rfl, rfl⟩) d

end Sys2Proof.Claims

namespace Sys2Proof.Machine

/-- A command of the CONFIG phase goes on behind its phase check. -/
theorem ite_built_of_config {α : Type} {s : State} {x y z : α} (hs : s.built = false) (h : y = z) :
    (if s.built then x else y) = z :=
  (if_neg (Bool.eq_false_iff.1 hs)).trans h

/-- The branch of a command of the CONFIG phase in its phase. -/
theorem Ends.inConfig {P : State → Prop} {s : State} {o o' : Host.Outcome State Fault Refusal} (hs : s.built = false)
    (h : Ends P o') : Ends P (if s.built then o else o') := by
  rwa [ite_built_of_config hs rfl]

/-- The branch of a command of the RUN phase in its phase. -/
theorem Ends.inRun {P : State → Prop} {s : State} {o o' : Host.Outcome State Fault Refusal} (hs : s.built = true)
    (h : Ends P o) : Ends P (if s.built then o else o') := by
  rwa [if_pos hs]

/-- The phase, the tables and the lengths are among what `State.tables` keeps. -/
theorem State.tables_eq {s t : State} (h : t.tables = s.tables) :
    t.built = s.built ∧ t.rt = s.rt ∧ t.arpt = s.arpt ∧ t.ifa = s.ifa ∧ t.rtLen = s.rtLen ∧ t.atLen = s.atLen := by
  have hfield {α : Type} (field : State → α) : field t.tables = field s.tables := congrArg field h
  exact ⟨hfield State.built, hfield State.rt, hfield State.arpt, hfield State.ifa, hfield State.rtLen,
    hfield State.atLen⟩

end Sys2Proof.Machine

namespace Sys2Proof.Claims

open Sys2Proof.Machine

/-! The phases (60_exceptions.md R218). -/

/-- A command of the CONFIG phase is refused in the RUN phase. -/
theorem exec_configOnly_of_run {i : Instr} {s : State} (hi : configOnly i = true) (hrun : s.built = true) :
    exec i s = refusedAs i 3 s := by
  have hrefused : .next (refuse (encode i) .phase s) = refusedAs i 3 s := next_refuse_eq_refusedAs i .phase s
  cases i with
  | rtload | atload | ifload | build => exact (if_pos hrun).trans hrefused
  | _ => exact nomatch hi

/-- A command of the RUN phase is refused in the CONFIG phase. -/
theorem exec_runOnly_of_config {i : Instr} {s : State} (hi : runOnly i = true) (hconfig : s.built = false) :
    exec i s = refusedAs i 3 s := by
  have hrefused : .next (refuse (encode i) .phase s) = refusedAs i 3 s := next_refuse_eq_refusedAs i .phase s
  cases i with
  | rtlookup | arplookup | fwd => exact (if_neg (Bool.eq_false_iff.1 hconfig)).trans hrefused
  | _ => exact nomatch hi

/-- A command out of its phase is refused. -/
theorem exec_of_not_phaseAllows {i : Instr} {s : State} (h : ¬PhaseAllows i s) : exec i s = refusedAs i 3 s := by
  simp only [PhaseAllows, not_and_or, Classical.not_imp, Bool.not_eq_false, Bool.not_eq_true] at h
  rcases h with ⟨hi, hs⟩ | ⟨hi, hs⟩
  · exact exec_configOnly_of_run hi hs
  · exact exec_runOnly_of_config hi hs

/-- The next states of a command in its phase, by what becomes of the tables and the error registers. -/
inductive InPhase (i : Instr) (s : State) : State → Prop
  /-- Refused for another reason than its phase. -/
  | refused (c : RefuseCode) : c ≠ .phase → InPhase i s (refuse (encode i) c s)
  | cleared : i = .srst → InPhase i s (clearRegisters s)
  /-- A command of the CONFIG phase that completed. -/
  | loaded {t : State} : s.built = false → (t.built = true → i = .build) → t.errors = s.errors → InPhase i s t
  /-- Any other command that completed. -/
  | kept {t : State} : t.tables = s.tables → t.errors = s.errors → InPhase i s t

theorem InPhase.of_onlyForwardState {i : Instr} {s t : State} (h : OnlyForwardState s t) : InPhase i s t :=
  .kept (by rw [h]; rfl) (by rw [h]; rfl)

theorem inPhase_readField (i : Instr) (b : Buf) (f : Field) (s : State) : InPhase i s (readField b f s) := by
  cases f <;> exact .kept rfl rfl

/-- Everything that a command in its phase can do to the tables and the error registers. -/
theorem exec_inPhase {i : Instr} {s : State} (hphase : PhaseAllows i s) : Ends (InPhase i s) (exec i s) := by
  obtain ⟨hconfig, hrun⟩ := hphase
  have hrange : Ends (InPhase i s) (.next (refuse (encode i) .range s)) := .next (.refused .range nofun)
  have hfull : Ends (InPhase i s) (.next (refuse (encode i) .full s)) := .next (.refused .full nofun)
  have hload {t : State} (hbuilt : t.built = s.built) (herrors : t.errors = s.errors) (hs : s.built = false) :
      Ends (InPhase i s) (.next t) :=
    .next (.loaded hs (fun ht => absurd (ht.symm.trans (hbuilt.trans hs)) nofun) herrors)
  have hprocessed {t : State} (ht : Processed s t) : Ends (InPhase i s) (.next t) :=
    .next (.of_onlyForwardState ht.onlyForwardState)
  cases i with
  | nop => exact .next (.kept rfl rfl)
  | srst => exact .next (.cleared rfl)
  | rtload => exact .inConfig (hconfig rfl) (.ite hfull (hload rfl rfl (hconfig rfl)))
  | atload => exact .inConfig (hconfig rfl) (.ite hfull (hload rfl rfl (hconfig rfl)))
  | ifload id => exact .inConfig (hconfig rfl) (.ite hrange (hload rfl rfl (hconfig rfl)))
  | build => exact .inConfig (hconfig rfl) (.next (.loaded (hconfig rfl) (fun _ => rfl) rfl))
  | rtread => exact .ite hrange (.next (.kept rfl rfl))
  | atread => exact .ite hrange (.next (.kept rfl rfl))
  | ifread id => exact .ite hrange (.next (.kept rfl rfl))
  | rtlookup => exact .inRun (hrun rfl) (hprocessed (.routeLookedUp _))
  | arplookup => exact .inRun (hrun rfl) (hprocessed (.arpLookedUp _))
  | csum b off len => exact .ite hrange (hprocessed (.checksummed b off len))
  | rdf b f =>
    simp only [exec, execRdf]
    split
    · exact hrange
    · exact .next (inPhase_readField _ b _ s)
  | wrf b f =>
    simp only [exec, execWrf]
    split
    · exact hrange
    · exact hprocessed (.fieldWritten b _)
  | bufclr b => exact hprocessed (.bufferCleared b)
  | ipcs b => exact hprocessed (.checksumRefreshed b 24 _ _ (by omega))
  | icmpcs b => exact hprocessed (.checksumRefreshed b 36 _ _ (by omega))
  | mkreply ty => exact hprocessed (.replied ty)
  | fwd => exact .inRun (hrun rfl) (hprocessed .forwarded)

/-- Only the phase refusal has the code 3 (60_exceptions.md R212). -/
theorem refuseNumber_ne_phase {c : RefuseCode} (h : c ≠ .phase) : refuseNumber c ≠ 3 := by
  cases c with
  | phase => exact absurd rfl h
  | _ => decide

theorem InPhase.errCode_ne_phase {i : Instr} {s t : State} (h : InPhase i s t) (hs : s.errCode ≠ 3) :
    t.errCode ≠ 3 := by
  have hkept (herrors : t.errors = s.errors) : t.errCode ≠ 3 := by
    obtain ⟨-, hcode, -⟩ := State.errors_eq_iff.1 herrors
    rwa [hcode]
  cases h with
  | refused c hc => exact refuseNumber_ne_phase hc
  | cleared => exact (by decide : (0 : Byte) ≠ 3)
  | loaded _ _ herrors => exact hkept herrors
  | kept _ herrors => exact hkept herrors

/-- What any command does to the phase and the tables. -/
theorem exec_tables_cases {i : Instr} {s t : State} (h : exec i s = .next t) :
    t.tables = s.tables ∨ (i = .srst ∧ t.built = false) ∨ (s.built = false ∧ (t.built = true → i = .build)) := by
  by_cases hphase : PhaseAllows i s
  · cases exec_inPhase hphase t h with
    | refused c _ => exact .inl rfl
    | cleared hi => exact .inr (.inl ⟨hi, rfl⟩)
    | loaded hs ht _ => exact .inr (.inr ⟨hs, ht⟩)
    | kept htables _ => exact .inl htables
  · cases (exec_of_not_phaseAllows hphase).symm.trans h
    exact .inl rfl

/-- The address map has `CMD` at one offset, for word accesses (20_memory.md R62). -/
theorem eq_of_target_cmd {p : Params} {wd : Width} {off : Nat} (h : target p wd off = some (.reg .cmd)) :
    wd = .word ∧ off = 0 := by
  unfold target at h
  split_ifs at h with _ hword
  · split at h
    · next r hreg =>
      cases h
      exact ⟨hword.1, ((regAt_eq_some_iff off .cmd).1 hreg).symm⟩
    · cases h
  all_goals cases h

/-- What a host action can do to the tables: run a legal command word, reset the block, or leave them. -/
theorem perform_tables_cases {a : HostAction} {s t : State} (h : perform a s = .next t) :
    (∃ w i u, a = .write .word 0x00 w ∧ decode w = .ok i ∧ exec i s = .next u ∧ t.tables = u.tables) ∨
      (a = .reset ∧ t.built = false) ∨ t.tables = s.tables := by
  cases a with
  | read wd off =>
    cases h
    exact .inr (.inr rfl)
  | reset =>
    cases h
    exact .inr (.inl ⟨rfl, rfl⟩)
  | write wd off v =>
    simp only [perform, hostWrite] at h
    split at h
    · cases h
      exact .inr (.inr rfl)
    · next htarget =>
      obtain ⟨rfl, rfl⟩ := eq_of_target_cmd htarget
      cases hdecode : decode v with
      | error e =>
        rw [issue_error hdecode] at h
        cases h
        exact .inr (.inr rfl)
      | ok i =>
        rw [issue_ok hdecode] at h
        cases hexec : exec i s with
        | next u =>
          rw [hexec] at h
          cases h
          exact .inl ⟨v, i, u, rfl, hdecode, hexec, rfl⟩
        | fault f => exact nomatch f
        | refused e => simp [hexec, answer] at h
    · cases h
      exact .inr (.inr (by rw [writeReg_frame]; rfl))
    · cases h
      exact .inr (.inr rfl)
    · next b _ _ =>
      cases h
      exact .inr (.inr (by cases b <;> rfl))

/-- What a step can do to the phase and the tables. -/
theorem step_tables_cases {s t : State} (h : step s = .next t) :
    t.tables = s.tables ∨
      (t.built = false ∧
        ((∃ w rest, s.script = .write .word 0x00 w :: rest ∧ decode w = .ok .srst) ∨ ∃ rest, s.script = .reset :: rest)) ∨
      (s.built = false ∧
        (t.built = true → ∃ w rest, s.script = .write .word 0x00 w :: rest ∧ decode w = .ok .build)) := by
  cases hscript : s.script with
  | nil =>
    rw [step_nil s hscript] at h
    cases h
    exact .inl rfl
  | cons a rest =>
    rw [step_cons s a rest hscript] at h
    rcases perform_tables_cases h with ⟨w, i, u, rfl, hdecode, hexec, htables⟩ | ⟨rfl, ht⟩ | htables
    · obtain ⟨hbuilt, -⟩ := State.tables_eq htables
      rcases exec_tables_cases hexec with hkept | ⟨rfl, hu⟩ | ⟨hs, hbuild⟩
      · exact .inl (htables.trans hkept)
      · exact .inr (.inl ⟨hbuilt.trans hu, .inl ⟨w, rest, rfl, hdecode⟩⟩)
      · exact .inr (.inr ⟨hs, fun ht => ⟨w, rest, rfl, hbuild (hbuilt.symm.trans ht) ▸ hdecode⟩⟩)
    · exact .inr (.inl ⟨ht, .inr ⟨rest, rfl⟩⟩)
    · exact .inl htables

/-- Settles O13, by what a command in its phase can do and what a step can do to the tables. -/
theorem phaseRule : Obligations.PhaseRule := by
  refine ⟨fun i s => exec_of_not_phaseAllows, fun i s t hphase hcode hexec => ?_, fun s t hstep hs ht => ?_,
    fun s t hstep hs ht => ?_, fun s t hstep hs ht => ?_⟩
  · exact (exec_inPhase hphase t hexec).errCode_ne_phase hcode
  · rcases step_tables_cases hstep with hkept | ⟨ht', -⟩ | ⟨-, hbuild⟩
    · obtain ⟨hbuilt, -⟩ := State.tables_eq hkept
      simp [hbuilt, hs] at ht
    · simp [ht'] at ht
    · exact hbuild ht
  · rcases step_tables_cases hstep with hkept | ⟨-, hreset⟩ | ⟨hs', -⟩
    · obtain ⟨hbuilt, -⟩ := State.tables_eq hkept
      simp [hbuilt, hs] at ht
    · exact hreset
    · simp [hs'] at hs
  · rcases step_tables_cases hstep with hkept | ⟨ht', -⟩ | ⟨hs', -⟩
    · obtain ⟨-, hrt, harpt, hifa, hrtLen, hatLen⟩ := State.tables_eq hkept
      exact ⟨hrt, harpt, hifa, hrtLen, hatLen⟩
    · simp [ht'] at ht
    · simp [hs'] at hs

end Sys2Proof.Claims

namespace Sys2Proof.Machine

open Sys2Proof.Claims

/-! `BUILD` (41_lpm.md R127 to R129, R140). -/

theorem State.getElem_routes (s : State) {i : Nat} (hi : i < s.routes.length) : s.routes[i] = s.route i := by
  simp [State.routes]

/-- The table is sorted when the list of its loaded entries is. -/
theorem sortedTable_iff (s : State) : SortedTable s ↔ s.routes.Pairwise KeyLE := by
  simp only [List.pairwise_iff_getElem, State.getElem_routes, State.length_routes, SortedTable]
  exact ⟨fun h i j _ hj hij => h i j hij hj, fun h i j hij hj => h i j (hij.trans hj) hj hij⟩

/-- The state after `BUILD` in the CONFIG phase (41_lpm.md R127). -/
def builtFrom (s : State) : State :=
  { s with rt := Store.replaceFront s.rt (sortByKey s.builds s.routes), built := true, builds := s.builds + 1 }

theorem exec_build_of_config {s : State} (h : s.built = false) : exec .build s = .next (builtFrom s) :=
  ite_built_of_config h rfl

theorem route_builtFrom (s : State) (i : Nat) :
    (builtFrom s).route i =
      if h : i < (sortByKey s.builds s.routes).length then (sortByKey s.builds s.routes)[i] else s.route i :=
  State.route_replaceFront s _ i

/-- `BUILD` leaves the sorted list of the loaded entries. -/
theorem routes_builtFrom (s : State) : (builtFrom s).routes = sortByKey s.builds s.routes := by
  refine List.ext_getElem (by simp [builtFrom]) fun i hi hi' => ?_
  rw [State.getElem_routes, route_builtFrom, dif_pos hi']

theorem routes_builtFrom_perm (s : State) : (builtFrom s).routes.Perm s.routes :=
  routes_builtFrom s ▸ sortByKey_perm s.builds s.routes

theorem pairwise_routes_builtFrom (s : State) : (builtFrom s).routes.Pairwise KeyLE := by
  rw [routes_builtFrom]
  exact (pairwise_sortByKey s.builds s.routes).imp fun h => (keyLe_eq_true_iff _ _).1 h

/-- A sorted list stays as it is (41_lpm.md R127). -/
theorem sortByKey_of_sorted (n : Nat) {l : List RouteEntry} (h : l.Pairwise KeyLE) : sortByKey n l = l :=
  if_pos ((sortedByKey_eq_true_iff l).2 (h.imp fun h => (keyLe_eq_true_iff _ _).2 h))

/-- Entries at or above `RT_LEN` stay as they are. -/
theorem route_builtFrom_of_le (s : State) {i : Nat} (hi : s.rtLen.toNat ≤ i) : (builtFrom s).route i = s.route i := by
  rw [route_builtFrom, dif_neg (by simpa using hi)]

theorem route_builtFrom_of_sorted {s : State} (h : SortedTable s) (i : Nat) : (builtFrom s).route i = s.route i := by
  simp only [route_builtFrom, sortByKey_of_sorted s.builds ((sortedTable_iff s).1 h), State.getElem_routes]
  exact dite_eq_ite.trans (ite_self _)

/-- Sorted lists of the same entries agree in the key at every index. -/
theorem sameKeys_of_perm {s t : State} (hs : s.routes.Pairwise KeyLE) (ht : t.routes.Pairwise KeyLE)
    (hperm : s.routes.Perm t.routes) : SameKeys s.route t.route s.rtLen.toNat := by
  have hkeys : s.routes.map routeKey = t.routes.map routeKey := by
    have hsorted {l : List RouteEntry} (hl : l.Pairwise KeyLE) : (l.map routeKey).Pairwise (· ≤ ·) :=
      List.pairwise_map.2 (hl.imp fun h => (keyLe_iff _ _).1 ((keyLe_eq_true_iff _ _).2 h))
    exact (hperm.map routeKey).eq_of_pairwise (fun _ _ _ _ => le_antisymm) (hsorted hs) (hsorted ht)
  intro i hi
  have hlen := hperm.length_eq
  rw [State.length_routes, State.length_routes] at hlen
  have hkey := List.getElem_of_eq hkeys (i := i) (by simpa using hi)
  rw [List.getElem_map, List.getElem_map, State.getElem_routes, State.getElem_routes] at hkey
  exact (routeKey_eq_iff _ _).1 hkey

/-- Sorted lists of the same entries are equal when no two entries have one key. -/
theorem routes_eq_of_perm {l l' : List RouteEntry} (hl : l.Pairwise KeyLE) (hl' : l'.Pairwise KeyLE)
    (hperm : l.Perm l') (hkeys : l.Pairwise (fun x y => ¬SameKey x y)) : l = l' := by
  have hsymm : Std.Symm (fun x y => ¬SameKey x y) := ⟨fun _ _ h h' => h ⟨h'.1.symm, h'.2.symm⟩⟩
  refine hperm.eq_of_pairwise (fun x y hx hy hxy hyx => ?_) hl hl'
  by_contra hne
  exact hkeys.forall hx (hperm.mem_iff.2 hy) hne (hxy.sameKey hyx)

theorem routes_builtFrom_perm_of_perm {s₁ s₂ : State} (h : s₁.routes.Perm s₂.routes) :
    (builtFrom s₁).routes.Perm (builtFrom s₂).routes :=
  (routes_builtFrom_perm s₁).trans (h.trans (routes_builtFrom_perm s₂).symm)

/-- After `BUILD` the lookup does not depend on the load order. -/
theorem lookup_builtFrom_eq {s₁ s₂ : State} (h : s₁.routes.Perm s₂.routes) (d : Word) :
    lookup (builtFrom s₁) d = lookup (builtFrom s₂) d := by
  have hperm := routes_builtFrom_perm_of_perm h
  have hlen := hperm.length_eq
  rw [State.length_routes, State.length_routes] at hlen
  rw [lookup, lookup, ← hlen]
  exact lookupIn_congr (sameKeys_of_perm (pairwise_routes_builtFrom s₁) (pairwise_routes_builtFrom s₂) hperm) d

theorem State.route_eq_of_routes_eq {s t : State} (h : s.routes = t.routes) {i : Nat} (hi : i < s.rtLen.toNat) :
    s.route i = t.route i := by
  have hget := List.getElem_of_eq h (i := i) (by simpa using hi)
  rwa [State.getElem_routes, State.getElem_routes] at hget

theorem exec_rtlookup_of_run {s : State} (h : s.built = true) :
    exec .rtlookup s = .next (writeLpmResult (lookup s s.dr0) s) :=
  if_pos h

/-- `LPM_HIT` and `LPM_IDX` depend on the result alone. -/
theorem writeLpmResult_index_eq (r : Option Nat) (s t : State) :
    (writeLpmResult r s).lpmHit = (writeLpmResult r t).lpmHit ∧
      (writeLpmResult r s).lpmIdx = (writeLpmResult r t).lpmIdx := by
  cases r <;> exact ⟨rfl, rfl⟩

/-- The other result registers copy the entry at the result's index. -/
theorem writeLpmResult_entry_eq {r : Option Nat} {s t : State} (h : ∀ i, r = some i → s.route i = t.route i) :
    (writeLpmResult r s).lpmPfx = (writeLpmResult r t).lpmPfx ∧
      (writeLpmResult r s).lpmMask = (writeLpmResult r t).lpmMask ∧
      (writeLpmResult r s).lpmNhop = (writeLpmResult r t).lpmNhop ∧
      (writeLpmResult r s).lpmEif = (writeLpmResult r t).lpmEif := by
  cases r with
  | none => exact ⟨rfl, rfl, rfl, rfl⟩
  | some i => simp [h i rfl]

end Sys2Proof.Machine

namespace Sys2Proof.Claims

open Sys2Proof.Machine

/-- Nothing that the bytes of the buffers are read from has changed. -/
theorem sameBytes_of_eq {s t : State} (hrxb : t.rxb = s.rxb) (htxb : t.txb = s.txb)
    (hpowerUps : t.powerUps = s.powerUps) : SameBytes s t := by
  rintro (_ | _) k
  · simp only [State.byte, State.buf, hrxb, hpowerUps]
  · simp only [State.byte, State.buf, htxb, hpowerUps]

/-- Settles O30: `BUILD` replaces the front of the table by the sorted list of its entries. -/
theorem buildSortsTheTable : Obligations.BuildSortsTheTable := by
  intro s
  refine ⟨exec_configOnly_of_run rfl, fun hconfig => ?_⟩
  exact ⟨builtFrom s, exec_build_of_config hconfig, routes_builtFrom_perm s,
    (sortedTable_iff _).2 (pairwise_routes_builtFrom s), route_builtFrom_of_sorted,
    fun _ => route_builtFrom_of_le s, sameBytes_of_eq rfl rfl rfl, rfl⟩

/-- Settles O31: the sorted tables have the same keys in the same places, and the lookup reads nothing else. -/
theorem buildIsOrderIndependent : Obligations.BuildIsOrderIndependent := by
  intro s₁ s₂ t₁ t₂ hconfig₁ hconfig₂ hbuild₁ hbuild₂ hperm d u₁ u₂ hlook₁ hlook₂
  cases (exec_build_of_config hconfig₁).symm.trans hbuild₁
  cases (exec_build_of_config hconfig₂).symm.trans hbuild₂
  obtain rfl : writeLpmResult (lookup (builtFrom s₁) d) { builtFrom s₁ with dr0 := d } = u₁ :=
    Host.Outcome.next.inj ((exec_rtlookup_of_run rfl).symm.trans hlook₁)
  obtain rfl : writeLpmResult (lookup (builtFrom s₂) d) { builtFrom s₂ with dr0 := d } = u₂ :=
    Host.Outcome.next.inj ((exec_rtlookup_of_run rfl).symm.trans hlook₂)
  rw [← lookup_builtFrom_eq hperm d]
  obtain ⟨hhit, hidx⟩ := writeLpmResult_index_eq (lookup (builtFrom s₁) d) { builtFrom s₁ with dr0 := d }
    { builtFrom s₂ with dr0 := d }
  refine ⟨hhit, hidx, fun hkeys => ?_⟩
  have hdistinct : (builtFrom s₁).routes.Pairwise (fun x y => ¬SameKey x y) :=
    (List.Perm.pairwise_iff (fun h h' => h ⟨h'.1.symm, h'.2.symm⟩) (routes_builtFrom_perm s₁)).2 hkeys
  have hroutes : (builtFrom s₁).routes = (builtFrom s₂).routes :=
    routes_eq_of_perm (pairwise_routes_builtFrom s₁) (pairwise_routes_builtFrom s₂)
      (routes_builtFrom_perm_of_perm hperm) hdistinct
  exact ⟨hroutes, writeLpmResult_entry_eq fun i hi =>
    State.route_eq_of_routes_eq (s := builtFrom s₁) hroutes (lookup_matches hi).1⟩

/-! The loads, the reads and the two lookups (41_lpm.md R121 to R126, R130, R134). -/

/-- Settles O33: each of the two results writes its registers and nothing else. -/
theorem rtlookupReportsTheLookup : Obligations.RtlookupReportsTheLookup := by
  intro s
  refine ⟨exec_runOnly_of_config rfl, fun hrun => ?_⟩
  refine ⟨_, exec_rtlookup_of_run hrun, fun r hr => ?_, fun hnone => ?_, fun b k => writeLpmResult_byte _ s b k, ?_⟩
  · rw [hr]
    exact ⟨rfl, rfl, rfl, rfl, rfl, rfl⟩
  · rw [hnone]
    exact ⟨rfl, rfl, rfl, rfl, rfl, rfl⟩
  · cases lookup s s.dr0 <;> rfl

/-- Settles O39: the upward scan stops at the lowest loaded entry with the address. -/
theorem arplookupReportsTheFirstMatch : Obligations.ArplookupReportsTheFirstMatch := by
  intro s
  refine ⟨exec_runOnly_of_config rfl, fun hrun => ?_⟩
  refine ⟨writeArpResult (arpLookup s s.dr0) s, if_pos hrun, fun j hfirst => ?_, fun hnone => ?_,
    fun b k => writeArpResult_byte _ s b k, ?_⟩
  · rw [arpLookup_eq_some.2 hfirst]
    exact ⟨rfl, rfl, rfl, rfl, rfl⟩
  · rw [arpLookup_eq_none.2 hnone]
    exact ⟨rfl, rfl, rfl, rfl, rfl⟩
  · cases arpLookup s s.dr0 <;> rfl

/-- Settles O24: the entry is written at the first free place. -/
theorem rtloadAppendsAMaskedRoute : Obligations.RtloadAppendsAMaskedRoute := by
  intro s
  refine ⟨exec_configOnly_of_run rfl, fun hconfig hfull => ?_, fun hconfig hroom => ?_⟩
  · exact ite_built_of_config hconfig ((if_pos hfull).trans (next_refuse_eq_refusedAs .rtload .full s))
  · exact ⟨_, ite_built_of_config hconfig (if_neg hroom), (State.route_put s _ _ _).trans (if_pos rfl),
      fun i hi => (State.route_put s _ i _).trans (if_neg hi), rfl, sameBytes_of_eq rfl rfl rfl, rfl⟩

/-- Settles O25: the entry is written at the first free place. -/
theorem atloadAppendsAnArpEntry : Obligations.AtloadAppendsAnArpEntry := by
  intro s
  refine ⟨exec_configOnly_of_run rfl, fun hconfig hfull => ?_, fun hconfig hroom => ?_⟩
  · exact ite_built_of_config hconfig ((if_pos hfull).trans (next_refuse_eq_refusedAs .atload .full s))
  · have hentry : ({ s with arpt := Store.put s.arpt s.atLen.toNat ⟨s.dr0, macOfRegs s.dr1 s.dr2⟩ } : State).arp
        s.atLen.toNat = ⟨s.dr0, macOfRegs s.dr1 s.dr2⟩ := (State.arp_put s _ _ _).trans (if_pos rfl)
    exact ⟨_, ite_built_of_config hconfig (if_neg hroom), congrArg ArpEntry.ip hentry,
      congrArg (fun e => e.mac.bytes) hentry, fun i hi => (State.arp_put s _ i _).trans (if_neg hi), rfl,
      sameBytes_of_eq rfl rfl rfl, rfl⟩

/-- Settles O26: the entry is written at the id. -/
theorem ifloadSetsAnInterface : Obligations.IfloadSetsAnInterface := by
  intro s id
  refine ⟨exec_configOnly_of_run rfl, fun hconfig hrange => ?_, fun hconfig hid => ?_⟩
  · exact ite_built_of_config hconfig ((if_pos hrange).trans (next_refuse_eq_refusedAs _ .range s))
  · exact ⟨_, ite_built_of_config hconfig (if_neg (not_le.2 hid)),
      (State.iface_put s _ _ _).trans (if_pos rfl), fun i hi => (State.iface_put s _ i _).trans (if_neg hi),
      sameBytes_of_eq rfl rfl rfl, rfl⟩

/-- Settles O27: the entry's fields are copied, the egress interface below zeros. -/
theorem rtreadCopiesARoute : Obligations.RtreadCopiesARoute := by
  intro s
  refine ⟨fun hrange => (if_pos (BitVec.le_def.2 hrange)).trans (next_refuse_eq_refusedAs .rtread .range s),
    fun hlt => ?_⟩
  exact ⟨_, if_neg (mt BitVec.le_def.1 (not_le.2 hlt)), rfl, rfl, rfl,
    setWidth_eq_zero_append (s.route s.dr0.toNat).egressIf, sameBytes_of_eq rfl rfl rfl, rfl⟩

/-- Settles O28: the entry's fields are copied, MAC bytes 4 and 5 above zeros. -/
theorem atreadCopiesAnArpEntry : Obligations.AtreadCopiesAnArpEntry := by
  intro s
  refine ⟨fun hrange => (if_pos (BitVec.le_def.2 hrange)).trans (next_refuse_eq_refusedAs .atread .range s),
    fun hlt => ?_⟩
  refine ⟨_, if_neg (mt BitVec.le_def.1 (not_le.2 hlt)), rfl, rfl, ?_, sameBytes_of_eq rfl rfl rfl, rfl⟩
  exact (BitVec.append_assoc (x₁ := (s.arp s.dr0.toNat).mac.lo) (x₂ := 0#8) (x₃ := 0#8)).symm

/-- Settles O29: the entry's fields are copied, the valid bit as 0 or 1. -/
theorem ifreadCopiesAnInterface : Obligations.IfreadCopiesAnInterface := by
  intro s id
  refine ⟨fun hrange => (if_pos hrange).trans (next_refuse_eq_refusedAs _ .range s), fun hid => ?_⟩
  refine ⟨_, if_neg (not_le.2 hid), rfl, ?_, sameBytes_of_eq rfl rfl rfl, rfl⟩
  cases (s.iface id).valid <;> rfl

end Sys2Proof.Claims

/-! PROOFS of the codec statements: header fields as big-endian numbers, the checksum step on its field, and the reply frame
as three runs of bytes around its two checksum fields (42_codec.md). -/

namespace Sys2Proof.Machine

open Sys2Proof.Claims

/-! A field's number, read and written (20_memory.md R65). -/

theorem fieldNumber_eq_byteTotal (s : State) (b : Buf) (a n : Nat) :
    fieldNumber s b a n = byteTotal (s.byte b) a (fun k => n - 1 - k) n := rfl

theorem fieldNumber_succ (s : State) (b : Buf) (a n : Nat) :
    fieldNumber s b a (n + 1) = fieldNumber s b a n * 256 + (s.byte b (a + n)).toNat := by
  have hraise : byteTotal (s.byte b) a (fun k => n - k) n = fieldNumber s b a n * 256 := by
    rw [fieldNumber, ← List.sum_map_mul_right, byteTotal]
    congr 1
    refine List.map_congr_left fun k hk => ?_
    have hkn : k < n := List.mem_range.1 hk
    rw [show n - k = n - 1 - k + 1 by omega, pow_succ, mul_assoc]
  rw [fieldNumber_eq_byteTotal, byteTotal_succ, Nat.add_sub_cancel, hraise, Nat.sub_self, pow_zero, mul_one]

theorem fieldNumber_eq_bigEndian (s : State) (b : Buf) (a n : Nat) : fieldNumber s b a n = bigEndian (s.bytes b a n) := by
  induction n with
  | zero => rfl
  | succ n ih => rw [fieldNumber_succ, bigEndian_bytes_succ, ih]

theorem State.memRead_toNat_eq_fieldNumber (s : State) (b : Buf) (a : Nat) {n : Nat} (hn : n ≤ 4) :
    (s.memRead b a n).toNat = fieldNumber s b a n := by
  rw [State.memRead_toNat s b a n hn, fieldNumber_eq_bigEndian]

theorem fieldNumber_lt (s : State) (b : Buf) (a n : Nat) : fieldNumber s b a n < 256 ^ n :=
  fieldNumber_eq_bigEndian s b a n ▸ bigEndian_bytes_lt s b a n

theorem fieldNumber_memWrite (s : State) (b : Buf) (a n : Nat) (v : Word) :
    fieldNumber (s.memWrite b a n v) b a n = v.toNat % 2 ^ (8 * n) := by
  rw [fieldNumber_eq_bigEndian, bigEndian_bytes_memWrite s b a n n v le_rfl]
  simp

theorem fieldNumber_congr {s t : State} {b : Buf} {a n : Nat} (h : ∀ k < n, t.byte b (a + k) = s.byte b (a + k)) :
    fieldNumber t b a n = fieldNumber s b a n :=
  byteTotal_congr _ h

theorem toNat_nibbles (x y : BitVec 4) : (x ++ y : Byte).toNat = x.toNat * 16 + y.toNat := by
  rw [BitVec.toNat_append, ← Nat.shiftLeft_add_eq_or_of_lt y.isLt, Nat.shiftLeft_eq]

/-! Frames of the byte writes. -/

theorem keepsBytesOutside_memWrite (s : State) (b : Buf) (a n : Nat) (v : Word) :
    KeepsBytesOutside b a n s (s.memWrite b a n v) := fun b' k houtside => by
  rw [State.byte_memWrite, if_neg houtside]

/-- A range that holds both ranges of two changes holds the change they make together. -/
theorem keepsBytesOutside_trans {b : Buf} {a n a₁ n₁ a₂ n₂ : Nat} {s t u : State} (h : KeepsBytesOutside b a₁ n₁ s t)
    (h' : KeepsBytesOutside b a₂ n₂ t u) (h₁ : a ≤ a₁ ∧ a₁ + n₁ ≤ a + n) (h₂ : a ≤ a₂ ∧ a₂ + n₂ ≤ a + n) :
    KeepsBytesOutside b a n s u := by
  intro b' k houtside
  rw [h' b' k fun ⟨hb, hle, hlt⟩ => houtside ⟨hb, by omega, by omega⟩,
    h b' k fun ⟨hb, hle, hlt⟩ => houtside ⟨hb, by omega, by omega⟩]

theorem keepsBytesOutside_refreshChecksum (b : Buf) (fld off len : Nat) (s : State) :
    KeepsBytesOutside b fld 2 s (refreshChecksum b fld off len s) := by
  intro b' k houtside
  rw [refreshChecksum_byte, if_neg fun ⟨hb, hk⟩ => houtside ⟨hb, by omega, by omega⟩,
    if_neg fun ⟨hb, hk⟩ => houtside ⟨hb, by omega, by omega⟩]

/-! The header fields by id (42_codec.md R150, R153, R154). -/

theorem fieldOfId_eq_none {f : Nat} (h : 18 < f) : fieldOfId f = none := by
  obtain ⟨k, rfl⟩ := Nat.exists_eq_add_of_le' h
  rfl

theorem exec_rdf_of_none {f : Nat} (h : fieldOfId f = none) (b : Buf) (s : State) :
    exec (.rdf b f) s = .next (refuse (encode (.rdf b f)) .range s) := by
  simp only [exec, execRdf, h]

theorem exec_rdf_of_some {f : Nat} {fld : Field} (h : fieldOfId f = some fld) (b : Buf) (s : State) :
    exec (.rdf b f) s = .next (readField b fld s) := by
  simp only [exec, execRdf, h]

theorem exec_wrf_of_none {f : Nat} (h : fieldOfId f = none) (b : Buf) (s : State) :
    exec (.wrf b f) s = .next (refuse (encode (.wrf b f)) .range s) := by
  simp only [exec, execWrf, h]

theorem exec_wrf_of_some {f : Nat} {fld : Field} (h : fieldOfId f = some fld) (b : Buf) (s : State) :
    exec (.wrf b f) s = .next (writeField b fld s) := by
  simp only [exec, execWrf, h]

/-- The fields with a meaning of their own: the two MAC addresses and the two nibbles. -/
def Field.isSpecial (fld : Field) : Bool := fld ∈ [.ethDst, .ethSrc, .ipVer, .ipIhl]

theorem readField_of_not_isSpecial {fld : Field} (h : fld.isSpecial = false) (b : Buf) (s : State) :
    readField b fld s = { s with dr0 := s.memRead b (fieldOffset fld) (fieldBytes fld) } := by
  cases fld with
  | ethDst | ethSrc | ipVer | ipIhl => exact absurd h (by decide)
  | _ => rfl

theorem writeField_of_not_isSpecial {fld : Field} (h : fld.isSpecial = false) (b : Buf) (s : State) :
    writeField b fld s = s.memWrite b (fieldOffset fld) (fieldBytes fld) s.dr0 := by
  cases fld with
  | ethDst | ethSrc | ipVer | ipIhl => exact absurd h (by decide)
  | _ => rfl

/-- The model's field table agrees with the statements' table of plain fields. -/
theorem fieldOfId_of_mem_plainFields {f off n : Nat} (h : (f, off, n) ∈ plainFields) :
    ∃ fld, fieldOfId f = some fld ∧ fld.isSpecial = false ∧ fieldOffset fld = off ∧ fieldBytes fld = n ∧ n ≤ 4 := by
  have htable : ∀ p ∈ plainFields, ∃ fld ∈ fieldOfId p.1,
      fld.isSpecial = false ∧ fieldOffset fld = p.2.1 ∧ fieldBytes fld = p.2.2 ∧ p.2.2 ≤ 4 := by decide
  exact htable _ h

theorem exec_rdf_plain {f off n : Nat} (h : (f, off, n) ∈ plainFields) (b : Buf) (s : State) :
    exec (.rdf b f) s = .next { s with dr0 := s.memRead b off n } ∧ n ≤ 4 := by
  obtain ⟨fld, hid, hplain, rfl, rfl, hn⟩ := fieldOfId_of_mem_plainFields h
  exact ⟨by rw [exec_rdf_of_some hid, readField_of_not_isSpecial hplain], hn⟩

theorem exec_wrf_plain {f off n : Nat} (h : (f, off, n) ∈ plainFields) (b : Buf) (s : State) :
    exec (.wrf b f) s = .next (s.memWrite b off n s.dr0) := by
  obtain ⟨fld, hid, hplain, rfl, rfl, -⟩ := fieldOfId_of_mem_plainFields h
  rw [exec_wrf_of_some hid, writeField_of_not_isSpecial hplain]

theorem fieldOfId_of_mem_macFields {f off : Nat} (h : (f, off) ∈ [(0, 0), (1, 6)]) :
    ∃ fld, fieldOfId f = some fld ∧ (∀ b s, readField b fld s = readMac b off s) ∧
      ∀ b s, writeField b fld s = writeMac b off s := by
  rcases List.mem_pair.1 h with hdst | hsrc
  · cases hdst
    exact ⟨.ethDst, rfl, fun _ _ => rfl, fun _ _ => rfl⟩
  · cases hsrc
    exact ⟨.ethSrc, rfl, fun _ _ => rfl, fun _ _ => rfl⟩

theorem exec_rdf_mac {f off : Nat} (h : (f, off) ∈ [(0, 0), (1, 6)]) (b : Buf) (s : State) :
    exec (.rdf b f) s = .next (readMac b off s) := by
  obtain ⟨fld, hid, hread, -⟩ := fieldOfId_of_mem_macFields h
  rw [exec_rdf_of_some hid, hread]

theorem exec_wrf_mac {f off : Nat} (h : (f, off) ∈ [(0, 0), (1, 6)]) (b : Buf) (s : State) :
    exec (.wrf b f) s = .next (writeMac b off s) := by
  obtain ⟨fld, hid, -, hwrite⟩ := fieldOfId_of_mem_macFields h
  rw [exec_wrf_of_some hid, hwrite]

theorem readMac_dr1_toNat (b : Buf) (off : Nat) (s : State) :
    (readMac b off s).dr1.toNat = fieldNumber s b (off + 4) 2 * 2 ^ 16 := by
  have hlow := fieldNumber_lt s b (off + 4) 2
  rw [readMac, BitVec.toNat_shiftLeft, Nat.shiftLeft_eq, State.memRead_toNat_eq_fieldNumber s b _ (by omega)]
  omega

theorem fieldNumber_writeMac_high (b : Buf) (off : Nat) (s : State) :
    fieldNumber (writeMac b off s) b off 4 = s.dr0.toNat := by
  rw [writeMac, fieldNumber_congr (s := s.memWrite b off 4 s.dr0), fieldNumber_memWrite]
  · exact Nat.mod_eq_of_lt s.dr0.isLt
  · exact fun k hk => keepsBytesOutside_memWrite _ _ _ _ _ b _ (by omega)

theorem fieldNumber_writeMac_low (b : Buf) (off : Nat) (s : State) :
    fieldNumber (writeMac b off s) b (off + 4) 2 = s.dr1.toNat / 2 ^ 16 := by
  have hhigh := s.dr1.isLt
  rw [writeMac, fieldNumber_memWrite, BitVec.toNat_ushiftRight, Nat.shiftRight_eq_div_pow]
  omega

theorem keepsBytesOutside_writeMac (b : Buf) (off : Nat) (s : State) :
    KeepsBytesOutside b off 6 s (writeMac b off s) :=
  keepsBytesOutside_trans (keepsBytesOutside_memWrite s b off 4 s.dr0) (keepsBytesOutside_memWrite _ b (off + 4) 2 _)
    (by omega) (by omega)

theorem State.byte_writeByte_self (s : State) (b : Buf) (a : Nat) (v : Byte) : (s.writeByte b a v).byte b a = v := by
  rw [State.byte_writeByte, if_pos ⟨rfl, rfl⟩]

/-! The checksum step (42_codec.md R160, R161). -/

theorem latchedFrom_runChecksum (b : Buf) (off len : Nat) (s : State) :
    LatchedFrom s (runChecksum b off len s) b off len := by
  refine ⟨?_, ?_, rfl, rfl, rfl⟩
  · rw [runChecksum_csAcc, accumulate_eq_laneSum]
  · rw [runChecksum_csFold, accumulate_eq_laneSum]

theorem latchedFrom_memWrite {s t : State} {b : Buf} {off len : Nat} (h : LatchedFrom s t b off len) (b' : Buf)
    (a n : Nat) (v : Word) : LatchedFrom s (t.memWrite b' a n v) b off len := by
  cases b' <;> exact h

/-- The registers hold the invocation on the range with the field zeroed. -/
theorem latchedFrom_refreshChecksum (b : Buf) (fld off len : Nat) (s : State) :
    LatchedFrom (s.memWrite b fld 2 0) (refreshChecksum b fld off len s) b off len :=
  latchedFrom_memWrite (latchedFrom_runChecksum b off len (s.memWrite b fld 2 0)) b fld 2 _

/-- The field holds the result, its high byte first. -/
theorem refreshChecksum_field (b : Buf) (fld off len : Nat) (s : State) :
    (refreshChecksum b fld off len s).byte b fld = (refreshChecksum b fld off len s).csRes.extractLsb' 8 8 ∧
      (refreshChecksum b fld off len s).byte b (fld + 1) = (refreshChecksum b fld off len s).csRes.extractLsb' 0 8 := by
  simp [refreshChecksum_byte, refreshChecksum_csRes]

end Sys2Proof.Machine

namespace Sys2Proof.Claims

open Sys2Proof.Machine

/-- Settles O49: clearing writes zeros over the indices below `FB_SIZE`. -/
theorem bufclrZeroesTheBuffer : Obligations.BufclrZeroesTheBuffer := by
  intro s b
  refine ⟨s.clearBuf b, rfl, fun k hk => ?_, fun b' k houtside => ?_, onlyBuffers_setBuf s b _⟩
  · rw [State.byte_clearBuf, if_pos ⟨rfl, hk⟩]
  · rw [State.byte_clearBuf, if_neg fun ⟨hb, hk⟩ => houtside ⟨hb, by omega, by omega⟩]

/-- Settles O47: what each kind of field puts in the data registers, as a number. -/
theorem rdfReadsTheField : Obligations.RdfReadsTheField := by
  intro s b
  refine ⟨fun f hf => ?_, fun f off n hf => ?_, fun f off hf => ?_, ?_, ?_⟩
  · exact (exec_rdf_of_none (fieldOfId_eq_none hf) b s).trans (next_refuse_eq_refusedAs _ .range s)
  · obtain ⟨hexec, hn⟩ := exec_rdf_plain hf b s
    exact ⟨_, hexec, State.memRead_toNat_eq_fieldNumber s b off hn, sameBytes_of_eq rfl rfl rfl, rfl⟩
  · exact ⟨_, exec_rdf_mac hf b s, State.memRead_toNat_eq_fieldNumber s b off le_rfl, readMac_dr1_toNat b off s,
      sameBytes_of_eq rfl rfl rfl, rfl⟩
  · refine ⟨_, exec_rdf_of_some (fld := .ipVer) rfl b s, ?_, sameBytes_of_eq rfl rfl rfl, rfl⟩
    have hbyte := (s.byte b 14).isLt
    simp only [readField, BitVec.toNat_setWidth, BitVec.extractLsb'_toNat, Nat.shiftRight_eq_div_pow]
    omega
  · refine ⟨_, exec_rdf_of_some (fld := .ipIhl) rfl b s, ?_, sameBytes_of_eq rfl rfl rfl, rfl⟩
    simp only [readField, BitVec.toNat_setWidth, BitVec.extractLsb'_toNat, Nat.shiftRight_zero]
    omega

/-- Settles O48: what each kind of field leaves in its bytes, as a number. -/
theorem wrfWritesTheField : Obligations.WrfWritesTheField := by
  intro s b
  refine ⟨fun f hf => ?_, fun f off n hf => ?_, fun f off hf => ?_, ?_, ?_⟩
  · exact (exec_wrf_of_none (fieldOfId_eq_none hf) b s).trans (next_refuse_eq_refusedAs _ .range s)
  · exact ⟨_, exec_wrf_plain hf b s, fieldNumber_memWrite s b off n s.dr0, keepsBytesOutside_memWrite s b off n _,
      onlyBuffers_setBuf s b _⟩
  · exact ⟨_, exec_wrf_mac hf b s, fieldNumber_writeMac_high b off s, fieldNumber_writeMac_low b off s,
      keepsBytesOutside_writeMac b off s, onlyBuffers_writeMac b off s⟩
  · refine ⟨_, exec_wrf_of_some (fld := .ipVer) rfl b s, ?_, keepsBytesOutside_writeByte s b 14 _,
      onlyBuffers_setBuf s b _⟩
    rw [writeField, State.byte_writeByte_self, toNat_nibbles, lowBits_eq, BitVec.extractLsb'_toNat, Nat.shiftRight_zero]
    rfl
  · refine ⟨_, exec_wrf_of_some (fld := .ipIhl) rfl b s, ?_, keepsBytesOutside_writeByte s b 14 _,
      onlyBuffers_setBuf s b _⟩
    have hbyte := (s.byte b 14).isLt
    rw [writeField, State.byte_writeByte_self, toNat_nibbles, lowBits_eq, BitVec.extractLsb'_toNat,
      Nat.shiftRight_eq_div_pow]
    omega

/-- Settles O50: both commands are the checksum step on their field and range. -/
theorem headerChecksumCommands : Obligations.HeaderChecksumCommands := by
  intro s b
  obtain ⟨hipHigh, hipLow⟩ := refreshChecksum_field b 24 14 20 s
  obtain ⟨hicmpHigh, hicmpLow⟩ := refreshChecksum_field b 36 34 8 s
  exact ⟨⟨refreshIpChecksum b s, rfl, latchedFrom_refreshChecksum b 24 14 20 s, hipHigh, hipLow,
      keepsBytesOutside_refreshChecksum b 24 14 20 s, onlyBuffersAndChecksum_refreshChecksum b 24 14 20 s,
      fun hseed => refreshIpChecksum_validates hseed b⟩,
    ⟨refreshIcmpChecksum b s, rfl, latchedFrom_refreshChecksum b 36 34 8 s, hicmpHigh, hicmpLow,
      keepsBytesOutside_refreshChecksum b 36 34 8 s, onlyBuffersAndChecksum_refreshChecksum b 36 34 8 s,
      fun hseed => refreshIcmpChecksum_validates hseed b⟩⟩

end Sys2Proof.Claims

/-! The reply frame (42_codec.md R166, R167, R169). -/

namespace Sys2Proof.Machine

open Sys2Proof.Claims

/-! Runs of bytes. -/

theorem State.bytes_add (s : State) (b : Buf) (a m n : Nat) :
    s.bytes b a (m + n) = s.bytes b a m ++ s.bytes b (a + m) n := by
  simp [State.bytes, List.range_add, Nat.add_assoc]

theorem State.bytes_two (s : State) (b : Buf) (a : Nat) : s.bytes b a 2 = [s.byte b a, s.byte b (a + 1)] := rfl

theorem State.bytes_congr {s t : State} {b : Buf} {a n : Nat} (h : ∀ k, a ≤ k → k < a + n → t.byte b k = s.byte b k) :
    t.bytes b a n = s.bytes b a n :=
  List.map_congr_left fun k hk => h (a + k) (by omega) (by have := List.mem_range.1 hk; omega)

theorem State.bytes_writeBytes_self (s : State) (b : Buf) {a n : Nat} {l : List Byte} (h : l.length = n) :
    (s.writeBytes b a l).bytes b a n = l := by
  subst h
  refine List.ext_getElem (by simp) fun k hk hk' => ?_
  simp [State.bytes, State.byte_writeBytes, hk']

theorem State.bytes_writeBytes_of_disjoint (s : State) (b : Buf) {a a' n : Nat} (l : List Byte)
    (h : a' + n ≤ a ∨ a + l.length ≤ a') : (s.writeBytes b a l).bytes b a' n = s.bytes b a' n :=
  State.bytes_congr fun k hle hlt => by rw [State.byte_writeBytes, if_neg (by omega)]

theorem State.bytes_clearBuf (s : State) (b : Buf) {a n : Nat} (h : a + n ≤ s.params.fbSize) :
    (s.clearBuf b).bytes b a n = List.replicate n 0 := by
  refine List.ext_getElem (by simp) fun k hk _ => ?_
  have hkn : k < n := by simpa using hk
  simp [State.bytes, State.byte_clearBuf, show a + k < s.params.fbSize by omega]

theorem Store.putMany_append {α : Type} (m : Store α) (a : Nat) (l l' : List α) :
    Store.putMany (Store.putMany m a l) (a + l.length) l' = Store.putMany m a (l ++ l') := by
  induction l generalizing m a with
  | nil => rfl
  | cons v l ih =>
    rw [Store.putMany, List.cons_append, Store.putMany, ← ih, List.length_cons, Nat.add_right_comm, Nat.add_assoc]

/-- Two writes one after the other in the buffer are one write. -/
theorem State.writeBytes_writeBytes (s : State) (b : Buf) {a a' : Nat} (l l' : List Byte) (h : a' = a + l.length) :
    (s.writeBytes b a l).writeBytes b a' l' = s.writeBytes b a (l ++ l') := by
  subst h
  simp only [State.writeBytes, State.buf_setBuf_self, Store.putMany_append]
  cases b <;> rfl

theorem State.writeByte_eq_writeBytes (s : State) (b : Buf) (a : Nat) (v : Byte) :
    s.writeByte b a v = s.writeBytes b a [v] := rfl

@[simp] theorem State.bytes_rx_writeBytes_tx (s : State) (a a' n : Nat) (l : List Byte) :
    (s.writeBytes .tx a l).bytes .rx a' n = s.bytes .rx a' n := rfl

@[simp] theorem State.bytes_rx_clearBuf_tx (s : State) (a n : Nat) :
    (s.clearBuf .tx).bytes .rx a n = s.bytes .rx a n := rfl

/-! The template: the frame without its two checksums. -/

/-- Bytes 0 to 23 of the reply to the frame in RXB (42_codec.md R167). -/
def replyFront (s : State) : List Byte :=
  s.bytes .rx 6 6 ++ s.bytes .rx 0 6 ++ [0x08, 0x00, 0x45, 0x00, 0x00, 0x1C] ++ s.bytes .rx 18 2 ++
    [0x00, 0x00, s.params.replyTtl, 0x01]

/-- Bytes 26 to 33 of the reply: the IP addresses swapped (42_codec.md R167). -/
def replyAddresses (s : State) : List Byte := s.bytes .rx 30 4 ++ s.bytes .rx 26 4

/-- The reply frame with zeros in both checksum fields. -/
def replyTemplate (ty : Byte) (s : State) : State :=
  ((((s.clearBuf .tx).writeBytes .tx 0 (replyFront s)).writeBytes .tx 26 (replyAddresses s)).writeBytes .tx 34
    [ty, 0x00]).writeBytes .tx 38 (s.bytes .rx 38 2)

theorem length_replyFront (s : State) : (replyFront s).length = 24 := by simp [replyFront]

theorem length_replyAddresses (s : State) : (replyAddresses s).length = 8 := by simp [replyAddresses]

/-- The writes before the first checksum are two runs of bytes. -/
theorem replyFilled_eq (s : State) :
    replyIpv4 (replyEthernet (s.clearBuf .tx)) =
      ((s.clearBuf .tx).writeBytes .tx 0 (replyFront s)).writeBytes .tx 26 (replyAddresses s) := by
  have hethertype : beBytes 2 Config.ethertypeIpv4 = [0x08, 0x00] := by decide
  have hlength : beBytes 2 (BitVec.ofNat 32 (Config.ipHlen + Config.icmpHlen)) = [0x00, 0x1C] := by decide
  have hfragment : beBytes 2 0x0000 = [0x00, 0x00] := by decide
  simp (disch := simp) only [replyIpv4, replyEthernet, State.memWrite, State.writeByte_eq_writeBytes, hethertype,
    hlength, hfragment, Config.ipprotoIcmp, State.bytes_rx_writeBytes_tx, State.bytes_rx_clearBuf_tx,
    State.writeBytes_params, State.clearBuf_params, State.writeBytes_writeBytes, replyFront, replyAddresses,
    List.append_assoc, List.cons_append, List.nil_append]

theorem replyIcmp_eq (ty : Byte) (s : State) :
    replyIcmp ty s = (s.writeBytes .tx 34 [ty, 0x00]).writeBytes .tx 38 (s.bytes .rx 38 2) := by
  simp (disch := simp) only [replyIcmp, State.writeByte_eq_writeBytes, State.writeBytes_writeBytes,
    List.cons_append, List.nil_append]

/-- The template is what the reply's writes leave without the two checksum steps. -/
theorem replyTemplate_eq (ty : Byte) (s : State) :
    replyTemplate ty s = replyIcmp ty (replyIpv4 (replyEthernet (s.clearBuf .tx))) := by
  rw [replyIcmp_eq, replyFilled_eq, State.bytes_rx_writeBytes_tx, State.bytes_rx_writeBytes_tx,
    State.bytes_rx_clearBuf_tx, replyTemplate]

theorem keepsBytesOutside_writeBytes {b : Buf} {a n : Nat} {s t : State} (h : KeepsBytesOutside b a n s t) (b' : Buf)
    (a' : Nat) (l : List Byte) : KeepsBytesOutside b a n (s.writeBytes b' a' l) (t.writeBytes b' a' l) := by
  intro b'' k houtside
  rw [State.byte_writeBytes, State.byte_writeBytes, h b'' k houtside]

theorem keepsBytesOutside_replyIcmp {a n : Nat} {s t : State} (h : KeepsBytesOutside .tx a n s t) (ty : Byte) :
    KeepsBytesOutside .tx a n (replyIcmp ty s) (replyIcmp ty t) := by
  have hidentifier : t.bytes .rx 38 2 = s.bytes .rx 38 2 := State.bytes_congr fun k _ _ => h .rx k nofun
  rw [replyIcmp_eq, replyIcmp_eq, hidentifier]
  exact keepsBytesOutside_writeBytes (keepsBytesOutside_writeBytes h _ _ _) _ _ _

/-- The reply before its ICMP checksum: the headers, the ICMP type, code and identifier. -/
def replyBeforeIcmpChecksum (ty : Byte) (s : State) : State := replyIcmp ty (replyHeaders s)

theorem replyBeforeIcmpChecksum_params (ty : Byte) (s : State) : (replyBeforeIcmpChecksum ty s).params = s.params := by
  rw [replyBeforeIcmpChecksum, replyIcmp_params, replyHeaders_params]

/-- Up to its ICMP checksum the reply is the template but for the IPv4 checksum. -/
theorem keepsBytesOutside_replyBeforeIcmpChecksum (ty : Byte) (s : State) :
    KeepsBytesOutside .tx 24 2 (replyTemplate ty s) (replyBeforeIcmpChecksum ty s) := by
  rw [replyTemplate_eq]
  exact keepsBytesOutside_replyIcmp (keepsBytesOutside_refreshChecksum .tx 24 _ _ _) ty

theorem keepsBytesOutside_makeReply_icmpChecksum (ty : Byte) (s : State) :
    KeepsBytesOutside .tx 36 2 (replyBeforeIcmpChecksum ty s) (makeReply ty s) := fun b k houtside =>
  (byte_setTxDescriptor _ _ _ b k).trans (keepsBytesOutside_refreshChecksum .tx 36 _ _ _ b k houtside)

theorem makeReply_byte_of_ne {ty : Byte} {s : State} {k : Nat} (hip : ¬(24 ≤ k ∧ k < 26)) (hicmp : ¬(36 ≤ k ∧ k < 38)) :
    (makeReply ty s).byte .tx k = (replyTemplate ty s).byte .tx k :=
  (keepsBytesOutside_makeReply_icmpChecksum ty s .tx k fun ⟨_, h⟩ => hicmp h).trans
    (keepsBytesOutside_replyBeforeIcmpChecksum ty s .tx k fun ⟨_, h⟩ => hip h)

/-- A run of the reply's bytes that meets neither checksum field is the template's. -/
theorem makeReply_bytes (ty : Byte) (s : State) {a n : Nat} (hip : a + n ≤ 24 ∨ 26 ≤ a) (hicmp : a + n ≤ 36 ∨ 38 ≤ a) :
    (makeReply ty s).bytes .tx a n = (replyTemplate ty s).bytes .tx a n :=
  State.bytes_congr fun _ _ _ => makeReply_byte_of_ne (by omega) (by omega)

theorem makeReply_bytes_front (ty : Byte) (s : State) : (makeReply ty s).bytes .tx 0 24 = replyFront s := by
  rw [makeReply_bytes ty s (by omega) (by omega), replyTemplate, State.bytes_writeBytes_of_disjoint _ _ _ (by omega),
    State.bytes_writeBytes_of_disjoint _ _ _ (by omega), State.bytes_writeBytes_of_disjoint _ _ _ (by omega),
    State.bytes_writeBytes_self _ _ (length_replyFront s)]

theorem makeReply_bytes_addresses (ty : Byte) (s : State) : (makeReply ty s).bytes .tx 26 8 = replyAddresses s := by
  rw [makeReply_bytes ty s (by omega) (by omega), replyTemplate, State.bytes_writeBytes_of_disjoint _ _ _ (by omega),
    State.bytes_writeBytes_of_disjoint _ _ _ (by omega), State.bytes_writeBytes_self _ _ (length_replyAddresses s)]

theorem makeReply_bytes_typeAndCode (ty : Byte) (s : State) : (makeReply ty s).bytes .tx 34 2 = [ty, 0x00] := by
  rw [makeReply_bytes ty s (by omega) (by omega), replyTemplate, State.bytes_writeBytes_of_disjoint _ _ _ (by omega),
    State.bytes_writeBytes_self _ _ (n := 2) (l := [ty, 0x00]) rfl]

theorem makeReply_bytes_identifier (ty : Byte) (s : State) : (makeReply ty s).bytes .tx 38 2 = s.bytes .rx 38 2 := by
  rw [makeReply_bytes ty s (by omega) (by omega), replyTemplate, State.bytes_writeBytes_self _ _ (State.length_bytes ..)]

/-- Nothing is written from byte 40 on: cleared below `FB_SIZE`, as before above it. -/
theorem makeReply_byte_of_le (ty : Byte) (s : State) {k : Nat} (hk : 40 ≤ k) :
    (makeReply ty s).byte .tx k = (s.clearBuf .tx).byte .tx k := by
  have hfront := length_replyFront s
  have haddresses := length_replyAddresses s
  rw [makeReply_byte_of_ne (by omega) (by omega), replyTemplate]
  iterate 4 rw [State.byte_writeBytes, if_neg (by simp; omega)]

theorem makeReply_bytes_sequence (ty : Byte) {s : State} (hsize : 42 ≤ s.params.fbSize) :
    (makeReply ty s).bytes .tx 40 2 = [0x00, 0x00] :=
  (State.bytes_congr fun _ hk _ => makeReply_byte_of_le ty s hk).trans (State.bytes_clearBuf s .tx hsize)

theorem keepsBytesOutside_makeReply (ty : Byte) {s : State} (hsize : 42 ≤ s.params.fbSize) :
    KeepsBytesOutside .tx 0 s.params.fbSize s (makeReply ty s) := by
  intro b k houtside
  cases b with
  | rx =>
    obtain ⟨m, acc, f, o, r, z, hframe⟩ := makeReply_frame ty s
    rw [hframe]
    rfl
  | tx =>
    have hk : s.params.fbSize ≤ k := by simpa using houtside
    rw [makeReply_byte_of_le ty s (by omega), State.byte_clearBuf, if_neg (by omega)]

/-! The two checksums of the reply. -/

theorem laneSum_congr {s t : State} {b : Buf} {off len : Nat} (hparams : t.params = s.params)
    (hbytes : ∀ j < len, t.byte b (off + j) = s.byte b (off + j)) : laneSum t b off len = laneSum s b off len := by
  rw [laneSum_eq_laneTotal, laneSum_eq_laneTotal, hparams]
  congr 1
  exact byteTotal_congr _ hbytes

theorem latchedFrom_congr {s s' t : State} {b : Buf} {off len : Nat} (hparams : s'.params = s.params)
    (hbytes : ∀ j < len, s'.byte b (off + j) = s.byte b (off + j)) (h : LatchedFrom s t b off len) :
    LatchedFrom s' t b off len := by
  rw [LatchedFrom, laneSum_congr hparams hbytes, checksumOf_congr hparams hbytes]
  exact h

/-- A written field hides what the two states held in it. -/
theorem State.byte_memWrite_congr {s t : State} {b : Buf} {a n k : Nat} (v : Word)
    (h : ¬(a ≤ k ∧ k < a + n) → t.byte b k = s.byte b k) :
    (t.memWrite b a n v).byte b k = (s.memWrite b a n v).byte b k := by
  rw [State.byte_memWrite, State.byte_memWrite]
  split_ifs with hin
  · rfl
  · exact h fun hk => hin ⟨rfl, hk⟩

/-- The IPv4 checksum of the reply is the checksum of its own range with the field zeroed. -/
theorem makeReply_bytes_ipChecksum (ty : Byte) (s : State) :
    (makeReply ty s).bytes .tx 24 2 =
      [(checksumOf ((makeReply ty s).memWrite .tx 24 2 0) .tx 14 20).extractLsb' 8 8,
        (checksumOf ((makeReply ty s).memWrite .tx 24 2 0) .tx 14 20).extractLsb' 0 8] := by
  have hheaders {k : Nat} (hk : k < 34) : (makeReply ty s).byte .tx k = (replyHeaders s).byte .tx k :=
    (makeReply_byte ty s k).trans (icmpHeader_byte_of_lt ty _ hk)
  set filled := replyIpv4 (replyEthernet (s.clearBuf .tx))
  have hkept : KeepsBytesOutside .tx 24 2 filled (replyHeaders s) := keepsBytesOutside_refreshChecksum .tx 24 _ _ _
  have hsource : checksumOf ((makeReply ty s).memWrite .tx 24 2 0) .tx 14 20 =
      checksumOf (filled.memWrite .tx 24 2 0) .tx 14 20 := by
    refine checksumOf_congr ?_ fun j hj => State.byte_memWrite_congr 0 fun hout => ?_
    · rw [State.memWrite_params, State.memWrite_params, makeReply_params, replyFilled_params]
    · rw [hheaders (by omega), hkept .tx _ fun ⟨_, hin⟩ => hout hin]
  obtain ⟨hhigh, hlow⟩ := refreshChecksum_field .tx 24 14 20 filled
  rw [refreshChecksum_csRes] at hhigh hlow
  rw [State.bytes_two, hheaders (by omega), hheaders (by omega), hsource]
  exact congrArg₂ (fun x y => [x, y]) hhigh hlow

theorem latchedFrom_setTxDescriptor {s t : State} {b : Buf} {off n : Nat} (h : LatchedFrom s t b off n) (len i : Half) :
    LatchedFrom s { t with txLen := len, txIf := i } b off n := h

/-- The checksum registers after the reply hold the ICMP invocation (42_codec.md R167). -/
theorem latchedFrom_makeReply (ty : Byte) (s : State) :
    LatchedFrom ((makeReply ty s).memWrite .tx 36 2 0) (makeReply ty s) .tx 34 8 := by
  have hlatched : LatchedFrom ((replyBeforeIcmpChecksum ty s).memWrite .tx 36 2 0) (makeReply ty s) .tx 34 8 :=
    latchedFrom_setTxDescriptor (latchedFrom_refreshChecksum .tx 36 34 8 (replyBeforeIcmpChecksum ty s)) _ _
  refine latchedFrom_congr ?_ (fun j _ => State.byte_memWrite_congr 0 fun hout => ?_) hlatched
  · rw [State.memWrite_params, State.memWrite_params, makeReply_params, replyBeforeIcmpChecksum_params]
  · exact keepsBytesOutside_makeReply_icmpChecksum ty s .tx _ fun ⟨_, hin⟩ => hout hin

theorem makeReply_bytes_icmpChecksum (ty : Byte) (s : State) :
    (makeReply ty s).bytes .tx 36 2 =
      [(makeReply ty s).csRes.extractLsb' 8 8, (makeReply ty s).csRes.extractLsb' 0 8] := by
  obtain ⟨hhigh, hlow⟩ := refreshChecksum_field .tx 36 34 8 (replyBeforeIcmpChecksum ty s)
  rw [State.bytes_two, makeReply_byte, makeReply_byte]
  exact congrArg₂ (fun x y => [x, y]) hhigh hlow

/-- The logical sum of whole words is the seed and its 16-bit fields. -/
theorem logicalSum_eq_sum_fieldNumber (s : State) (b : Buf) (off m : Nat) :
    logicalSum s b off (2 * m) =
      s.params.csumSeed.toNat + ((List.range m).map fun k => fieldNumber s b (off + 2 * k) 2).sum := by
  have hword (k : Nat) : fieldNumber s b (off + 2 * k) 2 = logicalTotal (s.byte b) (off + 2 * k) (2 * 1) := by
    simp [fieldNumber_eq_byteTotal, logicalTotal, byteTotal_succ]
  rw [logicalSum_eq_logicalTotal]
  congr 1
  induction m with
  | zero => rfl
  | succ m ih =>
    rw [Nat.mul_succ, logicalTotal_add _ _ m 2, ih, List.range_succ, List.map_append, List.sum_append, List.map_singleton,
      List.sum_singleton, hword]

/-- The ICMP header of the reply has two words that are not zero (42_codec.md R169). -/
theorem logicalSum_makeReply_icmp (ty : Byte) {s : State} (hsize : 42 ≤ s.params.fbSize) :
    logicalSum ((makeReply ty s).memWrite .tx 36 2 0) .tx 34 8 =
      s.params.csumSeed.toNat + (ty.toNat * 256 + fieldNumber s .rx 38 2) := by
  set zeroed := (makeReply ty s).memWrite .tx 36 2 0 with hzeroed
  have hkept {a : Nat} (h : a + 2 ≤ 36 ∨ 38 ≤ a) : zeroed.bytes .tx a 2 = (makeReply ty s).bytes .tx a 2 :=
    State.bytes_writeBytes_of_disjoint _ .tx _ h
  have htype : fieldNumber zeroed .tx 34 2 = ty.toNat * 256 := by
    rw [fieldNumber_eq_bigEndian, hkept (by omega), makeReply_bytes_typeAndCode]
    simp [bigEndian]
  have hchecksum : fieldNumber zeroed .tx 36 2 = 0 := fieldNumber_memWrite (makeReply ty s) .tx 36 2 0
  have hidentifier : fieldNumber zeroed .tx 38 2 = fieldNumber s .rx 38 2 := by
    rw [fieldNumber_eq_bigEndian, hkept (by omega), makeReply_bytes_identifier, fieldNumber_eq_bigEndian]
  have hsequence : fieldNumber zeroed .tx 40 2 = 0 := by
    rw [fieldNumber_eq_bigEndian, hkept (by omega), makeReply_bytes_sequence ty hsize]
    rfl
  have hparams : zeroed.params = s.params := by rw [hzeroed, State.memWrite_params, makeReply_params]
  rw [logicalSum_eq_sum_fieldNumber zeroed .tx 34 4, hparams]
  simp [List.range_succ, htype, hchecksum, hidentifier, hsequence]

/-- The closed form of the reply's ICMP checksum for seed 0 (42_codec.md R169). -/
theorem makeReply_csRes_of_seed_zero (ty : Byte) {s : State} (hsize : 42 ≤ s.params.fbSize)
    (hseed : s.params.csumSeed = 0) :
    (makeReply ty s).csRes = complementOfFold (ty.toNat * 256 + fieldNumber s .rx 38 2) := by
  obtain ⟨-, -, -, hres, -⟩ := latchedFrom_makeReply ty s
  have hlegal : SeedLegal ((makeReply ty s).memWrite .tx 36 2 0) :=
    seedLegal_congr (s := s) (.inl hseed) (by rw [State.memWrite_params, makeReply_params])
  rw [hres, checksumOf_eq_complementOfFold hlegal, logicalSum_makeReply_icmp ty hsize, hseed]
  simp

end Sys2Proof.Machine

namespace Sys2Proof.Claims

open Sys2Proof.Machine

/-- Settles O51: the template's runs of bytes, the two checksum fields and the frame, each by its lemma. -/
theorem mkreplyBuildsTheTemplate : Obligations.MkreplyBuildsTheTemplate := by
  intro s ty hsize
  obtain ⟨-, -, -, hres, -⟩ := latchedFrom_makeReply ty s
  refine ⟨makeReply ty s, rfl, makeReply_bytes_front ty s, makeReply_bytes_ipChecksum ty s, ?_,
    makeReply_bytes_icmpChecksum ty s, hres, makeReply_csRes_of_seed_zero ty hsize, ?_, fun k hk hlt => ?_, rfl, rfl,
    latchedFrom_makeReply ty s, keepsBytesOutside_makeReply ty hsize, ?_⟩
  · rw [State.bytes_add _ _ 26 8 2, makeReply_bytes_addresses, makeReply_bytes_typeAndCode, replyAddresses]
  · rw [State.bytes_add _ _ 38 2 2, makeReply_bytes_identifier, makeReply_bytes_sequence ty hsize]
  · rw [makeReply_byte_of_le ty s (by omega), State.byte_clearBuf, if_pos ⟨rfl, hlt⟩]
  · obtain ⟨m, acc, f, o, r, z, hframe⟩ := makeReply_frame ty s
    rw [hframe]

end Sys2Proof.Claims

/-! PROOFS of the forwarding statements: `FWD` ends in one of six verdicts, each with its own next state, and both are
functions of the headers and the tables (43_forward.md; 70_reset_and_hazards.md R242). -/

namespace Sys2Proof.Machine

open Sys2Proof.Claims

/-! What `FWD` reads. -/

/-- The two states have the same parameters and loaded tables (43_forward.md R182). -/
structure SameTables (s t : State) : Prop where
  params : s.params = t.params
  rtLen : s.rtLen = t.rtLen
  atLen : s.atLen = t.atLen
  route : ∀ i < s.rtLen.toNat, s.route i = t.route i
  arp : ∀ i < s.atLen.toNat, s.arp i = t.arp i
  iface : ∀ i < s.params.nIf, s.iface i = t.iface i

/-- The two states agree on everything that decides what `FWD` does (43_forward.md R182). -/
structure SameInputs (s t : State) : Prop extends SameTables s t where
  rxIf : s.rxIf = t.rxIf
  rxLen : s.rxLen = t.rxLen
  header : ∀ k < 42, s.byte .rx k = t.byte .rx k

theorem SameTables.lookup_eq {s t : State} (h : SameTables s t) (d : Word) : lookup s d = lookup t d := by
  rw [lookup, lookup, ← h.rtLen]
  exact lookupIn_congr (fun i hi => h.route i hi ▸ ⟨rfl, rfl⟩) d

theorem SameTables.isLocal_iff {s t : State} (h : SameTables s t) (d : Word) : IsLocal s d ↔ IsLocal t d := by
  rw [IsLocal, IsLocal, ← h.params]
  exact exists_congr fun i => and_congr_right fun hi => by rw [h.iface i hi]

theorem SameTables.noArp_iff {s t : State} (h : SameTables s t) (a : Word) : NoArp s a ↔ NoArp t a := by
  rw [NoArp, NoArp, ← h.atLen]
  exact forall₂_congr fun i hi => by rw [h.arp i hi]

theorem SameTables.firstArp_iff {s t : State} (h : SameTables s t) (a : Word) (j : Nat) :
    FirstArp s a j ↔ FirstArp t a j := by
  rw [FirstArp, FirstArp, ← h.atLen]
  refine and_congr_right fun hj => ?_
  rw [h.arp j hj]
  exact and_congr_right fun _ => forall₂_congr fun i hi => by rw [h.arp i (hi.trans hj)]

theorem sameTables_of_onlyForwardState {s t : State} (h : OnlyForwardState s t) : SameTables s t := by
  rw [h]
  exact ⟨rfl, rfl, rfl, fun _ _ => rfl, fun _ _ => rfl, fun _ _ => rfl⟩

theorem SameInputs.destination_eq {s t : State} (h : SameInputs s t) : destination s = destination t := by
  rw [destination, destination, fieldNumber_congr fun k _ => h.header (30 + k) (by omega)]

theorem SameInputs.checksumOf_eq {s t : State} (h : SameInputs s t) : checksumOf s .rx 14 20 = checksumOf t .rx 14 20 :=
  checksumOf_congr h.params fun j _ => h.header (14 + j) (by omega)

theorem SameInputs.validHeader_iff {s t : State} (h : SameInputs s t) : ValidHeader s .rx ↔ ValidHeader t .rx := by
  rw [ValidHeader, ValidHeader, h.checksumOf_eq]

/-! The stations of `FWD`. -/

/-- After the start and the header's validation (43_forward.md R181, R183). -/
def fwdChecked (s : State) : State := runChecksum .rx Config.ethHlen Config.ipHlen (fwdStart s)

/-- After the destination's route lookup (43_forward.md R186). -/
def fwdRouted (r : Option Nat) (s : State) : State := writeLpmResult r (fwdChecked s)

/-- After the mutation and the destination's ARP lookup (43_forward.md R188). -/
def fwdResolved (r : Nat) (a : Option Nat) (s : State) : State := writeArpResult a (fwdMutate (fwdRouted (some r) s))

theorem fwdStart_byte (s : State) (b : Buf) (k : Nat) : (fwdStart s).byte b k = s.byte b k := by
  cases b <;> rfl

theorem fwdChecked_byte (s : State) (b : Buf) (k : Nat) : (fwdChecked s).byte b k = s.byte b k := by
  rw [fwdChecked, runChecksum_byte, fwdStart_byte]

theorem fwdChecked_csRes (s : State) : (fwdChecked s).csRes = checksumOf s .rx 14 20 := by
  rw [fwdChecked, runChecksum_csRes]
  exact checksumOf_congr (fwdStart_params s) fun j _ => fwdStart_byte s .rx _

theorem fwdRouted_byte (r : Option Nat) (s : State) (b : Buf) (k : Nat) : (fwdRouted r s).byte b k = s.byte b k := by
  rw [fwdRouted, writeLpmResult_byte, fwdChecked_byte]

/-- The start and the validation write the checksum registers and clear the other results. -/
theorem fwdChecked_frame (s : State) :
    ∃ acc f o r z, fwdChecked s =
      { fwdStart s with csAcc := acc, csFold := f, csOdd := o, csRes := r, csZero := z } :=
  ⟨_, _, _, _, _, rfl⟩

theorem onlyForwardState_fwdChecked (s : State) : OnlyForwardState s (fwdChecked s) := by
  obtain ⟨acc, f, o, r, z, h⟩ := fwdChecked_frame s
  rw [h]
  rfl

theorem onlyForwardState_fwdRouted (r : Option Nat) (s : State) : OnlyForwardState s (fwdRouted r s) :=
  (onlyForwardState_fwdChecked s).trans (onlyForwardState_writeLpmResult r (fwdChecked s))

theorem sameInputs_of_onlyForwardState {s t : State} (h : OnlyForwardState s t)
    (hheader : ∀ k < 42, t.byte .rx k = s.byte .rx k) : SameInputs s t where
  toSameTables := sameTables_of_onlyForwardState h
  rxIf := by rw [h]
  rxLen := by rw [h]
  header := fun k hk => (hheader k hk).symm

theorem sameInputs_fwdChecked (s : State) : SameInputs s (fwdChecked s) :=
  sameInputs_of_onlyForwardState (onlyForwardState_fwdChecked s) fun k _ => fwdChecked_byte s .rx k

theorem sameInputs_fwdRouted (r : Option Nat) (s : State) : SameInputs s (fwdRouted r s) :=
  sameInputs_of_onlyForwardState (onlyForwardState_fwdRouted r s) fun k _ => fwdRouted_byte r s .rx k

/-- `refreshChecksum` on RXB writes RXB and the checksum fields only. -/
theorem refreshChecksum_rx (fld off len : Nat) (s : State) :
    ∃ m acc f o r z, refreshChecksum .rx fld off len s =
      { s with rxb := m, csAcc := acc, csFold := f, csOdd := o, csRes := r, csZero := z } :=
  ⟨_, _, _, _, _, _, rfl⟩

/-- The mutation writes RXB and the checksum registers (43_forward.md R188 (1), (2)). -/
theorem fwdMutate_frame (s : State) :
    ∃ m acc f o r z, fwdMutate s =
      { s with rxb := m, csAcc := acc, csFold := f, csOdd := o, csRes := r, csZero := z } := by
  obtain ⟨m, acc, f, o, r, z, h⟩ := refreshChecksum_rx 24 Config.ethHlen Config.ipHlen
    (s.writeByte .rx 22 (s.byte .rx 22 - 1))
  exact ⟨m, acc, f, o, r, z, by rw [fwdMutate, refreshIpChecksum, h]; rfl⟩

theorem fwdDest_eq_destination (s : State) : fwdDest s = destination s := by
  rw [fwdDest, State.memRead, destination, fieldNumber_eq_bigEndian]

/-! The verdicts. -/

/-- The ways of `FWD` through 43_forward.md R180, `r` and `j` being the indices the lookups find. -/
inductive Verdict where
  | badChecksum
  | expired
  | unrouted
  | own (r : Nat)
  | unresolved (r : Nat)
  | forwarded (r j : Nat)

/-- The header validates and its TTL is at least 2 (43_forward.md R183, R185). -/
def Routable (s : State) : Prop := ValidHeader s .rx ∧ 2 ≤ (s.byte .rx 22).toNat

/-- The datagram has route `r` to another host (43_forward.md R186, R187). -/
def Transit (s : State) (r : Nat) : Prop :=
  Routable s ∧ lookup s (destination s) = some r ∧ ¬IsLocal s (destination s)

/-- The verdict is the one that `FWD` comes to in `s`. -/
def Verdict.Holds (s : State) : Verdict → Prop
  | .badChecksum => ¬ValidHeader s .rx
  | .expired => ValidHeader s .rx ∧ (s.byte .rx 22).toNat ≤ 1
  | .unrouted => Routable s ∧ lookup s (destination s) = none
  | .own r => Routable s ∧ lookup s (destination s) = some r ∧ IsLocal s (destination s)
  | .unresolved r => Transit s r ∧ NoArp s (destination s)
  | .forwarded r j => Transit s r ∧ FirstArp s (destination s) j

/-- The state after `FWD` with that verdict. -/
def Verdict.after (s : State) : Verdict → State
  | .badChecksum => { fwdChecked s with disp := dispCode .droppedChecksum }
  | .expired => fwdReply Config.icmpTimeExceeded .timeExceededSent (fwdChecked s)
  | .unrouted => fwdReply Config.icmpDestUnreach .destUnreachSent (fwdRouted none s)
  | .own r => fwdReply Config.icmpEchoReply .echoReplied { fwdRouted (some r) s with ifHit := true }
  | .unresolved r => { fwdResolved r none s with disp := dispCode .droppedNoArp }
  | .forwarded r j =>
    { (fwdResolved r (some j) s).writeBytes .rx 0 (s.arp j).mac.bytes with
      outValid := true, outSel := false, outLen := s.rxLen, outIf := (s.route r).egressIf
      disp := dispCode .forwarded }

theorem exists_verdict_holds (s : State) : ∃ v : Verdict, v.Holds s := by
  by_cases hvalid : ValidHeader s .rx
  case neg => exact ⟨.badChecksum, hvalid⟩
  by_cases httl : 2 ≤ (s.byte .rx 22).toNat
  case neg => exact ⟨.expired, hvalid, by omega⟩
  cases hroute : lookup s (destination s) with
  | none => exact ⟨.unrouted, ⟨hvalid, httl⟩, hroute⟩
  | some r =>
    by_cases hlocal : IsLocal s (destination s)
    · exact ⟨.own r, ⟨hvalid, httl⟩, hroute, hlocal⟩
    · cases harp : arpLookup s (destination s) with
      | none => exact ⟨.unresolved r, ⟨⟨hvalid, httl⟩, hroute, hlocal⟩, arpLookup_eq_none.1 harp⟩
      | some j => exact ⟨.forwarded r j, ⟨⟨hvalid, httl⟩, hroute, hlocal⟩, arpLookup_eq_some.1 harp⟩

theorem SameInputs.routable_iff {s t : State} (h : SameInputs s t) : Routable s ↔ Routable t := by
  rw [Routable, Routable, h.validHeader_iff, h.header 22 (by omega)]

theorem SameInputs.transit_iff {s t : State} (h : SameInputs s t) (r : Nat) : Transit s r ↔ Transit t r := by
  rw [Transit, Transit, h.routable_iff, h.destination_eq, h.lookup_eq, h.isLocal_iff]

/-- The verdict is a function of what `FWD` reads. -/
theorem SameInputs.holds_iff {s t : State} (h : SameInputs s t) (v : Verdict) : v.Holds s ↔ v.Holds t := by
  cases v with
  | badChecksum => exact not_congr h.validHeader_iff
  | expired => rw [Verdict.Holds, Verdict.Holds, h.validHeader_iff, h.header 22 (by omega)]
  | unrouted => rw [Verdict.Holds, Verdict.Holds, h.routable_iff, h.destination_eq, h.lookup_eq]
  | own r => rw [Verdict.Holds, Verdict.Holds, h.routable_iff, h.destination_eq, h.lookup_eq, h.isLocal_iff]
  | unresolved r => rw [Verdict.Holds, Verdict.Holds, h.transit_iff, h.destination_eq, h.noArp_iff]
  | forwarded r j => rw [Verdict.Holds, Verdict.Holds, h.transit_iff, h.destination_eq, h.firstArp_iff]

/-! The next state of each verdict. -/

theorem fwdEgress_of_noArp {s : State} (h : NoArp s (destination s)) (r : Nat) :
    fwdEgress r s = { writeArpResult none (fwdMutate s) with disp := dispCode .droppedNoArp } := by
  have hmiss : arpLookup (fwdMutate s) (destination s) = none :=
    arpLookup_eq_none.2 (((sameTables_of_onlyForwardState (onlyForwardState_fwdMutate s)).noArp_iff _).1 h)
  simp only [fwdEgress, fwdDest_eq_destination, hmiss]

theorem fwdEgress_of_firstArp {s : State} {j : Nat} (h : FirstArp s (destination s) j) (r : Nat) :
    fwdEgress r s =
      { (writeArpResult (some j) (fwdMutate s)).writeBytes .rx 0 (s.arp j).mac.bytes with
        outValid := true, outSel := false, outLen := s.rxLen, outIf := (s.route r).egressIf
        disp := dispCode .forwarded } := by
  have hhit : arpLookup (fwdMutate s) (destination s) = some j :=
    arpLookup_eq_some.2 (((sameTables_of_onlyForwardState (onlyForwardState_fwdMutate s)).firstArp_iff _ j).1 h)
  simp only [fwdEgress, fwdDest_eq_destination, hhit]
  obtain ⟨m, acc, f, o, res, z, hmutated⟩ := fwdMutate_frame s
  rw [hmutated]
  rfl

theorem fwdRoute_of_none {s : State} (h : lookup s (destination s) = none) :
    fwdRoute s = fwdReply Config.icmpDestUnreach .destUnreachSent (writeLpmResult none s) := by
  simp only [fwdRoute, fwdDest_eq_destination, h]

theorem localFlag_writeLpmResult_iff (r : Option Nat) (s : State) (d : Word) :
    localFlag (writeLpmResult r s) d = true ↔ IsLocal s d := by
  simp only [localFlag_iff, writeLpmResult_params, writeLpmResult_iface, IsLocal]

theorem fwdRoute_of_isLocal {s : State} {r : Nat} (h : lookup s (destination s) = some r)
    (hlocal : IsLocal s (destination s)) :
    fwdRoute s = fwdReply Config.icmpEchoReply .echoReplied { writeLpmResult (some r) s with ifHit := true } := by
  simp only [fwdRoute, fwdDest_eq_destination, h]
  exact if_pos ((localFlag_writeLpmResult_iff _ s _).2 hlocal)

theorem fwdRoute_of_not_isLocal {s : State} {r : Nat} (h : lookup s (destination s) = some r)
    (hlocal : ¬IsLocal s (destination s)) : fwdRoute s = fwdEgress r (writeLpmResult (some r) s) := by
  simp only [fwdRoute, fwdDest_eq_destination, h]
  exact if_neg (mt (localFlag_writeLpmResult_iff _ s _).1 hlocal)

theorem forward_eq (s : State) :
    forward s =
      if (fwdChecked s).csRes ≠ 0 then { fwdChecked s with disp := dispCode .droppedChecksum }
      else if (fwdChecked s).byte .rx 22 ≤ 1 then fwdReply Config.icmpTimeExceeded .timeExceededSent (fwdChecked s)
      else fwdRoute (fwdChecked s) := rfl

theorem forward_of_not_validHeader {s : State} (h : ¬ValidHeader s .rx) :
    forward s = { fwdChecked s with disp := dispCode .droppedChecksum } := by
  have hbad : checksumOf s .rx 14 20 ≠ 0 := h
  rw [forward_eq, fwdChecked_csRes, if_pos hbad]

theorem forward_of_validHeader {s : State} (h : ValidHeader s .rx) :
    forward s =
      if (s.byte .rx 22).toNat ≤ 1 then fwdReply Config.icmpTimeExceeded .timeExceededSent (fwdChecked s)
      else fwdRoute (fwdChecked s) := by
  have hgood : checksumOf s .rx 14 20 = 0 := h
  rw [forward_eq, fwdChecked_csRes, if_neg (not_not.2 hgood), fwdChecked_byte]
  exact if_congr BitVec.le_def rfl rfl

theorem forward_of_routable {s : State} (h : Routable s) : forward s = fwdRoute (fwdChecked s) := by
  obtain ⟨hvalid, httl⟩ := h
  rw [forward_of_validHeader hvalid, if_neg (by omega)]

theorem forward_of_transit {s : State} {r : Nat} (h : Transit s r) :
    forward s = fwdEgress r (fwdRouted (some r) s) := by
  obtain ⟨hroutable, hroute, hlocal⟩ := ((sameInputs_fwdChecked s).transit_iff r).1 h
  rw [forward_of_routable h.1, fwdRoute_of_not_isLocal hroute hlocal, fwdRouted]

/-- `FWD` ends as its verdict says. -/
theorem forward_eq_after {s : State} {v : Verdict} (h : v.Holds s) : forward s = v.after s := by
  have hchecked := ((sameInputs_fwdChecked s).holds_iff v).1 h
  cases v with
  | badChecksum => exact forward_of_not_validHeader h
  | expired =>
    obtain ⟨hvalid, httl⟩ := h
    rw [forward_of_validHeader hvalid, if_pos httl, Verdict.after]
  | unrouted =>
    obtain ⟨hroutable, -⟩ := h
    obtain ⟨-, hroute⟩ := hchecked
    rw [forward_of_routable hroutable, fwdRoute_of_none hroute, Verdict.after, fwdRouted]
  | own r =>
    obtain ⟨hroutable, -⟩ := h
    obtain ⟨-, hroute, hlocal⟩ := hchecked
    rw [forward_of_routable hroutable, fwdRoute_of_isLocal hroute hlocal, Verdict.after, fwdRouted]
  | unresolved r =>
    obtain ⟨-, harp⟩ := ((sameInputs_fwdRouted (some r) s).holds_iff (.unresolved r)).1 h
    obtain ⟨htransit, -⟩ := h
    rw [forward_of_transit htransit, fwdEgress_of_noArp harp, Verdict.after, fwdResolved]
  | forwarded r j =>
    obtain ⟨-, harp⟩ := ((sameInputs_fwdRouted (some r) s).holds_iff (.forwarded r j)).1 h
    obtain ⟨htransit, -⟩ := h
    rw [forward_of_transit htransit, fwdEgress_of_firstArp harp, Verdict.after, fwdResolved]
    obtain ⟨acc, f, o, res, z, hframe⟩ := fwdChecked_frame s
    rw [fwdRouted, hframe]
    rfl

theorem exec_fwd_of_run {s : State} (hrun : s.built = true) : exec .fwd s = .next (forward s) :=
  if_pos hrun

theorem exec_fwd_eq_after {s : State} {v : Verdict} (hrun : s.built = true) (h : v.Holds s) :
    exec .fwd s = .next (v.after s) := by
  rw [exec_fwd_of_run hrun, forward_eq_after h]

theorem onlyForwardState_after {s : State} {v : Verdict} (h : v.Holds s) : OnlyForwardState s (v.after s) := by
  rw [← forward_eq_after h]
  exact onlyForwardState_forward s

/-! The reply as a function of the headers (42_codec.md R167). -/

/-- The two states agree on what `MakeReply` reads, for the first `n` bytes of TXB. -/
structure SameReplyInputs (n : Nat) (s t : State) : Prop where
  params : s.params = t.params
  rxIf : s.rxIf = t.rxIf
  header : ∀ k < 42, s.byte .rx k = t.byte .rx k
  aboveCleared : ∀ k < n, s.params.fbSize ≤ k → s.byte .tx k = t.byte .tx k

/-- The result of a checksum invocation (40_checksum.md R106). -/
def State.checksums (s : State) : BitVec 64 × Half × Bool × Half × Bool :=
  (s.csAcc, s.csFold, s.csOdd, s.csRes, s.csZero)

theorem State.checksums_eq_iff {s t : State} :
    s.checksums = t.checksums ↔
      s.csAcc = t.csAcc ∧ s.csFold = t.csFold ∧ s.csOdd = t.csOdd ∧ s.csRes = t.csRes ∧ s.csZero = t.csZero := by
  simp [State.checksums]

/-- A range determines what its invocation latches. -/
theorem checksums_eq_of_latchedFrom {s t u : State} {b : Buf} {off len : Nat} (ht : LatchedFrom s t b off len)
    (hu : LatchedFrom s u b off len) : t.checksums = u.checksums := by
  obtain ⟨hacc, hfold, hodd, hres, hzero⟩ := ht
  obtain ⟨hacc', hfold', hodd', hres', hzero'⟩ := hu
  simp only [State.checksums, hacc, hfold, hodd, hres, hzero, hacc', hfold', hodd', hres', hzero']

theorem State.byte_writeBytes_congr {s t : State} {b : Buf} {k : Nat} (a : Nat) (l : List Byte)
    (h : s.byte b k = t.byte b k) : (s.writeBytes b a l).byte b k = (t.writeBytes b a l).byte b k := by
  rw [State.byte_writeBytes, State.byte_writeBytes, h]

section SameReply

variable {n : Nat} {s t : State} (h : SameReplyInputs n s t)
include h

theorem SameReplyInputs.bytes_eq {a m : Nat} (ha : a + m ≤ 42) : s.bytes .rx a m = t.bytes .rx a m :=
  State.bytes_congr fun k _ hk => h.header k (by omega)

theorem SameReplyInputs.clearBuf_byte {k : Nat} (hk : k < n) :
    (s.clearBuf .tx).byte .tx k = (t.clearBuf .tx).byte .tx k := by
  rw [State.byte_clearBuf, State.byte_clearBuf, ← h.params]
  split_ifs with hcleared
  · rfl
  · exact h.aboveCleared k hk (not_lt.1 fun hlt => hcleared ⟨rfl, hlt⟩)

theorem SameReplyInputs.replyTemplate_byte (ty : Byte) {k : Nat} (hk : k < n) :
    (replyTemplate ty s).byte .tx k = (replyTemplate ty t).byte .tx k := by
  have hfront : replyFront s = replyFront t := by
    rw [replyFront, replyFront, h.bytes_eq (by omega), h.bytes_eq (by omega), h.bytes_eq (by omega), h.params]
  have haddresses : replyAddresses s = replyAddresses t := by
    rw [replyAddresses, replyAddresses, h.bytes_eq (by omega), h.bytes_eq (by omega)]
  rw [replyTemplate, replyTemplate, hfront, haddresses, h.bytes_eq (by omega)]
  exact State.byte_writeBytes_congr _ _ (State.byte_writeBytes_congr _ _ (State.byte_writeBytes_congr _ _
    (State.byte_writeBytes_congr _ _ (h.clearBuf_byte hk))))

/-- Both checksum fields apart, the replies are their templates. -/
theorem SameReplyInputs.makeReply_byte_of_ne (ty : Byte) {k : Nat} (hk : k < n) (hip : ¬(24 ≤ k ∧ k < 26))
    (hicmp : ¬(36 ≤ k ∧ k < 38)) : (makeReply ty s).byte .tx k = (makeReply ty t).byte .tx k := by
  rw [Machine.makeReply_byte_of_ne hip hicmp, Machine.makeReply_byte_of_ne hip hicmp, h.replyTemplate_byte ty hk]

theorem SameReplyInputs.makeReply_bytes_ipChecksum (hn : 42 ≤ n) (ty : Byte) :
    (makeReply ty s).bytes .tx 24 2 = (makeReply ty t).bytes .tx 24 2 := by
  rw [Machine.makeReply_bytes_ipChecksum, Machine.makeReply_bytes_ipChecksum]
  have hres : checksumOf ((makeReply ty s).memWrite .tx 24 2 0) .tx 14 20 =
      checksumOf ((makeReply ty t).memWrite .tx 24 2 0) .tx 14 20 := by
    refine checksumOf_congr ?_ fun j hj => State.byte_memWrite_congr 0 fun hout => ?_
    · simp only [State.memWrite_params, makeReply_params, h.params]
    · exact h.makeReply_byte_of_ne ty (by omega) hout (by omega)
  rw [hres]

theorem SameReplyInputs.makeReply_checksums (hn : 42 ≤ n) (ty : Byte) :
    (makeReply ty s).checksums = (makeReply ty t).checksums := by
  refine checksums_eq_of_latchedFrom (latchedFrom_makeReply ty s)
    (latchedFrom_congr ?_ (fun j hj => State.byte_memWrite_congr 0 fun hout => ?_) (latchedFrom_makeReply ty t))
  · simp only [State.memWrite_params, makeReply_params, h.params]
  · exact h.makeReply_byte_of_ne ty (by omega) (by omega) hout

theorem SameReplyInputs.makeReply_byte (hn : 42 ≤ n) (ty : Byte) {k : Nat} (hk : k < n) :
    (makeReply ty s).byte .tx k = (makeReply ty t).byte .tx k := by
  by_cases hip : 24 ≤ k ∧ k < 26
  · have hfield := h.makeReply_bytes_ipChecksum hn ty
    simp only [State.bytes_two, List.cons.injEq, and_true] at hfield
    obtain rfl | rfl : k = 24 ∨ k = 25 := by omega
    · exact hfield.1
    · exact hfield.2
  · by_cases hicmp : 36 ≤ k ∧ k < 38
    · obtain ⟨-, -, -, hres, -⟩ := State.checksums_eq_iff.1 (h.makeReply_checksums hn ty)
      have hfield : (makeReply ty s).bytes .tx 36 2 = (makeReply ty t).bytes .tx 36 2 := by
        rw [makeReply_bytes_icmpChecksum, makeReply_bytes_icmpChecksum, hres]
      simp only [State.bytes_two, List.cons.injEq, and_true] at hfield
      obtain rfl | rfl : k = 36 ∨ k = 37 := by omega
      · exact hfield.1
      · exact hfield.2
    · exact h.makeReply_byte_of_ne ty hk hip hicmp

end SameReply

/-! The reply paths (43_forward.md R180, R185 to R187). -/

theorem fwdReply_frame (ty : Byte) (d : Disposition) (s : State) :
    ∃ m acc f o r z, fwdReply ty d s =
      { s with
        txb := m, txLen := 42, txIf := s.rxIf, csAcc := acc, csFold := f, csOdd := o, csRes := r, csZero := z
        outValid := true, outSel := true, outLen := 42, outIf := s.rxIf, disp := dispCode d } := by
  obtain ⟨m, acc, f, o, r, z, h⟩ := makeReply_frame ty s
  exact ⟨m, acc, f, o, r, z, by rw [fwdReply, h]⟩

theorem fwdReply_byte_rx (ty : Byte) (d : Disposition) (s : State) (k : Nat) :
    (fwdReply ty d s).byte .rx k = s.byte .rx k := by
  obtain ⟨m, acc, f, o, r, z, h⟩ := fwdReply_frame ty d s
  rw [h]
  rfl

/-- The output registers are neither bytes nor checksum results. -/
theorem byte_setOutput (s : State) (valid sel : Bool) (len outIf : Half) (d : BitVec 4) (b : Buf) (k : Nat) :
    ({ s with outValid := valid, outSel := sel, outLen := len, outIf := outIf, disp := d } : State).byte b k =
      s.byte b k := by
  cases b <;> rfl

theorem bytes_setOutput (s : State) (valid sel : Bool) (len outIf : Half) (d : BitVec 4) (b : Buf) (a n : Nat) :
    ({ s with outValid := valid, outSel := sel, outLen := len, outIf := outIf, disp := d } : State).bytes b a n =
      s.bytes b a n :=
  State.bytes_congr fun k _ _ => byte_setOutput s valid sel len outIf d b k

theorem checksums_setOutput (s : State) (valid sel : Bool) (len outIf : Half) (d : BitVec 4) :
    ({ s with outValid := valid, outSel := sel, outLen := len, outIf := outIf, disp := d } : State).checksums =
      s.checksums := rfl

theorem fwdReply_byte_tx (ty : Byte) (d : Disposition) (s : State) (k : Nat) :
    (fwdReply ty d s).byte .tx k = (makeReply ty s).byte .tx k := by
  rw [fwdReply, byte_setOutput]

theorem fwdReply_checksums (ty : Byte) (d : Disposition) (s : State) :
    (fwdReply ty d s).checksums = (makeReply ty s).checksums := by
  rw [fwdReply, checksums_setOutput]

/-- The lookups' results and `IF_HIT` stand as before the reply. -/
theorem fwdReply_lookups (ty : Byte) (d : Disposition) (s : State) :
    (LpmNone (fwdReply ty d s) ↔ LpmNone s) ∧ (∀ u r, LpmIs u (fwdReply ty d s) r ↔ LpmIs u s r) ∧
      (ArpNone (fwdReply ty d s) ↔ ArpNone s) ∧ (fwdReply ty d s).ifHit = s.ifHit := by
  obtain ⟨m, acc, f, o, r, z, h⟩ := fwdReply_frame ty d s
  rw [h]
  exact ⟨.rfl, fun _ _ => .rfl, .rfl, rfl⟩

/-- The registers that `FWD` has written before a reply do not show in it. -/
theorem sameReplyInputs_of_onlyForwardState {s u : State} (honly : OnlyForwardState s u) (hbytes : SameBytes s u)
    (n : Nat) : SameReplyInputs n u s :=
  ⟨by rw [honly], by rw [honly], fun k _ => hbytes .rx k, fun k _ _ => hbytes .tx k⟩

theorem replyOut_fwdReply {s u : State} (honly : OnlyForwardState s u) (ty : Byte) (d : Disposition) :
    ReplyOut s (fwdReply ty d u) := by
  have hrxIf : u.rxIf = s.rxIf := by rw [honly]
  obtain ⟨m, acc, f, o, r, z, h⟩ := fwdReply_frame ty d u
  rw [h]
  exact ⟨rfl, rfl, rfl, hrxIf, rfl, hrxIf⟩

theorem makeReply_descriptor (ty : Byte) (s : State) :
    (makeReply ty s).txLen = 42 ∧ (makeReply ty s).txIf = s.rxIf := by
  obtain ⟨m, acc, f, o, r, z, h⟩ := makeReply_frame ty s
  rw [h]
  exact ⟨rfl, rfl⟩

theorem replyBuilt_fwdReply {s u : State} (honly : OnlyForwardState s u) (hbytes : SameBytes s u) (ty : Byte)
    (d : Disposition) : ReplyBuilt ty s (fwdReply ty d u) := by
  have hinputs := sameReplyInputs_of_onlyForwardState honly hbytes
  obtain ⟨-, -, -, -, hlen, hif⟩ := replyOut_fwdReply honly ty d
  obtain ⟨hlen', hif'⟩ := makeReply_descriptor ty s
  refine ⟨makeReply ty s, rfl, fun k => ?_, hlen.trans hlen'.symm, hif.trans hif'.symm, ?_⟩
  · rw [fwdReply_byte_tx]
    exact (hinputs (k + 42)).makeReply_byte (by omega) ty (by omega)
  · exact State.checksums_eq_iff.1 ((fwdReply_checksums ty d u).trans ((hinputs 42).makeReply_checksums le_rfl ty))

/-! The result registers on the way. -/

theorem latchedFrom_fwdChecked (s : State) : LatchedFrom s (fwdChecked s) .rx 14 20 :=
  latchedFrom_congr (fwdStart_params s).symm (fun _ _ => (fwdStart_byte s .rx _).symm)
    (latchedFrom_runChecksum .rx 14 20 (fwdStart s))

theorem sameBytes_fwdChecked (s : State) : SameBytes s (fwdChecked s) := fun b k => fwdChecked_byte s b k

theorem sameBytes_fwdRouted (r : Option Nat) (s : State) : SameBytes s (fwdRouted r s) :=
  fun b k => fwdRouted_byte r s b k

/-- The start reports nothing (43_forward.md R181). -/
theorem fwdChecked_cleared (s : State) :
    LpmNone (fwdChecked s) ∧ ArpNone (fwdChecked s) ∧ (fwdChecked s).ifHit = false ∧ NothingOut (fwdChecked s) := by
  obtain ⟨acc, f, o, r, z, h⟩ := fwdChecked_frame s
  rw [h]
  exact ⟨⟨rfl, rfl, rfl, rfl, rfl, rfl⟩, ⟨rfl, rfl, rfl, rfl, rfl⟩, rfl, rfl, rfl, rfl, rfl⟩

theorem arpNone_fwdRouted (r : Option Nat) (s : State) : ArpNone (fwdRouted r s) := by
  obtain ⟨-, hcleared, -, -⟩ := fwdChecked_cleared s
  rw [fwdRouted]
  cases r with
  | none => exact hcleared
  | some i => exact hcleared

theorem fwdRouted_ifHit (r : Option Nat) (s : State) : (fwdRouted r s).ifHit = false := by
  obtain ⟨-, -, hcleared, -⟩ := fwdChecked_cleared s
  rw [fwdRouted, writeLpmResult_ifHit, hcleared]

theorem lpmNone_fwdRouted (s : State) : LpmNone (fwdRouted none s) := ⟨rfl, rfl, rfl, rfl, rfl, rfl⟩

theorem route_of_onlyForwardState {s t : State} (h : OnlyForwardState s t) (i : Nat) : t.route i = s.route i := by
  rw [h]
  rfl

theorem arp_of_onlyForwardState {s t : State} (h : OnlyForwardState s t) (j : Nat) : t.arp j = s.arp j := by
  rw [h]
  rfl

theorem fwdChecked_route (s : State) (i : Nat) : (fwdChecked s).route i = s.route i :=
  route_of_onlyForwardState (onlyForwardState_fwdChecked s) i

theorem lpmIs_fwdRouted (r : Nat) (s : State) : LpmIs s (fwdRouted (some r) s) r := by
  rw [LpmIs, ← fwdChecked_route]
  exact ⟨rfl, rfl, rfl, rfl, rfl, rfl⟩

/-! The forward path (43_forward.md R188). -/

theorem fwdMutate_byte_ttl (s : State) : (fwdMutate s).byte .rx 22 = s.byte .rx 22 - 1 := by
  rw [fwdMutate, refreshIpChecksum, refreshChecksum_byte, if_neg (by omega), if_neg (by omega), State.byte_writeByte,
    if_pos ⟨rfl, rfl⟩]

theorem fwdMutate_byte_of_ne (s : State) {k : Nat} (httl : k ≠ 22) (hhigh : k ≠ 24) (hlow : k ≠ 25) :
    (fwdMutate s).byte .rx k = s.byte .rx k := by
  rw [fwdMutate, refreshIpChecksum, refreshChecksum_byte, if_neg (by omega), if_neg (by omega), State.byte_writeByte,
    if_neg (by omega)]

/-- After the mutation the forward path writes RXB, the ARP and the output registers and nothing else. -/
def OnlyEgress (s t : State) : Prop :=
  t = { s with
    rxb := t.rxb, arpHit := t.arpHit, arpIdx := t.arpIdx, arpIp := t.arpIp, arpMacHi := t.arpMacHi
    arpMacLo := t.arpMacLo, outValid := t.outValid, outSel := t.outSel, outLen := t.outLen, outIf := t.outIf
    disp := t.disp }

theorem onlyEgress_dropped (s : State) :
    OnlyEgress s { writeArpResult none s with disp := dispCode .droppedNoArp } := rfl

theorem onlyEgress_sent (s : State) (j : Nat) (l : List Byte) (len outIf : Half) :
    OnlyEgress s
      { (writeArpResult (some j) s).writeBytes .rx 0 l with
        outValid := true, outSel := false, outLen := len, outIf := outIf, disp := dispCode .forwarded } := rfl

theorem onlyEgress_fwdEgress (r : Nat) (s : State) : OnlyEgress (fwdMutate s) (fwdEgress r s) := by
  cases harp : arpLookup s (destination s) with
  | none =>
    rw [fwdEgress_of_noArp (arpLookup_eq_none.1 harp)]
    exact onlyEgress_dropped _
  | some j =>
    rw [fwdEgress_of_firstArp (arpLookup_eq_some.1 harp)]
    exact onlyEgress_sent _ j _ _ _

theorem OnlyEgress.checksums_eq {s t : State} (h : OnlyEgress s t) : t.checksums = s.checksums := by
  rw [h]
  rfl

/-- The mutation of the routed frame, with every field but RXB and the checksum registers as the start and the lookup
leave it. -/
theorem fwdMutate_fwdRouted_frame (r : Option Nat) (s : State) :
    ∃ m acc f o res z, fwdMutate (fwdRouted r s) =
      { writeLpmResult r (fwdStart s) with
        rxb := m, csAcc := acc, csFold := f, csOdd := o, csRes := res, csZero := z } := by
  obtain ⟨acc, f, o, res, z, hchecked⟩ := fwdChecked_frame s
  obtain ⟨m, acc', f', o', res', z', hmutated⟩ := fwdMutate_frame (fwdRouted r s)
  refine ⟨m, acc', f', o', res', z', ?_⟩
  rw [hmutated, fwdRouted, hchecked]
  cases r with
  | none => rfl
  | some i => rfl

theorem fwdMutate_fwdRouted_arp (r : Option Nat) (s : State) (j : Nat) :
    (fwdMutate (fwdRouted r s)).arp j = s.arp j :=
  arp_of_onlyForwardState ((onlyForwardState_fwdRouted r s).trans (onlyForwardState_fwdMutate _)) j

theorem arpIs_writeArpResult {s u : State} {j : Nat} (h : u.arp j = s.arp j) :
    ArpIs s (writeArpResult (some j) u) j := by
  rw [ArpIs, ← h]
  exact ⟨rfl, rfl, rfl, rfl, rfl⟩

/-- The ARP registers stand while the frame is addressed and described. -/
theorem arpIs_sent {s u : State} {j : Nat} (h : ArpIs s u j) (l : List Byte) (len outIf : Half) (d : BitVec 4) :
    ArpIs s
      { u.writeBytes .rx 0 l with outValid := true, outSel := false, outLen := len, outIf := outIf, disp := d } j := h

theorem latchedFrom_of_checksums_eq {s t u : State} {b : Buf} {off len : Nat} (h : LatchedFrom s t b off len)
    (hu : u.checksums = t.checksums) : LatchedFrom s u b off len := by
  obtain ⟨hacc, hfold, hodd, hres, hzero⟩ := State.checksums_eq_iff.1 hu
  rw [LatchedFrom, hacc, hfold, hodd, hres, hzero]
  exact h

/-- The frame that the mutation sums: the new TTL and a zeroed checksum field (43_forward.md R188 (1), (2)). -/
def mutatedHeader (s : State) : State := (s.writeByte .rx 22 (s.byte .rx 22 - 1)).memWrite .rx 24 2 0

theorem latchedFrom_fwdMutate (s : State) : LatchedFrom (mutatedHeader s) (fwdMutate s) .rx 14 20 := by
  rw [fwdMutate, refreshIpChecksum]
  exact latchedFrom_refreshChecksum .rx 24 14 20 _

theorem latchedFrom_mutatedHeader_congr {s t u : State} (hparams : s.params = t.params)
    (hheader : ∀ k < 42, s.byte .rx k = t.byte .rx k) (h : LatchedFrom (mutatedHeader t) u .rx 14 20) :
    LatchedFrom (mutatedHeader s) u .rx 14 20 := by
  refine latchedFrom_congr ?_ (fun j _ => State.byte_memWrite_congr 0 fun _ => ?_) h
  · simp only [mutatedHeader, State.memWrite_params, State.writeByte_params, hparams]
  · rw [State.byte_writeByte, State.byte_writeByte, hheader 22 (by omega), hheader _ (by omega)]

/-- The checksum field holds the latched result, its high byte first. -/
theorem fwdMutate_checksum_field (s : State) :
    (fwdMutate s).byte .rx 24 = (fwdMutate s).csRes.extractLsb' 8 8 ∧
      (fwdMutate s).byte .rx 25 = (fwdMutate s).csRes.extractLsb' 0 8 := by
  rw [fwdMutate, refreshIpChecksum]
  exact refreshChecksum_field .rx 24 14 20 _

theorem State.byte_tx_eq {s t : State} (htxb : t.txb = s.txb) (hpowerUps : t.powerUps = s.powerUps) (k : Nat) :
    t.byte .tx k = s.byte .tx k := by
  simp only [State.byte, State.buf, htxb, hpowerUps]

section Transit

variable {s : State} {r : Nat} (h : Transit s r)
include h

theorem Transit.onlyEgress : OnlyEgress (fwdMutate (fwdRouted (some r) s)) (forward s) := by
  rw [forward_of_transit h]
  exact onlyEgress_fwdEgress r _

theorem Transit.forward_byte {k : Nat} (hk : 6 ≤ k) :
    (forward s).byte .rx k = (fwdMutate (fwdRouted (some r) s)).byte .rx k := by
  rw [forward_of_transit h, fwdEgress_byte_of_le r _ hk]

theorem Transit.forward_byte_of_ne {k : Nat} (hk : 6 ≤ k) (httl : k ≠ 22) (hhigh : k ≠ 24) (hlow : k ≠ 25) :
    (forward s).byte .rx k = s.byte .rx k := by
  rw [h.forward_byte hk, fwdMutate_byte_of_ne _ httl hhigh hlow, fwdRouted_byte]

theorem Transit.forward_ttl : ((forward s).byte .rx 22).toNat + 1 = (s.byte .rx 22).toNat := by
  have ⟨⟨_, httl⟩, _, _⟩ := h
  rw [h.forward_byte (by omega), fwdMutate_byte_ttl, fwdRouted_byte]
  bv_omega

theorem Transit.latchedFrom : LatchedFrom (mutatedHeader s) (forward s) .rx 14 20 := by
  have hinputs := sameInputs_fwdRouted (some r) s
  exact latchedFrom_of_checksums_eq
    (latchedFrom_mutatedHeader_congr hinputs.params hinputs.header (latchedFrom_fwdMutate _)) h.onlyEgress.checksums_eq

theorem Transit.checksum_field :
    (forward s).byte .rx 24 = (forward s).csRes.extractLsb' 8 8 ∧
      (forward s).byte .rx 25 = (forward s).csRes.extractLsb' 0 8 := by
  obtain ⟨-, -, -, hres, -⟩ := State.checksums_eq_iff.1 h.onlyEgress.checksums_eq
  rw [h.forward_byte (by omega), h.forward_byte (by omega), hres]
  exact fwdMutate_checksum_field _

theorem Transit.lpmIs : LpmIs s (forward s) r := by
  obtain ⟨m, acc, f, o, res, z, hframe⟩ := fwdMutate_fwdRouted_frame (some r) s
  rw [h.onlyEgress, hframe]
  exact ⟨rfl, rfl, rfl, rfl, rfl, rfl⟩

/-- Neither TXB and its registers nor `IF_HIT` is written. -/
theorem Transit.keeps_tx :
    (∀ k, (forward s).byte .tx k = s.byte .tx k) ∧ (forward s).txLen = s.txLen ∧ (forward s).txIf = s.txIf ∧
      (forward s).ifHit = false := by
  obtain ⟨m, acc, f, o, res, z, hframe⟩ := fwdMutate_fwdRouted_frame (some r) s
  rw [h.onlyEgress, hframe]
  exact ⟨State.byte_tx_eq rfl rfl, rfl, rfl, rfl⟩

/-- Without an ARP entry the frame is dropped as mutated (43_forward.md R188 (4)). -/
theorem Transit.forward_of_noArp (hmiss : NoArp s (destination s)) :
    (forward s).disp = 7 ∧ NothingOut (forward s) ∧ ArpNone (forward s) ∧
      ∀ k, (forward s).byte .rx k = (fwdMutate (fwdRouted (some r) s)).byte .rx k := by
  have hverdict : (Verdict.unresolved r).Holds s := ⟨h, hmiss⟩
  obtain ⟨m, acc, f, o, res, z, hframe⟩ := fwdMutate_fwdRouted_frame (some r) s
  rw [forward_eq_after hverdict, Verdict.after, fwdResolved, hframe]
  exact ⟨rfl, ⟨rfl, rfl, rfl, rfl⟩, ⟨rfl, rfl, rfl, rfl, rfl⟩, sameBytes_of_eq rfl rfl rfl .rx⟩

/-- With an ARP entry the frame goes out to its MAC address (43_forward.md R188 (5), (6)). -/
theorem Transit.forward_of_firstArp {j : Nat} (hhit : FirstArp s (destination s) j) :
    (forward s).disp = 1 ∧ (forward s).outValid = true ∧ (forward s).outSel = false ∧ (forward s).outLen = s.rxLen ∧
      (forward s).outIf = (s.route r).egressIf ∧ ArpIs s (forward s) j := by
  have hverdict : (Verdict.forwarded r j).Holds s := ⟨h, hhit⟩
  have harp : ArpIs s (fwdResolved r (some j) s) j := arpIs_writeArpResult (fwdMutate_fwdRouted_arp (some r) s j)
  rw [forward_eq_after hverdict, Verdict.after]
  exact ⟨rfl, rfl, rfl, rfl, rfl, arpIs_sent harp _ _ _ _⟩

theorem Transit.forward_bytes_of_firstArp {j : Nat} (hhit : FirstArp s (destination s) j) :
    (forward s).bytes .rx 0 6 = (s.arp j).mac.bytes := by
  have hverdict : (Verdict.forwarded r j).Holds s := ⟨h, hhit⟩
  rw [forward_eq_after hverdict, Verdict.after, bytes_setOutput]
  exact State.bytes_writeBytes_self _ .rx rfl

end Transit

/-! The dispositions (43_forward.md R189). -/

/-- What `FWD` reports in `DISP`. -/
def Verdict.disposition : Verdict → Disposition
  | .badChecksum => .droppedChecksum
  | .expired => .timeExceededSent
  | .unrouted => .destUnreachSent
  | .own _ => .echoReplied
  | .unresolved _ => .droppedNoArp
  | .forwarded _ _ => .forwarded

/-- The verdict sends a frame. -/
def Verdict.sends : Verdict → Bool
  | .badChecksum | .unresolved _ => false
  | .expired | .unrouted | .own _ | .forwarded _ _ => true

theorem after_disp (s : State) (v : Verdict) : (v.after s).disp = dispCode v.disposition := by
  cases v with
  | badChecksum | unresolved r | forwarded r j => rfl
  | expired | unrouted | own r => exact fwdReply_disp _ _ _

theorem after_outValid {s : State} {v : Verdict} (h : v.Holds s) : (v.after s).outValid = v.sends := by
  cases v with
  | badChecksum =>
    obtain ⟨-, -, -, hout, -⟩ := fwdChecked_cleared s
    exact hout
  | unresolved r =>
    have ⟨htransit, hmiss⟩ := h
    obtain ⟨-, ⟨hout, -⟩, -⟩ := htransit.forward_of_noArp hmiss
    rwa [← forward_eq_after h]
  | expired | unrouted | own r | forwarded r j => rfl

/-- The codes of R46 that `FWD` produces, and those of a sent frame. -/
theorem dispCode_disposition (v : Verdict) :
    dispCode v.disposition ∈ ([1, 2, 3, 4, 5, 7] : List (BitVec 4)) ∧
      (v.sends = true ↔ dispCode v.disposition ∈ ([1, 2, 3, 4] : List (BitVec 4))) := by
  cases v with
  | badChecksum | expired | unrouted | own r | unresolved r | forwarded r j =>
    simp only [Verdict.disposition, Verdict.sends]
    decide

theorem eq_unresolved_of_disp {s : State} {v : Verdict} (h : (v.after s).disp = 7) : ∃ r, v = .unresolved r := by
  rw [after_disp] at h
  cases v with
  | unresolved r => exact ⟨r, rfl⟩
  | badChecksum | expired | unrouted | own r | forwarded r j =>
    simp only [Verdict.disposition] at h
    exact absurd h (by decide)

/-! The reports as a function of the inputs (43_forward.md R182, R191). -/

/-- The two states agree on the result registers, the headers in RXB and a reply that is out, and on the parameters and
the ingress interface, from which a reply is built. -/
structure SameReports (s t : State) : Prop where
  params : s.params = t.params
  rxIf : s.rxIf = t.rxIf
  results : s.results = t.results
  ifHit : s.ifHit = t.ifHit
  checksums : s.checksums = t.checksums
  header : ∀ k < 42, s.byte .rx k = t.byte .rx k
  reply : s.outSel = true →
    s.txLen = t.txLen ∧ s.txIf = t.txIf ∧ ∀ k < s.params.fbSize, s.byte .tx k = t.byte .tx k

section SameReports

variable {s t : State} (h : SameReports s t)
include h

theorem SameReports.setDisp (d : BitVec 4) : SameReports { s with disp := d } { t with disp := d } :=
  ⟨h.params, h.rxIf, congrArg (fun u : State => { u with disp := d }) h.results, h.ifHit, h.checksums, h.header,
    h.reply⟩

theorem SameReports.setIfHit (hit : Bool) : SameReports { s with ifHit := hit } { t with ifHit := hit } :=
  ⟨h.params, h.rxIf, h.results, rfl, h.checksums, h.header, h.reply⟩

/-- The output descriptor of a frame in RXB. -/
theorem SameReports.setOutput (len outIf : Half) (d : BitVec 4) :
    SameReports { s with outValid := true, outSel := false, outLen := len, outIf := outIf, disp := d }
      { t with outValid := true, outSel := false, outLen := len, outIf := outIf, disp := d } :=
  ⟨h.params, h.rxIf,
    congrArg (fun u : State => { u with outValid := true, outSel := false, outLen := len, outIf := outIf, disp := d })
      h.results,
    h.ifHit, h.checksums, h.header, nofun⟩

theorem SameReports.writeLpmResult {r : Option Nat} (hroute : ∀ i, r = some i → s.route i = t.route i) :
    SameReports (writeLpmResult r s) (writeLpmResult r t) := by
  cases r with
  | none =>
    exact ⟨h.params, h.rxIf, congrArg (Machine.writeLpmResult none) h.results, h.ifHit, h.checksums, h.header, h.reply⟩
  | some i =>
    refine ⟨h.params, h.rxIf, ?_, h.ifHit, h.checksums, h.header, h.reply⟩
    exact congrArg₂ (fun (e : RouteEntry) (u : State) =>
      { u with
        lpmHit := true, lpmIdx := BitVec.ofNat 32 i, lpmPfx := e.pfx, lpmMask := e.mask, lpmNhop := e.nextHop
        lpmEif := e.egressIf }) (hroute i rfl) h.results

theorem SameReports.writeArpResult {a : Option Nat} (harp : ∀ j, a = some j → s.arp j = t.arp j) :
    SameReports (writeArpResult a s) (writeArpResult a t) := by
  cases a with
  | none =>
    exact ⟨h.params, h.rxIf, congrArg (Machine.writeArpResult none) h.results, h.ifHit, h.checksums, h.header, h.reply⟩
  | some j =>
    refine ⟨h.params, h.rxIf, ?_, h.ifHit, h.checksums, h.header, h.reply⟩
    exact congrArg₂ (fun (e : ArpEntry) (u : State) =>
      { u with
        arpHit := true, arpIdx := BitVec.ofNat 32 j, arpIp := e.ip, arpMacHi := e.mac.hi, arpMacLo := e.mac.lo })
      (harp j rfl) h.results

theorem SameReports.writeBytes (a : Nat) (l : List Byte) : SameReports (s.writeBytes .rx a l) (t.writeBytes .rx a l) :=
  ⟨h.params, h.rxIf, h.results, h.ifHit, h.checksums,
    fun k hk => State.byte_writeBytes_congr a l (h.header k hk), h.reply⟩

theorem SameReports.fwdMutate : SameReports (fwdMutate s) (fwdMutate t) := by
  have hchecksums : (Machine.fwdMutate s).checksums = (Machine.fwdMutate t).checksums :=
    checksums_eq_of_latchedFrom (latchedFrom_fwdMutate s)
      (latchedFrom_mutatedHeader_congr h.params h.header (latchedFrom_fwdMutate t))
  have hheader : ∀ k < 42, (Machine.fwdMutate s).byte .rx k = (Machine.fwdMutate t).byte .rx k := by
    intro k hk
    obtain ⟨-, -, -, hres, -⟩ := State.checksums_eq_iff.1 hchecksums
    obtain ⟨hhigh, hlow⟩ := fwdMutate_checksum_field s
    obtain ⟨hhigh', hlow'⟩ := fwdMutate_checksum_field t
    obtain rfl | rfl | rfl | ⟨httl, h24, h25⟩ : k = 22 ∨ k = 24 ∨ k = 25 ∨ k ≠ 22 ∧ k ≠ 24 ∧ k ≠ 25 := by omega
    · rw [fwdMutate_byte_ttl, fwdMutate_byte_ttl, h.header 22 hk]
    · rw [hhigh, hhigh', hres]
    · rw [hlow, hlow', hres]
    · rw [fwdMutate_byte_of_ne s httl h24 h25, fwdMutate_byte_of_ne t httl h24 h25, h.header k hk]
  obtain ⟨_, _, _, _, _, _, hs⟩ := fwdMutate_frame s
  obtain ⟨_, _, _, _, _, _, ht⟩ := fwdMutate_frame t
  rw [hs, ht] at hchecksums hheader ⊢
  exact ⟨h.params, h.rxIf, h.results, h.ifHit, hchecksums, hheader, h.reply⟩

/-- The whole of TXB below `FB_SIZE` is cleared or written by a reply. -/
theorem SameReports.sameReplyInputs : SameReplyInputs s.params.fbSize s t :=
  ⟨h.params, h.rxIf, h.header, fun _ hk hle => absurd hk (not_lt.2 hle)⟩

theorem SameReports.fwdReply (hsize : 42 ≤ s.params.fbSize) (ty : Byte) (d : Disposition) :
    SameReports (fwdReply ty d s) (fwdReply ty d t) := by
  have hchecksums : (Machine.fwdReply ty d s).checksums = (Machine.fwdReply ty d t).checksums := by
    rw [fwdReply_checksums, fwdReply_checksums, h.sameReplyInputs.makeReply_checksums hsize]
  have htx : ∀ k < s.params.fbSize, (Machine.fwdReply ty d s).byte .tx k = (Machine.fwdReply ty d t).byte .tx k :=
    fun k hk => by rw [fwdReply_byte_tx, fwdReply_byte_tx, h.sameReplyInputs.makeReply_byte hsize ty hk]
  obtain ⟨_, _, _, _, _, _, hs⟩ := fwdReply_frame ty d s
  obtain ⟨_, _, _, _, _, _, ht⟩ := fwdReply_frame ty d t
  rw [hs, ht] at hchecksums htx ⊢
  refine ⟨h.params, h.rxIf, ?_, h.ifHit, hchecksums, h.header, fun _ => ⟨rfl, h.rxIf, htx⟩⟩
  exact congrArg₂ (fun (i : Half) (u : State) =>
    { u with outValid := true, outSel := true, outLen := 42, outIf := i, disp := dispCode d }) h.rxIf h.results

end SameReports

section SameInputs

variable {s t : State} (h : SameInputs s t)
include h

theorem SameInputs.sameReports_fwdChecked : SameReports (fwdChecked s) (fwdChecked t) := by
  have hchecksums : (fwdChecked s).checksums = (fwdChecked t).checksums :=
    checksums_eq_of_latchedFrom (latchedFrom_fwdChecked s)
      (latchedFrom_congr h.params (fun j _ => h.header (14 + j) (by omega)) (latchedFrom_fwdChecked t))
  have hheader : ∀ k < 42, (fwdChecked s).byte .rx k = (fwdChecked t).byte .rx k := fun k hk => by
    rw [fwdChecked_byte, fwdChecked_byte, h.header k hk]
  obtain ⟨_, _, _, _, _, hs⟩ := fwdChecked_frame s
  obtain ⟨_, _, _, _, _, ht⟩ := fwdChecked_frame t
  rw [hs, ht] at hchecksums hheader ⊢
  exact ⟨h.params, h.rxIf, rfl, rfl, hchecksums, hheader, nofun⟩

theorem SameInputs.sameReports_fwdRouted {r : Option Nat} (hroute : ∀ i, r = some i → s.route i = t.route i) :
    SameReports (fwdRouted r s) (fwdRouted r t) :=
  h.sameReports_fwdChecked.writeLpmResult fun i hi => by rw [fwdChecked_route, fwdChecked_route, hroute i hi]

theorem SameInputs.sameReports_fwdResolved {r : Nat} {a : Option Nat} (hroute : s.route r = t.route r)
    (harp : ∀ j, a = some j → s.arp j = t.arp j) : SameReports (fwdResolved r a s) (fwdResolved r a t) := by
  have hrouted : SameReports (fwdRouted (some r) s) (fwdRouted (some r) t) :=
    h.sameReports_fwdRouted fun i hi => Option.some.inj hi ▸ hroute
  exact hrouted.fwdMutate.writeArpResult fun j hj => by
    rw [fwdMutate_fwdRouted_arp, fwdMutate_fwdRouted_arp, harp j hj]

/-- With the same verdict, the two runs of `FWD` report the same. -/
theorem SameInputs.sameReports_after (hsize : 42 ≤ s.params.fbSize) {v : Verdict} (hv : v.Holds s) :
    SameReports (v.after s) (v.after t) := by
  have hroute {r : Nat} (hr : lookup s (destination s) = some r) : s.route r = t.route r :=
    h.route r (lookup_matches hr).1
  have hsizeRouted (r : Option Nat) : 42 ≤ (fwdRouted r s).params.fbSize :=
    (sameInputs_fwdRouted r s).params ▸ hsize
  cases v with
  | badChecksum => exact h.sameReports_fwdChecked.setDisp _
  | expired => exact h.sameReports_fwdChecked.fwdReply ((sameInputs_fwdChecked s).params ▸ hsize) _ _
  | unrouted => exact (h.sameReports_fwdRouted (r := none) nofun).fwdReply (hsizeRouted none) _ _
  | own r =>
    obtain ⟨-, hlookup, -⟩ := hv
    have hrouted : SameReports (fwdRouted (some r) s) (fwdRouted (some r) t) :=
      h.sameReports_fwdRouted fun i hi => Option.some.inj hi ▸ hroute hlookup
    exact (hrouted.setIfHit true).fwdReply (hsizeRouted (some r)) _ _
  | unresolved r =>
    obtain ⟨⟨-, hlookup, -⟩, -⟩ := hv
    exact (h.sameReports_fwdResolved (a := none) (hroute hlookup) nofun).setDisp _
  | forwarded r j =>
    obtain ⟨⟨-, hlookup, -⟩, hj, -⟩ := hv
    have harp := h.arp j hj
    rw [Verdict.after, Verdict.after, ← h.rxLen, ← hroute hlookup, ← harp]
    have hresolved : SameReports (fwdResolved r (some j) s) (fwdResolved r (some j) t) :=
      h.sameReports_fwdResolved (hroute hlookup) fun i hi => Option.some.inj hi ▸ harp
    exact (hresolved.writeBytes _ _).setOutput _ _ _

end SameInputs

/-! A second run (70_reset_and_hazards.md R242). -/

/-- What the forward path leaves in RXB has the same route and the same ARP result, as long as its TTL allows. -/
theorem transit_again {s : State} {r : Nat} (h : Transit s r) (hseed : SeedLegal s)
    (hdisp : IsForwardDisp (forward s).disp) (httl : 2 ≤ ((forward s).byte .rx 22).toNat) :
    Transit (forward s) r ∧ (NoArp s (destination s) → NoArp (forward s) (destination (forward s))) := by
  have htables := sameTables_of_onlyForwardState (onlyForwardState_forward s)
  have hdestination : destination (forward s) = destination s := by
    rw [destination, destination, fieldNumber_congr fun k hk =>
      h.forward_byte_of_ne (k := 30 + k) (by omega) (by omega) (by omega) (by omega)]
  obtain ⟨-, hroute, hlocal⟩ := h
  rw [Transit, hdestination, ← htables.lookup_eq, ← htables.isLocal_iff, ← htables.noArp_iff]
  exact ⟨⟨⟨forward_validates hseed hdisp, httl⟩, hroute, hlocal⟩, id⟩

end Sys2Proof.Machine

namespace Sys2Proof.Claims

open Sys2Proof.Machine

/-- Settles O52: nothing but the start and the validation has run. -/
theorem fwdDropsABadChecksum : Obligations.FwdDropsABadChecksum := by
  intro s hrun hbad
  have hverdict : Verdict.badChecksum.Holds s := hbad
  obtain ⟨hlpm, harp, hif, hout⟩ := fwdChecked_cleared s
  have honly := onlyForwardState_after hverdict
  refine ⟨_, exec_fwd_eq_after hrun hverdict, rfl, hout, hlpm, harp, hif, latchedFrom_fwdChecked s, ?_, honly, ?_⟩
  · exact sameBytes_fwdChecked s
  · obtain ⟨acc, f, o, r, z, hframe⟩ := fwdChecked_frame s
    rw [Verdict.after, hframe]
    exact ⟨rfl, rfl⟩

/-- Settles O53: the reply is built behind the validation alone. -/
theorem fwdAnswersAnExpiredTtl : Obligations.FwdAnswersAnExpiredTtl := by
  intro s hrun hvalid httl
  have hverdict : Verdict.expired.Holds s := ⟨hvalid, httl⟩
  have honly := onlyForwardState_fwdChecked s
  obtain ⟨hlpm, harp, hif, -⟩ := fwdChecked_cleared s
  obtain ⟨hlpmIff, -, harpIff, hifEq⟩ := fwdReply_lookups Config.icmpTimeExceeded .timeExceededSent (fwdChecked s)
  exact ⟨_, exec_fwd_eq_after hrun hverdict, rfl, replyBuilt_fwdReply honly (sameBytes_fwdChecked s) _ _,
    replyOut_fwdReply honly _ _, hlpmIff.2 hlpm, harpIff.2 harp, hifEq.trans hif,
    fun k => (fwdReply_byte_rx _ _ _ k).trans (fwdChecked_byte s .rx k), onlyForwardState_after hverdict⟩

/-- Settles O54: the reply is built behind the lookup's miss. -/
theorem fwdAnswersAMissingRoute : Obligations.FwdAnswersAMissingRoute := by
  intro s hrun hvalid httl hroute
  have hverdict : Verdict.unrouted.Holds s := ⟨⟨hvalid, httl⟩, hroute⟩
  have honly := onlyForwardState_fwdRouted none s
  obtain ⟨hlpmIff, -, harpIff, hifEq⟩ := fwdReply_lookups Config.icmpDestUnreach .destUnreachSent (fwdRouted none s)
  exact ⟨_, exec_fwd_eq_after hrun hverdict, rfl, replyBuilt_fwdReply honly (sameBytes_fwdRouted none s) _ _,
    replyOut_fwdReply honly _ _, hlpmIff.2 (lpmNone_fwdRouted s), harpIff.2 (arpNone_fwdRouted none s),
    hifEq.trans (fwdRouted_ifHit none s), fun k => (fwdReply_byte_rx _ _ _ k).trans (fwdRouted_byte none s .rx k),
    onlyForwardState_after hverdict⟩

/-- Settles O55: the reply is built behind the lookup's hit and the local match. -/
theorem fwdAnswersALocalDestination : Obligations.FwdAnswersALocalDestination := by
  intro s r hrun hvalid httl hroute hlocal
  have hverdict : (Verdict.own r).Holds s := ⟨⟨hvalid, httl⟩, hroute, hlocal⟩
  set u : State := { fwdRouted (some r) s with ifHit := true } with hu
  have honly : OnlyForwardState s u := (onlyForwardState_fwdRouted (some r) s).trans rfl
  have hbytes : SameBytes s u := fun b k => (sameBytes_of_eq rfl rfl rfl b k).trans (fwdRouted_byte (some r) s b k)
  obtain ⟨-, hlpmIff, harpIff, hifEq⟩ := fwdReply_lookups Config.icmpEchoReply .echoReplied u
  exact ⟨_, exec_fwd_eq_after hrun hverdict, rfl, replyBuilt_fwdReply honly hbytes _ _,
    replyOut_fwdReply honly _ _, (hlpmIff s r).2 (lpmIs_fwdRouted r s), harpIff.2 (arpNone_fwdRouted (some r) s),
    hifEq, fun k => (fwdReply_byte_rx _ _ _ k).trans (hbytes .rx k), onlyForwardState_after hverdict⟩

/-- Settles O56: the mutation, then the drop or the new destination MAC. -/
theorem fwdForwardsInPlace : Obligations.FwdForwardsInPlace := by
  intro s r hrun hvalid httl hroute hlocal
  have htransit : Transit s r := ⟨⟨hvalid, httl⟩, hroute, hlocal⟩
  have hless := htransit.forward_ttl
  obtain ⟨hhigh, hlow⟩ := htransit.checksum_field
  obtain ⟨htx, hlen, hif, hifHit⟩ := htransit.keeps_tx
  refine ⟨forward s, exec_fwd_of_run hrun, htransit.lpmIs, hifHit, by omega, htransit.latchedFrom, hhigh, hlow,
    fun k => htransit.forward_byte_of_ne, htx, hlen, hif, onlyForwardState_forward s, fun hmiss => ?_, fun j hhit => ?_⟩
  · obtain ⟨hdisp, hout, harp, hbyte⟩ := htransit.forward_of_noArp hmiss
    refine ⟨hdisp, hout, harp, fun k hk => ?_⟩
    rw [hbyte, fwdMutate_byte_of_ne _ (by omega) (by omega) (by omega), fwdRouted_byte]
  · obtain ⟨hdisp, hvalidOut, hsel, houtLen, houtIf, harp⟩ := htransit.forward_of_firstArp hhit
    exact ⟨hdisp, hvalidOut, hsel, houtLen, houtIf, harp, htransit.forward_bytes_of_firstArp hhit⟩

/-- Settles O57: each verdict has its disposition, and the error registers are not among what `FWD` may write. -/
theorem fwdDispositions : Obligations.FwdDispositions := by
  intro s
  refine ⟨exec_runOnly_of_config rfl, fun hrun => ?_⟩
  obtain ⟨v, hv⟩ := exists_verdict_holds s
  obtain ⟨hdisp, hsends⟩ := dispCode_disposition v
  refine ⟨v.after s, exec_fwd_eq_after hrun hv, ?_, ?_, ?_⟩
  · rwa [after_disp]
  · rwa [after_disp, after_outValid hv]
  · rw [onlyForwardState_after hv]
    exact ⟨rfl, rfl, rfl⟩

/-- Settles O59: the inputs decide the verdict, and with one verdict both runs report the same. -/
theorem fwdDependsOnHeadersAndTables : Obligations.FwdDependsOnHeadersAndTables := by
  intro s₁ s₂ t₁ t₂ hrun₁ hrun₂ hparams hrxIf hrxLen hrtLen hatLen hroute harp hiface hheader hsize hexec₁ hexec₂
  have hinputs : SameInputs s₁ s₂ := ⟨⟨hparams, hrtLen, hatLen, hroute, harp, hiface⟩, hrxIf, hrxLen, hheader⟩
  obtain ⟨v, hv⟩ := exists_verdict_holds s₁
  obtain rfl := Host.Outcome.next.inj ((exec_fwd_eq_after hrun₁ hv).symm.trans hexec₁)
  obtain rfl := Host.Outcome.next.inj ((exec_fwd_eq_after hrun₂ ((hinputs.holds_iff v).1 hv)).symm.trans hexec₂)
  have hreports := hinputs.sameReports_after hsize hv
  have hresult {α : Type} (field : State → α) : field (v.after s₁).results = field (v.after s₂).results :=
    congrArg field hreports.results
  obtain ⟨hacc, hfold, hodd, hres, hzero⟩ := State.checksums_eq_iff.1 hreports.checksums
  have hparamsAfter : (v.after s₁).params = s₁.params := by rw [onlyForwardState_after hv]
  exact ⟨hresult State.disp, hresult State.outValid, hresult State.outSel, hresult State.outLen, hresult State.outIf,
    hreports.ifHit, hresult State.lpmHit, hresult State.lpmIdx, hresult State.lpmPfx, hresult State.lpmMask,
    hresult State.lpmNhop, hresult State.lpmEif, hresult State.arpHit, hresult State.arpIdx, hresult State.arpIp,
    hresult State.arpMacHi, hresult State.arpMacLo, hacc, hfold, hodd, hres, hzero, hreports.header,
    hparamsAfter ▸ hreports.reply⟩

/-- Settles O60: the dropped frame is again a valid one on the same path, with the TTL one less. -/
theorem repeatedFwdWalksTheTtlDown : Obligations.RepeatedFwdWalksTheTtlDown := by
  intro s t hseed hrun hexec hdisp
  obtain rfl : forward s = t := Host.Outcome.next.inj ((exec_fwd_of_run hrun).symm.trans hexec)
  obtain ⟨v, hv⟩ := exists_verdict_holds s
  obtain ⟨r, rfl⟩ := eq_unresolved_of_disp (forward_eq_after hv ▸ hdisp)
  obtain ⟨htransit, hmiss⟩ := hv
  have hvalid : ValidHeader (forward s) .rx := forward_validates hseed (.inr hdisp)
  have hless := htransit.forward_ttl
  have hrunAgain : (forward s).built = true := by rw [onlyForwardState_forward s, hrun]
  refine ⟨hvalid, hless, forward (forward s), exec_fwd_of_run hrunAgain, fun hone => ?_, fun htwo => ?_⟩
  · have hexpired : Verdict.expired.Holds (forward s) := ⟨hvalid, hone.le⟩
    rw [forward_eq_after hexpired]
    exact after_disp _ _
  · obtain ⟨htransitAgain, hmissAgain⟩ := transit_again htransit hseed (.inr hdisp) htwo
    obtain ⟨hdispAgain, -⟩ := htransitAgain.forward_of_noArp (hmissAgain hmiss)
    have hlessAgain := htransitAgain.forward_ttl
    exact ⟨hdispAgain, by omega⟩

end Sys2Proof.Claims

/-! PROOFS of the system statement: the illegal words of a command without operands, and what `SRST` clears
(44_system.md). -/

namespace Sys2Proof

open Sys2Proof.Claims Sys2Proof.Laws.OpcodeField

/-- A row without operands has one legal word; every other word of its opcode has a must-be-zero bit set. -/
theorem decode_of_encode_ne {w : Word} {i : Instr} (hop : opField w = opcodeOf i) (hoperands : withOperandsOf w i = i)
    (hne : encode i ≠ w) : decode w = .error (.mustBeZero (opField w)) := by
  rw [decode_of_opField_eq hop, hoperands, legalWhen, if_neg]
  intro hzero
  obtain ⟨-, hencode⟩ := (encode_eq_iff w i).2 ⟨⟨hop, hzero⟩, (withOperandsOf_eq_self_iff w i).1 hoperands⟩
  exact hne hencode

/-- The words of opcode 0 are those below 2^26. -/
theorem opField_eq_zero_iff (w : Word) : opField w = 0 ↔ w ≤ 0x03FFFFFF := by
  have hbound : w ≤ 0x03FFFFFF ↔ w.toNat ≤ 0x03FFFFFF := BitVec.le_def
  rw [opField_eq, hbound]
  have := w.isLt
  omega

end Sys2Proof

namespace Sys2Proof.Machine

theorem exec_nop (s : State) : exec .nop s = .next s := rfl

theorem exec_srst (s : State) : exec .srst s = .next (clearRegisters s) := rfl

/-- Every register reads as after hardware reset (10_state.md R25). -/
theorem readReg_clearRegisters (s : State) (r : Reg) : readReg (clearRegisters s) r = 0 := by
  cases r with
  | csAccHi => exact BitVec.extractLsb'_zero
  | arpMacLo => exact BitVec.zero_append_zero
  | _ => rfl

end Sys2Proof.Machine

namespace Sys2Proof.Claims

open Sys2Proof.Machine

/-- Settles O17: `SRST` is `clearRegisters`, and each of the two opcodes has one legal word. -/
theorem systemCommands : Obligations.SystemCommands := by
  refine ⟨exec_nop, fun w hlo hhi => ?_, fun s => ?_, fun w hop hne => ?_⟩
  · have hne : encode .nop ≠ w := by
      rintro rfl
      exact absurd hlo (by decide)
    exact ⟨_, decode_of_encode_ne (i := .nop) ((opField_eq_zero_iff w).2 hhi) rfl hne⟩
  · exact ⟨_, exec_srst s, readReg_clearRegisters s, clearRegisters_iface s, clearRegisters_byte s,
      clearRegisters_route s, clearRegisters_arp s, clearRegisters_params s⟩
  · exact ⟨_, decode_of_encode_ne (i := .srst) hop rfl hne.symm⟩

end Sys2Proof.Claims

/-! PROOFS of the exception statements: every step answers a next state, and what clears a refusal (60_exceptions.md R210,
R211, R216). -/

namespace Sys2Proof.Machine

/-- The outcome is a next state. -/
def Answers (o : Host.Outcome State Fault Refusal) : Prop := ∃ t, o = .next t

theorem Answers.next (s : State) : Answers (.next s) := ⟨s, rfl⟩

/-- A command that checks its refusal first and answers either way. -/
theorem Answers.ite {c : Prop} [Decidable c] {o o' : Host.Outcome State Fault Refusal} (h : Answers o)
    (h' : Answers o') : Answers (if c then o else o') := by
  split_ifs
  · exact h
  · exact h'

theorem Answers.answer {o : Host.Outcome State Fault Refusal} (h : Answers o) (r : Response) :
    Answers (answer r o) := by
  obtain ⟨t, rfl⟩ := h
  exact .next _

/-- Every command completes or is refused by the block, and both are next states (60_exceptions.md R211). -/
theorem exec_answers (i : Instr) (s : State) : Answers (exec i s) := by
  cases i with
  | nop | srst | bufclr | ipcs | icmpcs | mkreply => exact .next _
  | build | rtread | atread | ifread | rtlookup | arplookup | csum | fwd => exact .ite (.next _) (.next _)
  | rtload | atload | ifload => exact .ite (.next _) (.ite (.next _) (.next _))
  | rdf b f =>
    cases hf : fieldOfId f with
    | none => exact ⟨_, exec_rdf_of_none hf b s⟩
    | some fld => exact ⟨_, exec_rdf_of_some hf b s⟩
  | wrf b f =>
    cases hf : fieldOfId f with
    | none => exact ⟨_, exec_wrf_of_none hf b s⟩
    | some fld => exact ⟨_, exec_wrf_of_some hf b s⟩

/-- Any word written to `CMD` is answered, legal or not. -/
theorem issue_answers (w : Word) (s : State) : Answers (issue w s) := by
  cases hw : decode w with
  | error e => exact ⟨_, issue_error hw s⟩
  | ok i =>
    rw [issue_ok hw]
    exact exec_answers i s

theorem hostWrite_answers (w : Width) (off : Nat) (v : Word) (s : State) : Answers (hostWrite w off v s) := by
  unfold hostWrite
  split
  · exact .next _
  · exact (issue_answers v s).answer .ack
  · exact .next _
  · exact .next _
  · exact .next _

theorem perform_answers (a : HostAction) (s : State) : Answers (perform a s) := by
  cases a with
  | read w off => exact .next _
  | write w off v => exact hostWrite_answers w off v s
  | reset => exact .next _

theorem step_answers (s : State) : Answers (step s) := by
  cases hs : s.script with
  | nil => exact ⟨s, step_nil s hs⟩
  | cons a rest =>
    rw [step_cons s a rest hs]
    exact perform_answers a _

/-- `STATUS` is write-1-to-clear on bit 1 (10_state.md R25; 60_exceptions.md R216). -/
theorem writeReg_status (s : State) (v : Word) :
    writeReg s .status v = if v.getLsbD 1 then acknowledge s else s := rfl

theorem step_write_status {s : State} {v : Word} {rest : List HostAction} (h : s.script = .write .word 0x04 v :: rest) :
    step s = .next { writeReg { s with script := rest } .status v with resp := .ack } :=
  (step_cons s _ rest h).trans (hostWrite_regOffset _ (r := .status) nofun v)

theorem step_reset {s : State} {rest : List HostAction} (h : s.script = .reset :: rest) :
    step s = .next (hardwareReset { s with script := rest }) :=
  step_cons s _ rest h

/-- A pending refusal stays pending under every command but `SRST`: a command writes the error registers only to latch a
refusal of its own. -/
theorem Executed.errs_of_errs {i : Instr} {s t : State} (h : Executed i s t) (hi : i ≠ .srst) (hs : s.errs = true) :
    t.errs = true := by
  rcases h.errors_cases with ⟨c, -, rfl⟩ | hkept | ⟨hsrst, -⟩
  · exact refuse_errs _ c s
  · obtain ⟨herrs, -, -⟩ := State.errors_eq_iff.1 hkept
    exact herrs.trans hs
  · exact absurd hsrst hi

end Sys2Proof.Machine

namespace Sys2Proof.Claims

open Sys2Proof.Machine

/-- Settles O7: every action of the host is answered, because every command is. -/
theorem blockIsNeverStuck : Obligations.BlockIsNeverStuck := step_answers

/-- Settles O15, by the write to `STATUS`, what a command can do to the error registers, and the two resets. -/
theorem acknowledgeClearsTheRefusal : Obligations.AcknowledgeClearsTheRefusal := by
  refine ⟨fun s v rest hscript => ⟨fun hset => ?_, fun hclear => ?_⟩,
    fun i s t hi hexec => (exec_executed i s t hexec).errs_of_errs hi, fun s t hexec => ?_,
    fun s t rest hscript hstep => ?_⟩
  · rw [step_write_status hscript, writeReg_status, if_pos hset, acknowledge_eq]
  · rw [step_write_status hscript, writeReg_status, if_neg (Bool.eq_false_iff.1 hclear)]
  · cases (exec_srst s).symm.trans hexec
    exact ⟨clearRegisters_errs s, clearRegisters_errCode s, clearRegisters_errCmd s⟩
  · cases (step_reset hscript).symm.trans hstep
    exact ⟨hardwareReset_errs _, hardwareReset_errCode _, hardwareReset_errCmd _⟩

end Sys2Proof.Claims

/-! PROOF of the reset statement: both reset states are ones that clearing the registers leaves as they are, so what holds
of every cleared state holds of them (70_reset_and_hazards.md R230, R232). -/

namespace Sys2Proof.Machine

theorem clearRegisters_reset : clearRegisters State.reset = State.reset := rfl

theorem clearRegisters_hardwareReset (s : State) : clearRegisters (hardwareReset s) = hardwareReset s := rfl

theorem readReg_of_cleared {s : State} (h : clearRegisters s = s) (r : Reg) : readReg s r = 0 := by
  rw [← h]
  exact readReg_clearRegisters s r

theorem iface_of_cleared {s : State} (h : clearRegisters s = s) (k : Nat) : s.iface k = ifReset := by
  rw [← h]
  exact clearRegisters_iface s k

end Sys2Proof.Machine

namespace Sys2Proof.Claims

open Sys2Proof.Machine

/-- Settles O16: `State.reset` and the state after the event are both cleared; the reserved offsets read 0 in any state. -/
theorem hardwareResetClearsEveryRegister : Obligations.HardwareResetClearsEveryRegister := by
  refine ⟨readReg_of_cleared clearRegisters_reset, iface_of_cleared clearRegisters_reset, fun s rest hscript => ?_⟩
  have hcleared := clearRegisters_hardwareReset { s with script := rest }
  exact ⟨_, step_reset hscript, readReg_of_cleared hcleared, iface_of_cleared hcleared,
    fun off habove hoff haligned => hostRead_reserved _ haligned (by omega) hoff⟩

end Sys2Proof.Claims
